-- ==== Sys2Proof/Word.lean ====
section
/-! DEFINITION. The word type of the block, the register index, and the reduction of an exact integer to a word (00_scope.md R7 and its notation). -/

namespace Sys2Proof

/-- A 16-bit storage unit, "the machine's only addressable granularity" (00_scope.md glossary). -/
abbrev Word := BitVec 16

/-- One half of a word (46_sop.md R300 swaps the two halves; 20_memory.md R76 names them high and low). -/
abbrev Byte := BitVec 8

/-- A general register index, 0 to 15 (10_state.md R30). Four bits in every encoding. -/
abbrev Reg := Fin 16

/-- `mod16(n)`, the non-negative residue of an exact integer modulo 65536 (00_scope.md notation). -/
def mod16 (n : Int) : Word := BitVec.ofInt 16 n

/-- R12, R13, R14 and R15 under the names of 10_state.md R31; "naming only, not separate storage". -/
abbrev fpReg : Reg := 12
@[inherit_doc fpReg] abbrev spReg : Reg := 13
@[inherit_doc fpReg] abbrev lrReg : Reg := 14
/-- The program counter is general register 15 (10_state.md R32). -/
abbrev pcReg : Reg := 15

end Sys2Proof
end

