-- ==== Sys2Proof/Config.lean ====
section
/-! DEFINITION. What is fixed for one machine: the parameters of 00_scope.md R7 and R8. The three parameters the spec leaves open are opaque constants without a body, so nothing can be proved about their values. -/

namespace Sys2Proof

/-- The operations that end with `Flags(raw)`, as `OVERFLOW_RULE` tells them apart (43_alu.md R220, R225; 44_shift.md R260). -/
inductive AluClass where
  | ldi | mov | lsi
  | add | sub | and | or | xor | mul | mul32 | div | div32
  | sl | slc | sr | src | sra | sac | ror | roc
  | swb | inv | neg
  deriving DecidableEq, Repr

namespace Config

/-- The number of memory words, 1,048,576 (20_memory.md R70; 90_conflicts.md C1). -/
abbrev memWords : Nat := 0x100000

/-- The first of the 16 words of the autoload ROM (00_scope.md R7, 20_memory.md R79). -/
abbrev romBase : Nat := 0xFFFF0

/-- The word every memory word holds at reset, also the HALT sentinel (20_memory.md R79). -/
abbrev resetWord : Word := 0xFFFF#16

/-- The screen window, `0xF1000..0xF17CF` (20_memory.md R79, R81): ordinary memory to the block. -/
abbrev screenBase : Nat := 0xF1000
@[inherit_doc screenBase] abbrev screenLast : Nat := 0xF17CF

/-- The SWI vector, CS = 0 and PC = 4 (60_exceptions.md R404). -/
abbrev swiCs : Word := 0x0000#16
@[inherit_doc swiCs] abbrev swiPc : Word := 0x0004#16

/-- The quotient of a division by zero (43_alu.md R234). -/
abbrev divZeroQuotient : Word := 0xFFFF#16

/-- `RESET_CS`, `RESET_PC`, `RESET_GPR`, `RESET_SEG`, `RESET_PSW`, `RESET_SHADOW`: the values 10_state.md R47 gives (92_eei_decisions.md D4; log 4). -/
abbrev resetCs : Word := 0xFFFF#16
@[inherit_doc resetCs] abbrev resetPc : Word := 0x0000#16
@[inherit_doc resetCs] abbrev resetGpr : Word := 0x0000#16
@[inherit_doc resetCs] abbrev resetSeg : Word := 0x0000#16
@[inherit_doc resetCs] abbrev resetPsw : Word := 0x0000#16
@[inherit_doc resetCs] abbrev resetShadow : Word := 0x0000#16

/-- `AUTOLOAD_ROM`, the 16 words of the bootstrap ROM: described by 70_reset_and_hazards.md R442, listed nowhere (D5, OPEN; log 3). -/
opaque autoloadRom : Fin 16 → Word

/-- `OVERFLOW_RULE(op, a, b, raw)`, the V flag of every ALU-class instruction: a parameter whose formula the document does not give (43_alu.md R224; D20, OPEN; log 1). -/
opaque overflowRule : AluClass → Word → Word → Int → Bool

/-- `DIV0_REM(a, 0)`, the remainder DIV32 writes for a zero divisor: a free value (43_alu.md R235; D24, OPEN; log 2). -/
opaque div0Rem : Word → Word → Word

/-- The default the spec names for `OVERFLOW_RULE` (43_alu.md R224). Nothing in the machine uses it: it is here so that a statement can say what it says under the default. -/
def defaultOverflow (_ : AluClass) (_ _ : Word) (raw : Int) : Bool :=
  decide (raw < -32768 ∨ 32767 < raw)

end Config

end Sys2Proof
end

