-- ==== Sys2Proof/Syntax.lean ====
section
/-! DEFINITION. The instructions: one constructor for each instruction of spec/opcode_table.json (the descriptors of 30_encoding.md R103, with the alias rows SETI and CLRI as constructors of their own, log 12). -/

namespace Sys2Proof

/-- The four segment registers, codes CS = 0, DS = 1, SS = 2, ES = 3 (10_state.md R42, R43). -/
inductive SegReg where
  | cs | ds | ss | es
  deriving DecidableEq, Repr

/-- The sources of SMV, codes APC = 0, APSW = 1, PSW = 2, ACS = 3 (30_encoding.md R123). -/
inductive SmvSrc where
  | apc | apsw | psw | acs
  deriving DecidableEq, Repr

/-- The second operand of an ALU2 instruction: a register (i = 0) or a 4-bit unsigned immediate (i = 1) (30_encoding.md R106, R126). -/
inductive AluOperand where
  | reg (rs : Reg)
  | imm (v : BitVec 4)
  deriving DecidableEq, Repr

/-- One instruction. The names of the arguments are the field names of spec/opcode_table.json; `w = true` writes the result back (30_encoding.md R106). -/
inductive Instr where
  /-- The sentinel word `0xFFFF` (48_system.md R350). -/
  | halt
  | ldi (imm15 : BitVec 15)
  | ld (rd rb : Reg) (off5 : BitVec 5)
  | st (rd rb : Reg) (off5 : BitVec 5)
  | add (rd : Reg) (w : Bool) (b : AluOperand)
  | sub (rd : Reg) (w : Bool) (b : AluOperand)
  | and (rd : Reg) (w : Bool) (b : AluOperand)
  | or (rd : Reg) (w : Bool) (b : AluOperand)
  | xor (rd : Reg) (w : Bool) (b : AluOperand)
  /-- MUL with a register operand (i = 0). -/
  | mul (rd : Reg) (w : Bool) (rs : Reg)
  /-- MUL with an immediate operand (i = 1, Rd odd). -/
  | mulImm (rd : Reg) (w : Bool) (imm4 : BitVec 4)
  /-- The 32-bit product (i = 1, Rd even). -/
  | mul32 (rd : Reg) (w : Bool) (imm4 : BitVec 4)
  /-- DIV with a register operand (i = 0). -/
  | div (rd : Reg) (w : Bool) (rs : Reg)
  /-- DIV with an immediate operand (i = 1, Rd odd). -/
  | divImm (rd : Reg) (w : Bool) (imm4 : BitVec 4)
  /-- Quotient and remainder (i = 1, Rd even). -/
  | div32 (rd : Reg) (w : Bool) (imm4 : BitVec 4)
  | sl (rd : Reg) (count : BitVec 3)
  | slc (rd : Reg) (count : BitVec 3)
  | sr (rd : Reg) (count : BitVec 3)
  | src (rd : Reg) (count : BitVec 3)
  | sra (rd : Reg) (count : BitVec 3)
  | sac (rd : Reg) (count : BitVec 3)
  | ror (rd : Reg) (count : BitVec 3)
  | roc (rd : Reg) (count : BitVec 3)
  | jz (off9 : BitVec 9)
  | jnz (off9 : BitVec 9)
  | jc (off9 : BitVec 9)
  | jnc (off9 : BitVec 9)
  | jn (off9 : BitVec 9)
  | jnn (off9 : BitVec 9)
  | jv (off9 : BitVec 9)
  | jnv (off9 : BitVec 9)
  /-- The seg field is carried and ignored (30_encoding.md R109). -/
  | lds (seg : SegReg) (rd rs : Reg)
  /-- As `lds`: the seg field is ignored. -/
  | sts (seg : SegReg) (rd rs : Reg)
  | mov (rd rs : Reg) (imm2 : BitVec 2)
  | lsi (rd : Reg) (imm5 : BitVec 5)
  | swb (rx : Reg)
  | inv (rx : Reg)
  | neg (rx : Reg)
  | jml (rx : Reg)
  | srs (reg : Reg)
  | srd (reg : Reg)
  | ers (reg : Reg)
  | erd (reg : Reg)
  | set (mask : BitVec 4)
  | clr (mask : BitVec 4)
  | set2 (mask : BitVec 4)
  | clr2 (mask : BitVec 4)
  /-- `SETI` is `SET2 1` (30_encoding.md R146). -/
  | seti
  /-- `CLRI` is `CLR2 1` (30_encoding.md R146). -/
  | clri
  /-- SOP types 12 to 15: `t` is the type's low two bits (46_sop.md R311). -/
  | sopReserved (t : BitVec 2) (rx : BitVec 4)
  | mvsRead (rd : Reg) (seg : SegReg)
  | mvsWrite (rd : Reg) (seg : SegReg)
  | smv (src : SmvSrc) (rd : Reg)
  | nop
  | hlt
  | swi
  | reti
  /-- sysOp 4 to 7: `op` is the code's low two bits (48_system.md R355). -/
  | sysReserved (op : BitVec 2)
  /-- A word of no class (30_encoding.md R132). -/
  | unrecognized (w : Word)
  deriving DecidableEq, Repr

end Sys2Proof
end

