-- ==== Sys2Proof/WellFormed.lean ====
section
/-! DEFINITION. Which terms of `Instr` the decoder can produce: the side conditions the encoding puts on the operands. -/

namespace Sys2Proof

/-- The words of no class: `0xFFC0..0xFFEF` and `0xFFF8..0xFFFE` (30_encoding.md R101, R132). -/
def isUnrecognizedWord (w : Word) : Bool :=
  (0xFFC0 ≤ w.toNat && w.toNat ≤ 0xFFEF) || (0xFFF8 ≤ w.toNat && w.toNat ≤ 0xFFFE)

/-- An odd register index: bit 0 of the field is 1 (30_encoding.md R117). -/
def isOdd (r : Reg) : Bool := r.val % 2 == 1

/-- The operand checks: the immediate forms of MUL and DIV have an odd Rd, MUL32 and DIV32 an even Rd (30_encoding.md R117); SET2 1 and CLR2 1 are written SETI and CLRI (R146, log 12); an unrecognized word is of no class (R132). Every other term is some word's. JML with an odd Rx is a word of its own (R134). -/
def Instr.wellFormed : Instr → Bool
  | .mulImm rd _ _ => isOdd rd
  | .divImm rd _ _ => isOdd rd
  | .mul32 rd _ _ => !isOdd rd
  | .div32 rd _ _ => !isOdd rd
  | .set2 m => m != 1#4
  | .clr2 m => m != 1#4
  | .unrecognized w => isUnrecognizedWord w
  | .halt | .ldi _ | .ld _ _ _ | .st _ _ _ => true
  | .add _ _ _ | .sub _ _ _ | .and _ _ _ | .or _ _ _ | .xor _ _ _ => true
  | .mul _ _ _ | .div _ _ _ => true
  | .sl _ _ | .slc _ _ | .sr _ _ | .src _ _ | .sra _ _ | .sac _ _ | .ror _ _ | .roc _ _ => true
  | .jz _ | .jnz _ | .jc _ | .jnc _ | .jn _ | .jnn _ | .jv _ | .jnv _ => true
  | .lds _ _ _ | .sts _ _ _ | .mov _ _ _ | .lsi _ _ => true
  | .swb _ | .inv _ | .neg _ | .jml _ | .srs _ | .srd _ | .ers _ | .erd _ => true
  | .set _ | .clr _ | .seti | .clri | .sopReserved _ _ => true
  | .mvsRead _ _ | .mvsWrite _ _ | .smv _ _ => true
  | .nop | .hlt | .swi | .reti | .sysReserved _ => true

end Sys2Proof
end

