-- ==== Sys2Proof/Decode.lean ====
section
/-! DEFINITION. The decoder, a pure total function of one word, and after it the encoder, both written from the formats and code tables of 30_encoding.md. -/

namespace Sys2Proof

/-- The decoder classes of 30_encoding.md R101. -/
inductive WordClass where
  | halt | ldi | ldst | alu2 | jump | ldsSts | mov | lsi | sop | mvs | smv | system | unrecognized
  deriving DecidableEq, Repr

/-- The field of `len` bits whose lowest bit is bit `lo` of the word. -/
def bitsAt (w : Word) (lo len : Nat) : BitVec len := w.extractLsb' lo len

/-- The 4-bit register field whose lowest bit is bit `lo`. -/
def regAt (w : Word) (lo : Nat) : Reg := (bitsAt w lo 4).toFin

/-- One bit of the word as a Boolean (the w, i and d bits). -/
def flagAt (w : Word) (k : Nat) : Bool := bitsAt w k 1 == 1#1

/-- "Decoding is a longest-prefix match over the high bits of the word, in this priority order (first match wins)" (30_encoding.md R101). -/
def classOf (w : Word) : WordClass :=
  if w = 0xFFFF#16 then .halt
  else if bitsAt w 15 1 = 0b0#1 then .ldi
  else if bitsAt w 14 2 = 0b10#2 then .ldst
  else if bitsAt w 13 3 = 0b110#3 then .alu2
  else if bitsAt w 12 4 = 0b1110#4 then .jump
  else if bitsAt w 11 5 = 0b11110#5 then .ldsSts
  else if bitsAt w 10 6 = 0b111110#6 then .mov
  else if bitsAt w 9 7 = 0b1111110#7 then .lsi
  else if bitsAt w 8 8 = 0b11111110#8 then .sop
  else if bitsAt w 7 9 = 0b111111110#9 then .mvs
  else if bitsAt w 6 10 = 0b1111111110#10 then .smv
  else if bitsAt w 3 13 = 0b1111111111110#13 then .system
  else .unrecognized

/-- The number of consecutive one bits at the top of a word, bit 15 downward, counted over the `k` lowest bits (30_encoding.md R102). -/
def onesFrom (w : Word) : Nat → Nat
  | 0 => 0
  | k + 1 => if w.getLsbD k then 1 + onesFrom w k else 0

/-- The leading-ones form of the class (30_encoding.md R102), which the decoder does not use: that the two agree is a statement. -/
def classByLeadingOnes (w : Word) : WordClass :=
  match onesFrom w 16 with
  | 0 => .ldi
  | 1 => .ldst
  | 2 => .alu2
  | 3 => .jump
  | 4 => .ldsSts
  | 5 => .mov
  | 6 => .lsi
  | 7 => .sop
  | 8 => .mvs
  | 9 => .smv
  | 12 => .system
  | 16 => .halt
  | _ => .unrecognized

/-- The segment register of a 2-bit code (10_state.md R43). -/
def segOfCode (c : BitVec 2) : SegReg :=
  match c.toFin with
  | 0 => .cs | 1 => .ds | 2 => .ss | 3 => .es

/-- The SMV source of a 2-bit code (30_encoding.md R123). -/
def smvSrcOfCode (c : BitVec 2) : SmvSrc :=
  match c.toFin with
  | 0 => .apc | 1 => .apsw | 2 => .psw | 3 => .acs

/-- The ALU2 operand: `i` in bit 4, the register or immediate in bits 3:0 (30_encoding.md R106). -/
def aluOperandAt (w : Word) : AluOperand :=
  if flagAt w 4 then .imm (bitsAt w 0 4) else .reg (regAt w 0)

/-- LD/ST: d in bit 13, d = 0 load (30_encoding.md R105). -/
def decodeLdSt (w : Word) : Instr :=
  if flagAt w 13 then .st (regAt w 9) (regAt w 5) (bitsAt w 0 5)
  else .ld (regAt w 9) (regAt w 5) (bitsAt w 0 5)

/-- The three forms of MUL (aluOp 5), by `i` and bit 0 of Rd (30_encoding.md R117). -/
def decodeMul (w : Word) : Instr :=
  if flagAt w 4 then
    if flagAt w 6 then .mulImm (regAt w 6) (flagAt w 5) (bitsAt w 0 4)
    else .mul32 (regAt w 6) (flagAt w 5) (bitsAt w 0 4)
  else .mul (regAt w 6) (flagAt w 5) (regAt w 0)

/-- The three forms of DIV (aluOp 6), by `i` and bit 0 of Rd (30_encoding.md R117). -/
def decodeDiv (w : Word) : Instr :=
  if flagAt w 4 then
    if flagAt w 6 then .divImm (regAt w 6) (flagAt w 5) (bitsAt w 0 4)
    else .div32 (regAt w 6) (flagAt w 5) (bitsAt w 0 4)
  else .div (regAt w 6) (flagAt w 5) (regAt w 0)

/-- SHIFT: type in bits 5:3, count in bits 2:0 (30_encoding.md R107, R119). -/
def decodeShift (w : Word) : Instr :=
  match (bitsAt w 3 3).toFin with
  | 0 => .sl (regAt w 6) (bitsAt w 0 3)
  | 1 => .slc (regAt w 6) (bitsAt w 0 3)
  | 2 => .sr (regAt w 6) (bitsAt w 0 3)
  | 3 => .src (regAt w 6) (bitsAt w 0 3)
  | 4 => .sra (regAt w 6) (bitsAt w 0 3)
  | 5 => .sac (regAt w 6) (bitsAt w 0 3)
  | 6 => .ror (regAt w 6) (bitsAt w 0 3)
  | 7 => .roc (regAt w 6) (bitsAt w 0 3)

/-- ALU2: aluOp in bits 12:10 (30_encoding.md R106, R116). -/
def decodeAlu2 (w : Word) : Instr :=
  match (bitsAt w 10 3).toFin with
  | 0 => .add (regAt w 6) (flagAt w 5) (aluOperandAt w)
  | 1 => .sub (regAt w 6) (flagAt w 5) (aluOperandAt w)
  | 2 => .and (regAt w 6) (flagAt w 5) (aluOperandAt w)
  | 3 => .or (regAt w 6) (flagAt w 5) (aluOperandAt w)
  | 4 => .xor (regAt w 6) (flagAt w 5) (aluOperandAt w)
  | 5 => decodeMul w
  | 6 => decodeDiv w
  | 7 => decodeShift w

/-- JUMP: cond in bits 11:9, off9 in bits 8:0 (30_encoding.md R108, R118). -/
def decodeJump (w : Word) : Instr :=
  match (bitsAt w 9 3).toFin with
  | 0 => .jz (bitsAt w 0 9)
  | 1 => .jnz (bitsAt w 0 9)
  | 2 => .jc (bitsAt w 0 9)
  | 3 => .jnc (bitsAt w 0 9)
  | 4 => .jn (bitsAt w 0 9)
  | 5 => .jnn (bitsAt w 0 9)
  | 6 => .jv (bitsAt w 0 9)
  | 7 => .jnv (bitsAt w 0 9)

/-- LDS/STS: d in bit 10, d = 0 load (30_encoding.md R109, 92_eei_decisions.md D15). -/
def decodeLdsSts (w : Word) : Instr :=
  if flagAt w 10 then .sts (segOfCode (bitsAt w 8 2)) (regAt w 4) (regAt w 0)
  else .lds (segOfCode (bitsAt w 8 2)) (regAt w 4) (regAt w 0)

/-- SOP: type in bits 7:4, Rx in bits 3:0 (30_encoding.md R112, R120, R131); the words of `SET2 1` and `CLR2 1` are named SETI and CLRI (R146, log 12). -/
def decodeSop (w : Word) : Instr :=
  match (bitsAt w 4 4).toFin with
  | 0 => .swb (regAt w 0)
  | 1 => .inv (regAt w 0)
  | 2 => .neg (regAt w 0)
  | 3 => .jml (regAt w 0)
  | 4 => .srs (regAt w 0)
  | 5 => .srd (regAt w 0)
  | 6 => .ers (regAt w 0)
  | 7 => .erd (regAt w 0)
  | 8 => .set (bitsAt w 0 4)
  | 9 => .clr (bitsAt w 0 4)
  | 10 => if bitsAt w 0 4 = 1#4 then .seti else .set2 (bitsAt w 0 4)
  | 11 => if bitsAt w 0 4 = 1#4 then .clri else .clr2 (bitsAt w 0 4)
  | _ => .sopReserved (bitsAt w 4 2) (bitsAt w 0 4)  -- types 12 to 15

/-- MVS: d in bit 6, d = 0 into the general register (30_encoding.md R113, 92_eei_decisions.md D15). -/
def decodeMvs (w : Word) : Instr :=
  if flagAt w 6 then .mvsWrite (regAt w 2) (segOfCode (bitsAt w 0 2))
  else .mvsRead (regAt w 2) (segOfCode (bitsAt w 0 2))

/-- SYSTEM: sysOp in bits 2:0 (30_encoding.md R115, R121). -/
def decodeSystem (w : Word) : Instr :=
  match (bitsAt w 0 3).toFin with
  | 0 => .nop
  | 1 => .hlt
  | 2 => .swi
  | 3 => .reti
  | 4 | 5 | 6 | 7 => .sysReserved (bitsAt w 0 2)

/-- The decoder: total on all 65536 words, reading nothing but the word (30_encoding.md R100, R101, R103). A word of no class is named `unrecognized`. -/
def decode (w : Word) : Instr :=
  match classOf w with
  | .halt => .halt
  | .ldi => .ldi (bitsAt w 0 15)
  | .ldst => decodeLdSt w
  | .alu2 => decodeAlu2 w
  | .jump => decodeJump w
  | .ldsSts => decodeLdsSts w
  | .mov => .mov (regAt w 6) (regAt w 2) (bitsAt w 0 2)
  | .lsi => .lsi (regAt w 5) (bitsAt w 0 5)
  | .sop => decodeSop w
  | .mvs => decodeMvs w
  | .smv => .smv (smvSrcOfCode (bitsAt w 4 2)) (regAt w 0)
  | .system => decodeSystem w
  | .unrecognized => .unrecognized w

/-- The instruction the decoder reads from a table row's word: every row is 16 bits, one word, and bits above `nbits` are 0 (30_encoding.md R100). -/
def decodeTableWord (nbits w : Nat) : Option Instr :=
  some (decode (BitVec.ofNat 16 (w % 2 ^ nbits)))

/-! The encoder. Each field is written from the most significant bit down, as the formats of 30_encoding.md R104 to R115 list them. -/

/-- The 4-bit field of a register index. -/
def regBits (r : Reg) : BitVec 4 := BitVec.ofNat 4 r.val

/-- The 2-bit code of a segment register (10_state.md R43). -/
def segCode : SegReg → BitVec 2
  | .cs => 0 | .ds => 1 | .ss => 2 | .es => 3

/-- The 2-bit code of an SMV source (30_encoding.md R123). -/
def smvSrcCode : SmvSrc → BitVec 2
  | .apc => 0 | .apsw => 1 | .psw => 2 | .acs => 3

/-- The i bit and operand of an ALU2 word (30_encoding.md R106). -/
def aluOperandBits : AluOperand → BitVec 5
  | .reg rs => 0#1 ++ regBits rs
  | .imm v => 1#1 ++ v

/-- ALU2: `110 | aluOp | Rd | w | i operand`. -/
def encodeAlu (op : BitVec 3) (rd : Reg) (w : Bool) (iOperand : BitVec 5) : Word :=
  0b110#3 ++ op ++ regBits rd ++ BitVec.ofBool w ++ iOperand

/-- SHIFT: `110 | 111 | Rd | type | count`. -/
def encodeShift (type : BitVec 3) (rd : Reg) (count : BitVec 3) : Word :=
  0b110#3 ++ 0b111#3 ++ regBits rd ++ type ++ count

/-- JUMP: `1110 | cond | off9`. -/
def encodeJump (cond : BitVec 3) (off9 : BitVec 9) : Word :=
  0b1110#4 ++ cond ++ off9

/-- SOP: `11111110 | type | Rx`. -/
def encodeSop (type : BitVec 4) (rx : BitVec 4) : Word :=
  0b11111110#8 ++ type ++ rx

/-- LDS/STS: `11110 | d | seg | Rd | Rs`. -/
def encodeLdsSts (d : BitVec 1) (seg : SegReg) (rd rs : Reg) : Word :=
  0b11110#5 ++ d ++ segCode seg ++ regBits rd ++ regBits rs

/-- MVS: `111111110 | d | Rd | seg`. -/
def encodeMvs (d : BitVec 1) (rd : Reg) (seg : SegReg) : Word :=
  0b111111110#9 ++ d ++ regBits rd ++ segCode seg

/-- SYSTEM: `1111111111110 | sysOp`. -/
def encodeSystem (op : BitVec 3) : Word :=
  0b1111111111110#13 ++ op

/-- The word of an instruction. -/
def encode : Instr → Word
  | .halt => 0xFFFF#16
  | .ldi imm15 => 0b0#1 ++ imm15
  | .ld rd rb off5 => 0b10#2 ++ 0#1 ++ regBits rd ++ regBits rb ++ off5
  | .st rd rb off5 => 0b10#2 ++ 1#1 ++ regBits rd ++ regBits rb ++ off5
  | .add rd w b => encodeAlu 0 rd w (aluOperandBits b)
  | .sub rd w b => encodeAlu 1 rd w (aluOperandBits b)
  | .and rd w b => encodeAlu 2 rd w (aluOperandBits b)
  | .or rd w b => encodeAlu 3 rd w (aluOperandBits b)
  | .xor rd w b => encodeAlu 4 rd w (aluOperandBits b)
  | .mul rd w rs => encodeAlu 5 rd w (0#1 ++ regBits rs)
  | .mulImm rd w imm4 => encodeAlu 5 rd w (1#1 ++ imm4)
  | .mul32 rd w imm4 => encodeAlu 5 rd w (1#1 ++ imm4)
  | .div rd w rs => encodeAlu 6 rd w (0#1 ++ regBits rs)
  | .divImm rd w imm4 => encodeAlu 6 rd w (1#1 ++ imm4)
  | .div32 rd w imm4 => encodeAlu 6 rd w (1#1 ++ imm4)
  | .sl rd n => encodeShift 0 rd n
  | .slc rd n => encodeShift 1 rd n
  | .sr rd n => encodeShift 2 rd n
  | .src rd n => encodeShift 3 rd n
  | .sra rd n => encodeShift 4 rd n
  | .sac rd n => encodeShift 5 rd n
  | .ror rd n => encodeShift 6 rd n
  | .roc rd n => encodeShift 7 rd n
  | .jz off9 => encodeJump 0 off9
  | .jnz off9 => encodeJump 1 off9
  | .jc off9 => encodeJump 2 off9
  | .jnc off9 => encodeJump 3 off9
  | .jn off9 => encodeJump 4 off9
  | .jnn off9 => encodeJump 5 off9
  | .jv off9 => encodeJump 6 off9
  | .jnv off9 => encodeJump 7 off9
  | .lds seg rd rs => encodeLdsSts 0 seg rd rs
  | .sts seg rd rs => encodeLdsSts 1 seg rd rs
  | .mov rd rs imm2 => 0b111110#6 ++ regBits rd ++ regBits rs ++ imm2
  | .lsi rd imm5 => 0b1111110#7 ++ regBits rd ++ imm5
  | .swb rx => encodeSop 0 (regBits rx)
  | .inv rx => encodeSop 1 (regBits rx)
  | .neg rx => encodeSop 2 (regBits rx)
  | .jml rx => encodeSop 3 (regBits rx)
  | .srs r => encodeSop 4 (regBits r)
  | .srd r => encodeSop 5 (regBits r)
  | .ers r => encodeSop 6 (regBits r)
  | .erd r => encodeSop 7 (regBits r)
  | .set m => encodeSop 8 m
  | .clr m => encodeSop 9 m
  | .set2 m => encodeSop 10 m
  | .clr2 m => encodeSop 11 m
  | .seti => encodeSop 10 1
  | .clri => encodeSop 11 1
  | .sopReserved t rx => encodeSop (0b11#2 ++ t) rx
  | .mvsRead rd seg => encodeMvs 0 rd seg
  | .mvsWrite rd seg => encodeMvs 1 rd seg
  | .smv src rd => 0b1111111110#10 ++ smvSrcCode src ++ regBits rd
  | .nop => encodeSystem 0
  | .hlt => encodeSystem 1
  | .swi => encodeSystem 2
  | .reti => encodeSystem 3
  | .sysReserved op => encodeSystem (1#1 ++ op)
  | .unrecognized w => w

end Sys2Proof
end

