-- ==== Sys2Proof/Machine/State.lean ====
section
/-! DEFINITION. The state of the block as plain data (10_state.md R30 to R47, 20_memory.md R70), why a step can stop, and the state after reset. -/

namespace Sys2Proof.Machine

/-- Why the machine could stop with a fault. The block raises no exception (60_exceptions.md R400), so no step answers a fault. -/
inductive Fault where
  /-- "register index out of 0–15 indicates a decoder bug" (93_implementation_defined.md U12). Raised by nobody: every register field is 4 bits and `Reg` has 16 values. Safe. -/
  | registerIndexOutOfRange
  deriving DecidableEq, Repr

/-- Why an instruction has no outcome. -/
inductive Refusal where
  /-- An instruction whose meaning is not written yet. Raised by no arm of `exec`: every instruction has its meaning. Safe. -/
  | notModelled (mnemonic : String)
  /-- A taken conditional jump, a JML or a taken SWI as the delay-slot instruction of another taken transfer: "no behaviour the document gives" (40_fsm.md R161; 93_implementation_defined.md U1). Raised by those ten instructions. Safe. -/
  | branchInDelaySlot
  /-- JML with an odd Rx: "an odd Rx has no behaviour the document gives and is refused" (45_jump.md R290; 93_implementation_defined.md U2). Raised by JML. Safe. -/
  | jmlOddRegister
  deriving DecidableEq, Repr

/-- A taken control transfer awaiting its delay slot: the target PC, and the target CS for JML only (10_state.md R46). -/
structure Pending where
  targetPc : Word
  targetCs : Option Word
  deriving DecidableEq, Repr

/-- One signal to the store observer: the physical address and the word stored (20_memory.md R78). -/
structure StoreReport where
  pa : Nat
  value : Word
  deriving DecidableEq, Repr

/-- The 1,048,576 words of memory (20_memory.md R70), in one canonical form (log 5). `cells` lists the words below the ROM region as two byte cells each, word `pa` at keys `2 * pa` (bits 7:0) and `2 * pa + 1` (bits 15:8), keys strictly rising, no cell equal to what an unlisted one reads as. `top` holds the 16 words `0xFFFF0..0xFFFFF`, whose reset contents are the autoload ROM; they are ordinary writable words (R80). -/
structure Memory where
  cells : List Host.Cell
  top : Vector Word 16
  deriving DecidableEq, Repr

/-- What a cell that is not listed reads as: half of `0xFFFF`, the reset value of every word (20_memory.md R79). -/
abbrev unlistedByte : Byte := 0xFF#8

/-- Memory with every word `0xFFFF` below the ROM region, and a given ROM at `0xFFFF0..0xFFFFF` (70_reset_and_hazards.md R440). -/
def Memory.blank (rom : Vector Word 16) : Memory := { cells := [], top := rom }

/-- The whole state. -/
structure State where
  /-- The general registers; R15 is the program counter (10_state.md R30, R32). -/
  x : Vector Word 16
  /-- The code segment (10_state.md R42). -/
  cs : Word
  /-- The data segment. -/
  ds : Word
  /-- The stack segment. -/
  ss : Word
  /-- The extra segment. -/
  es : Word
  /-- DE 15, ER 14:11, DS 10, SR 9:6, S 5, I 4, C 3, V 2, Z 1, N 0 (10_state.md R35). -/
  psw : Word
  /-- PSW' (10_state.md R39, R40). -/
  pswShadow : Word
  /-- PC', written by nothing after reset (10_state.md R40). -/
  pcShadow : Word
  /-- CS', written by nothing after reset (10_state.md R40). -/
  csShadow : Word
  /-- The pending transfer (10_state.md R46). -/
  pend : Option Pending
  /-- Whether the block executes (10_state.md R44). -/
  running : Bool
  mem : Memory
  /-- The model's own field: what the store observer has been told, oldest first (20_memory.md R78, log 7). -/
  observed : List StoreReport
  deriving DecidableEq, Repr

/-- The 16 ROM words of this machine as data (log 3). -/
def romImage : Vector Word 16 := Vector.ofFn Config.autoloadRom

/-- The general registers at reset (10_state.md R47). -/
def resetRegs : Vector Word 16 := (Vector.replicate 16 Config.resetGpr).set 15 Config.resetPc

/-- The state after reset of a machine whose autoload ROM is `rom` (10_state.md R47, 70_reset_and_hazards.md R440). -/
def State.resetWith (rom : Vector Word 16) : State :=
  { x := resetRegs
    cs := Config.resetCs
    ds := Config.resetSeg
    ss := Config.resetSeg
    es := Config.resetSeg
    psw := Config.resetPsw
    pswShadow := Config.resetShadow
    pcShadow := Config.resetShadow
    csShadow := Config.resetShadow
    pend := none
    running := true
    mem := Memory.blank rom
    observed := [] }

/-- The machine right after reset (70_reset_and_hazards.md R440). -/
def State.reset : State := State.resetWith romImage

end Sys2Proof.Machine
end

