-- ==== Sys2Proof/Machine/Memory.lean ====
section
/-! DEFINITION. The named operations over memory: one byte cell, one word, and the canonical form (20_memory.md R70, R78; log 5). -/

namespace Sys2Proof.Machine

/-- The byte at a key of a cell list, `unlistedByte` where the key is not listed. -/
def readCell : List Host.Cell → Nat → Byte
  | [], _ => unlistedByte
  | (k, v) :: rest, key => if key = k then v else readCell rest key

/-- Puts a byte at the front of a list, unless it is what an unlisted cell reads as. -/
def consCell (key : Nat) (v : Byte) (rest : List Host.Cell) : List Host.Cell :=
  if v = unlistedByte then rest else (key, v) :: rest

/-- Writes one byte and keeps the canonical form: writing `unlistedByte` removes the cell. -/
def writeCell : List Host.Cell → Nat → Byte → List Host.Cell
  | [], key, v => consCell key v []
  | (k, u) :: rest, key, v =>
    if key < k then consCell key v ((k, u) :: rest)
    else if key = k then consCell key v rest
    else (k, u) :: writeCell rest key v

/-- Keys strictly rising from `lo` and below `hi`, no byte equal to `unlistedByte`. -/
def cellsWf (hi : Nat) : Nat → List Host.Cell → Bool
  | _, [] => true
  | lo, (k, v) :: rest => decide (lo ≤ k) && decide (k < hi) && decide (v ≠ unlistedByte) && cellsWf hi (k + 1) rest

/-- The canonical form of memory (log 5). -/
def Memory.wf (m : Memory) : Bool := cellsWf (2 * Config.romBase) 0 m.cells

/-- A physical address that names a word, `pa <= 0xFFFFF` (20_memory.md R72). -/
def inRange (pa : Nat) : Bool := decide (pa < Config.memWords)

/-- The position of a word among the 16 words of the ROM region, if it is one of them. -/
def topIndex (pa : Nat) : Option (Fin 16) :=
  if h : Config.romBase ≤ pa ∧ pa < Config.romBase + 16 then some ⟨pa - Config.romBase, by omega⟩ else none

/-- `MemRead(pa, 1)`: the word at a physical address (20_memory.md R78). The block reads only in-range addresses. -/
def Memory.readWord (m : Memory) (pa : Nat) : Word :=
  match topIndex pa with
  | some k => m.top[k]
  | none => readCell m.cells (2 * pa + 1) ++ readCell m.cells (2 * pa)

/-- The memory half of `MemWrite(pa, 1, v)` (20_memory.md R78). There is no word outside the range, so nothing is written there. -/
def Memory.writeWord (m : Memory) (pa : Nat) (v : Word) : Memory :=
  match topIndex pa with
  | some k => { m with top := m.top.set k v }
  | none =>
    if inRange pa then
      { m with cells := writeCell (writeCell m.cells (2 * pa) (v.extractLsb' 0 8)) (2 * pa + 1) (v.extractLsb' 8 8) }
    else m

end Sys2Proof.Machine
end

