-- ==== Sys2Proof/Machine/Flags.lean ====
section
/-! DEFINITION. The PSW: its fields, every way an instruction writes it, and the flag law of the ALU-class instructions (10_state.md R35 to R38, 43_alu.md R220 to R225, 46_sop.md R303 to R310). -/

namespace Sys2Proof.Machine

/-! The fields of a PSW value (10_state.md R36). -/

/-- N, bit 0. -/
def pswN (p : Word) : Bool := p.getLsbD 0
/-- Z, bit 1. -/
def pswZ (p : Word) : Bool := p.getLsbD 1
/-- V, bit 2. -/
def pswV (p : Word) : Bool := p.getLsbD 2
/-- C, bit 3. -/
def pswC (p : Word) : Bool := p.getLsbD 3
/-- I, the interrupt enable, bit 4. -/
def pswI (p : Word) : Bool := p.getLsbD 4
/-- S, the shadow view, bit 5. -/
def pswS (p : Word) : Bool := p.getLsbD 5
/-- SR, the stack-register selector, bits 9:6. -/
def pswSR (p : Word) : BitVec 4 := p.extractLsb' 6 4
/-- DS, the dual-stack flag, bit 10 (`psw.DS`, not the segment register). -/
def pswDS (p : Word) : Bool := p.getLsbD 10
/-- ER, the extra-register selector, bits 14:11. -/
def pswER (p : Word) : BitVec 4 := p.extractLsb' 11 4
/-- DE, the dual-extra flag, bit 15. -/
def pswDE (p : Word) : Bool := p.getLsbD 15

/-! The writers of the PSW. -/

/-- The four bits N, Z, V, C; bits 15:4 keep their values (43_alu.md R221). -/
def pswWithFlags (p : Word) (n z v c : Bool) : Word :=
  p.extractLsb' 4 12 ++ BitVec.ofBool c ++ BitVec.ofBool v ++ BitVec.ofBool z ++ BitVec.ofBool n

/-- SR and DS, bits 10:6 (46_sop.md R303, R304). -/
def pswWithStack (p : Word) (r : Reg) (dual : Bool) : Word :=
  p.extractLsb' 11 5 ++ BitVec.ofBool dual ++ BitVec.ofNat 4 r.val ++ p.extractLsb' 0 6

/-- ER and DE, bits 15:11 (46_sop.md R305, R306). -/
def pswWithExtra (p : Word) (r : Reg) (dual : Bool) : Word :=
  BitVec.ofBool dual ++ BitVec.ofNat 4 r.val ++ p.extractLsb' 0 11

/-- `psw | m`, bits 3:0 (46_sop.md R307). -/
def pswSetLow (p : Word) (m : BitVec 4) : Word := p ||| m.setWidth 16
/-- `psw & ~m`, bits 3:0 (46_sop.md R308). -/
def pswClearLow (p : Word) (m : BitVec 4) : Word := p &&& ~~~(m.setWidth 16)
/-- `psw | (m * 16)`, bits 7:4 (46_sop.md R309). -/
def pswSetHigh (p : Word) (m : BitVec 4) : Word := p ||| (m.setWidth 16 <<< 4)
/-- `psw & ~(m * 16)`, bits 7:4 (46_sop.md R310). -/
def pswClearHigh (p : Word) (m : BitVec 4) : Word := p &&& ~~~(m.setWidth 16 <<< 4)

/-- S and I, bits 5 and 4 (60_exceptions.md R404). -/
def pswWithView (p : Word) (s i : Bool) : Word :=
  p.extractLsb' 6 10 ++ BitVec.ofBool s ++ BitVec.ofBool i ++ p.extractLsb' 0 4

/-! The flag law. -/

/-- Z of a raw result (43_alu.md R222). -/
def zeroOf (raw : Int) : Bool := mod16 raw == 0#16

/-- N of a raw result (43_alu.md R222). -/
def negativeOf (raw : Int) : Bool := (mod16 raw).msb

/-- C of a raw result: whether it left the unsigned 16-bit range (43_alu.md R223). -/
def carryOf (raw : Int) : Bool := decide (raw < 0 ∨ 0xFFFF < raw)

/-- V: `OVERFLOW_RULE(op, a, b, raw)`, the machine's open parameter (43_alu.md R224, log 1). -/
def overflowOf (op : AluClass) (a b : Word) (raw : Int) : Bool := Config.overflowRule op a b raw

/-- `Flags(raw)` with the carry given apart, as the carry-producing shifts need (43_alu.md R221, 44_shift.md R261). -/
def State.applyFlagsWithCarry (s : State) (op : AluClass) (a b : Word) (raw : Int) (c : Bool) : State :=
  { s with psw := pswWithFlags s.psw (negativeOf raw) (zeroOf raw) (overflowOf op a b raw) c }

/-- `Flags(raw)` (43_alu.md R221 to R224), always on the live PSW (10_state.md R37). -/
def State.applyFlags (s : State) (op : AluClass) (a b : Word) (raw : Int) : State :=
  s.applyFlagsWithCarry op a b raw (carryOf raw)

end Sys2Proof.Machine
end

