-- ==== Sys2Proof/Machine/Ops.lean ====
section
/-! DEFINITION. The named operations over the state: registers, segments, translation, stores, the sequencing of a step, taking the SWI trap and returning from it. -/

namespace Sys2Proof.Machine

/-- `x[r]` (10_state.md R30). -/
def State.reg (s : State) (r : Reg) : Word := s.x[r]

/-- `x[r] <- v` (10_state.md R30); with `r = 15` it writes the program counter (R32). -/
def State.setReg (s : State) (r : Reg) (v : Word) : State := { s with x := s.x.set r v }

/-- The program counter, `x[15]` (10_state.md R32). -/
def State.pc (s : State) : Word := s.reg pcReg

/-- `seg[k]` (10_state.md R42, R43). -/
def State.seg (s : State) : SegReg → Word
  | .cs => s.cs | .ds => s.ds | .ss => s.ss | .es => s.es

/-- `seg[k] <- v` (47_segment_context.md R331). -/
def State.setSeg (s : State) (k : SegReg) (v : Word) : State :=
  match k with
  | .cs => { s with cs := v }
  | .ds => { s with ds := v }
  | .ss => { s with ss := v }
  | .es => { s with es := v }

/-- `(segment << 4) + offset`, not wrapped: up to `0x10FFEF` (20_memory.md R71; 90_conflicts.md C2). -/
def translateAddr (segval off : Word) : Nat := segval.toNat * 16 + off.toNat

/-- `MemWrite(pa, 1, v)`: the word is written, then the store is signalled to the observer, within the step (20_memory.md R78, 92_eei_decisions.md D38). -/
def State.store (s : State) (pa : Nat) (v : Word) : State :=
  { s with mem := s.mem.writeWord pa v, observed := s.observed ++ [{ pa := pa, value := v }] }

/-- `halt`: the block stops; nothing else changes (40_fsm.md R152). -/
def State.halted (s : State) : State := { s with running := false }

/-! Control transfer and the step's sequencing (40_fsm.md R152 to R165). -/

/-- The fetch address, `translate(seg.CS, x[15])` (40_fsm.md R153). -/
def State.fetchAddr (s : State) : Nat := translateAddr s.cs s.pc

/-- The fetched word, or nothing where the fetch address is out of range (40_fsm.md R153). -/
def State.fetch (s : State) : Option Word :=
  if inRange s.fetchAddr then some (s.mem.readWord s.fetchAddr) else none

/-- `x[15] <- mod16(x[15] + 1)` (40_fsm.md R155); the wrap leaves CS alone (10_state.md R33). -/
def State.advancePc (s : State) : State := s.setReg pcReg (s.pc + 1)

/-- The state in which the fetched word's instruction executes: the PC is advanced, but for the sentinel, which halts before the advance (40_fsm.md R154, R155). -/
def State.enter (s : State) (w : Word) : State := if w = 0xFFFF#16 then s else s.advancePc

/-- A taken delayed transfer: outside a delay slot it becomes the pending transfer (40_fsm.md R158), inside one it has no behaviour (R161). While an instruction executes, `pend` is what it was at the start of the step (R157). -/
def State.delayedTransfer (s : State) (t : Pending) : Host.Outcome State Fault Refusal :=
  match s.pend with
  | none => .next { s with pend := some t }
  | some _ => .refused .branchInDelaySlot

/-- Commit: `x[15] <- tpc`, then `seg.CS <- c` if the transfer names a CS, then `pend <- none` (40_fsm.md R159). -/
def State.commit (s : State) (t : Pending) : State :=
  { s.setReg pcReg t.targetPc with cs := t.targetCs.getD s.cs, pend := none }

/-- The end of a step whose start had `pend = p`: an instruction that did not halt in a delay slot is followed by the commit, after every write of its own (40_fsm.md R159, R162). -/
def finishStep (p : Option Pending) (o : Host.Outcome State Fault Refusal) : Host.Outcome State Fault Refusal :=
  match o with
  | .next s =>
    match p with
    | some t => .next (if s.running then s.commit t else s)
    | none => .next s
  | .fault f => .fault f
  | .refused r => .refused r

/-- `step()` returns the value of `running` at the end of the step (40_fsm.md R164); there is no value where the step is refused. -/
def stepReturns (o : Host.Outcome State Fault Refusal) : Option Bool :=
  match o with
  | .next s => some s.running
  | .fault _ => none
  | .refused _ => none

/-! The trap and the return from it. -/

/-- Whether a SWI is taken: `psw.I = 1` and `psw.S = 0` (48_system.md R353). -/
def State.swiTaken (s : State) : Bool := pswI s.psw && !pswS s.psw

/-- Trap entry: the whole PSW is saved in PSW', I is cleared, S set, CS becomes 0 and the PC 4. PC' and CS' are not written (60_exceptions.md R404, 10_state.md R40). -/
def State.trapEntry (s : State) : State :=
  { s.setReg pcReg Config.swiPc with
    pswShadow := s.psw
    psw := pswWithView s.psw true false
    cs := Config.swiCs }

/-- Taking the SWI trap: in a delay slot it has no behaviour (40_fsm.md R161), elsewhere it transfers control at once (R163). -/
def State.takeTrap (s : State) : Host.Outcome State Fault Refusal :=
  match s.pend with
  | none => .next s.trapEntry
  | some _ => .refused .branchInDelaySlot

/-- Trap return: clears `psw.S` and restores nothing (60_exceptions.md R405, 48_system.md R354). -/
def State.trapReturn (s : State) : State :=
  { s with psw := pswWithView s.psw false (pswI s.psw) }

end Sys2Proof.Machine
end

