-- ==== Sys2Proof/Machine/Operands.lean ====
section
/-! DEFINITION. Operand forms: immediates, ALU2 operands, data addresses, jump targets and conditions, and the shared shape of the ALU-class instructions (30_encoding.md R124 to R131, 42_load_store.md R200, 43_alu.md R226, 45_jump.md R280, R281). -/

namespace Sys2Proof.Machine

/-- `zext_16` of a field (30_encoding.md R124 to R126, R129). -/
def zext {n : Nat} (v : BitVec n) : Word := v.setWidth 16

/-- `sext_16` of a field (30_encoding.md R128, R130). -/
def sext {n : Nat} (v : BitVec n) : Word := v.signExtend 16

/-- The second operand of an ALU2 instruction (30_encoding.md R126). -/
def State.operand (s : State) : AluOperand → Word
  | .reg rs => s.reg rs
  | .imm v => zext v

/-- `stackMatch(rb)`: SR, or SR + 1 when the dual-stack flag is set; the pair does not wrap at 15 (42_load_store.md R200). -/
def stackMatch (p : Word) (rb : Reg) : Bool :=
  rb.val == (pswSR p).toNat || (pswDS p && rb.val == (pswSR p).toNat + 1)

/-- `extraMatch(rb)`: ER, or ER + 1 when the dual-extra flag is set (42_load_store.md R200). -/
def extraMatch (p : Word) (rb : Reg) : Bool :=
  rb.val == (pswER p).toNat || (pswDE p && rb.val == (pswER p).toNat + 1)

/-- The data segment register an LD or ST with base `rb` uses; SS is tested before ES (42_load_store.md R200). -/
def dataSeg (p : Word) (rb : Reg) : SegReg :=
  if stackMatch p rb then .ss else if extraMatch p rb then .es else .ds

/-- The physical address of an LD or ST: the offset sum wraps at 16 bits before translation (30_encoding.md R125, 42_load_store.md R201). -/
def dataAddr (s : State) (rb : Reg) (off5 : BitVec 5) : Nat :=
  translateAddr (s.seg (dataSeg s.psw rb)) (s.reg rb + zext off5)

/-- The physical address of an LDS or STS, `zext_20(x[Rs])`: always in range (42_load_store.md R203). -/
def directAddr (s : State) (rs : Reg) : Nat := (s.reg rs).toNat

/-- The target of a conditional jump, relative to the advanced PC, wrapping in the current CS (45_jump.md R281). The example of R282 says one more than this formula gives (log 24). -/
def jumpTarget (s : State) (off9 : BitVec 9) : Word := s.pc + sext off9

/-- The eight conditions of a jump: the flag tested and the value it must have (45_jump.md R280). -/
inductive Cond where
  | zSet | zClear | cSet | cClear | nSet | nClear | vSet | vClear
  deriving DecidableEq, Repr

/-- `holds(cond)`, from the PSW as it is when the jump executes (45_jump.md R280). -/
def Cond.holds (p : Word) : Cond → Bool
  | .zSet => pswZ p
  | .zClear => !pswZ p
  | .cSet => pswC p
  | .cClear => !pswC p
  | .nSet => pswN p
  | .nClear => !pswN p
  | .vSet => pswV p
  | .vClear => !pswV p

/-- The register after `r` in a pair; `r` is even wherever the block uses it, so nothing wraps (43_alu.md R233, 45_jump.md R290). -/
def pairReg (r : Reg) : Reg := r + 1

/-- An ALU-class instruction with one destination: the destination, if it is written, receives `mod16(raw)`, then `Flags(raw)` (43_alu.md R220, R221, R226). -/
def State.aluResult (s : State) (op : AluClass) (rd : Reg) (w : Bool) (a b : Word) (raw : Int) : State :=
  (if w then s.setReg rd (mod16 raw) else s).applyFlags op a b raw

/-- An ALU-class instruction with two destinations, Rd and Rd + 1, flags from `raw` (43_alu.md R233, R235). -/
def State.aluPair (s : State) (op : AluClass) (rd : Reg) (w : Bool) (first second : Word) (a b : Word) (raw : Int) : State :=
  (if w then (s.setReg rd first).setReg (pairReg rd) second else s).applyFlags op a b raw

end Sys2Proof.Machine
end

