-- ==== Sys2Proof/Machine/Alu.lean ====
section
/-! DEFINITION. The meanings of the ALU2 instructions (43_alu.md R220 to R236): exact integer results on unsigned words, narrowed at the end. -/

namespace Sys2Proof.Machine

/-- The common shape of the one-destination ALU2 instructions: `a = x[Rd]`, `b` the operand, `raw` computed from both (R226). -/
def alu2 (op : AluClass) (rawOf : Word → Word → Int) (rd : Reg) (w : Bool) (b : AluOperand) (s : State) :
    Host.Outcome State Fault Refusal :=
  .next (s.aluResult op rd w (s.reg rd) (s.operand b) (rawOf (s.reg rd) (s.operand b)))

/-! Raw results (R220). -/

/-- `a + b`. -/
def rawAdd (a b : Word) : Int := (a.toNat : Int) + (b.toNat : Int)
/-- `a - b`, negative where `a < b`. -/
def rawSub (a b : Word) : Int := (a.toNat : Int) - (b.toNat : Int)
/-- `a & b`. -/
def rawAnd (a b : Word) : Int := ((a &&& b).toNat : Int)
/-- `a | b`. -/
def rawOr (a b : Word) : Int := ((a ||| b).toNat : Int)
/-- `a ^ b`. -/
def rawXor (a b : Word) : Int := ((a ^^^ b).toNat : Int)
/-- `a * b`, unsigned and unreduced. -/
def rawMul (a b : Word) : Int := (a.toNat : Int) * (b.toNat : Int)
/-- The quotient: `floor(a / b)`, `0xFFFF` for a zero divisor (R234). -/
def quotient (a b : Word) : Word := if b = 0#16 then Config.divZeroQuotient else a / b
/-- The remainder: `a - q * b`, the free value `DIV0_REM(a, 0)` for a zero divisor (R235, log 2). -/
def remainder (a b : Word) : Word := if b = 0#16 then Config.div0Rem a 0#16 else a % b
/-- The quotient as a raw result. -/
def rawDiv (a b : Word) : Int := ((quotient a b).toNat : Int)

/-- The high word of a raw product, `raw[31:16]` (R233). -/
def highWord (raw : Int) : Word := mod16 (raw / 0x10000)

/-- ADD (R227). -/
def execAdd (rd : Reg) (w : Bool) (b : AluOperand) (s : State) : Host.Outcome State Fault Refusal :=
  alu2 .add rawAdd rd w b s

/-- SUB; C is the borrow (R228). -/
def execSub (rd : Reg) (w : Bool) (b : AluOperand) (s : State) : Host.Outcome State Fault Refusal :=
  alu2 .sub rawSub rd w b s

/-- AND (R229). -/
def execAnd (rd : Reg) (w : Bool) (b : AluOperand) (s : State) : Host.Outcome State Fault Refusal :=
  alu2 .and rawAnd rd w b s

/-- OR (R230). -/
def execOr (rd : Reg) (w : Bool) (b : AluOperand) (s : State) : Host.Outcome State Fault Refusal :=
  alu2 .or rawOr rd w b s

/-- XOR (R231). -/
def execXor (rd : Reg) (w : Bool) (b : AluOperand) (s : State) : Host.Outcome State Fault Refusal :=
  alu2 .xor rawXor rd w b s

/-- MUL, register operand: the low word of the product (R232). -/
def execMul (rd : Reg) (w : Bool) (rs : Reg) (s : State) : Host.Outcome State Fault Refusal :=
  alu2 .mul rawMul rd w (.reg rs) s

/-- MUL, immediate operand (R232). -/
def execMulImm (rd : Reg) (w : Bool) (imm4 : BitVec 4) (s : State) : Host.Outcome State Fault Refusal :=
  alu2 .mul rawMul rd w (.imm imm4) s

/-- MUL32: the high word to Rd, the low word to Rd + 1, flags from the exact product (R233). -/
def execMul32 (rd : Reg) (w : Bool) (imm4 : BitVec 4) (s : State) : Host.Outcome State Fault Refusal :=
  .next (s.aluPair .mul32 rd w (highWord (rawMul (s.reg rd) (zext imm4))) (mod16 (rawMul (s.reg rd) (zext imm4)))
    (s.reg rd) (zext imm4) (rawMul (s.reg rd) (zext imm4)))

/-- DIV, register operand: the quotient (R234). -/
def execDiv (rd : Reg) (w : Bool) (rs : Reg) (s : State) : Host.Outcome State Fault Refusal :=
  alu2 .div rawDiv rd w (.reg rs) s

/-- DIV, immediate operand (R234). -/
def execDivImm (rd : Reg) (w : Bool) (imm4 : BitVec 4) (s : State) : Host.Outcome State Fault Refusal :=
  alu2 .div rawDiv rd w (.imm imm4) s

/-- DIV32: the quotient to Rd, the remainder to Rd + 1, flags from the quotient (R235). -/
def execDiv32 (rd : Reg) (w : Bool) (imm4 : BitVec 4) (s : State) : Host.Outcome State Fault Refusal :=
  .next (s.aluPair .div32 rd w (quotient (s.reg rd) (zext imm4)) (remainder (s.reg rd) (zext imm4))
    (s.reg rd) (zext imm4) (rawDiv (s.reg rd) (zext imm4)))

end Sys2Proof.Machine
end

