-- ==== Sys2Proof/Machine/Immediate.lean ====
section
/-! DEFINITION. The meanings of LDI, MOV and LSI (41_ldi_mov_lsi.md). -/

namespace Sys2Proof.Machine

/-- LDI: `x[0] <- imm15`, then the flags (R180). -/
def execLdi (imm15 : BitVec 15) (s : State) : Host.Outcome State Fault Refusal :=
  .next (s.aluResult .ldi 0 true 0 0 imm15.toNat)

/-- MOV: `raw := x[Rs] + imm2` (R181). -/
def execMov (rd rs : Reg) (imm2 : BitVec 2) (s : State) : Host.Outcome State Fault Refusal :=
  .next (s.aluResult .mov rd true (s.reg rs) (zext imm2) ((s.reg rs).toNat + imm2.toNat))

/-- LSI: `raw := sext(imm5)`, so a negative immediate sets C (R182). -/
def execLsi (rd : Reg) (imm5 : BitVec 5) (s : State) : Host.Outcome State Fault Refusal :=
  .next (s.aluResult .lsi rd true 0 0 imm5.toInt)

end Sys2Proof.Machine
end

