-- ==== Sys2Proof/Machine/Jump.lean ====
section
/-! DEFINITION. The meanings of the conditional jumps and of JML (45_jump.md R280 to R290). They run after the PC advance: `x[15]` is the jump's address plus 1. -/

namespace Sys2Proof.Machine

/-- A conditional jump: taken, it is a delayed transfer within the current CS; not taken, it does nothing (R281; 40_fsm.md R158, R161). -/
def condJump (c : Cond) (off9 : BitVec 9) (s : State) : Host.Outcome State Fault Refusal :=
  if c.holds s.psw then s.delayedTransfer { targetPc := jumpTarget s off9, targetCs := none } else .next s

/-- JZ: taken iff Z = 1 (R282). -/
def execJz (off9 : BitVec 9) (s : State) : Host.Outcome State Fault Refusal := condJump .zSet off9 s
/-- JNZ: taken iff Z = 0 (R283). -/
def execJnz (off9 : BitVec 9) (s : State) : Host.Outcome State Fault Refusal := condJump .zClear off9 s
/-- JC: taken iff C = 1 (R284). -/
def execJc (off9 : BitVec 9) (s : State) : Host.Outcome State Fault Refusal := condJump .cSet off9 s
/-- JNC: taken iff C = 0 (R285). -/
def execJnc (off9 : BitVec 9) (s : State) : Host.Outcome State Fault Refusal := condJump .cClear off9 s
/-- JN: taken iff N = 1 (R286). -/
def execJn (off9 : BitVec 9) (s : State) : Host.Outcome State Fault Refusal := condJump .nSet off9 s
/-- JNN: taken iff N = 0 (R287). -/
def execJnn (off9 : BitVec 9) (s : State) : Host.Outcome State Fault Refusal := condJump .nClear off9 s
/-- JV: taken iff V = 1 (R288). -/
def execJv (off9 : BitVec 9) (s : State) : Host.Outcome State Fault Refusal := condJump .vSet off9 s
/-- JNV: taken iff V = 0 (R289). -/
def execJnv (off9 : BitVec 9) (s : State) : Host.Outcome State Fault Refusal := condJump .vClear off9 s

/-- JML: a delayed far jump, CS from `x[Rx]` and PC from `x[Rx+1]`, both read now; an odd Rx is refused (R290, log 9, log 10). -/
def execJml (rx : Reg) (s : State) : Host.Outcome State Fault Refusal :=
  if isOdd rx then .refused .jmlOddRegister
  else s.delayedTransfer { targetPc := s.reg (pairReg rx), targetCs := some (s.reg rx) }

end Sys2Proof.Machine
end

