-- ==== Sys2Proof/Machine/LoadStore.lean ====
section
/-! DEFINITION. The meanings of LD, ST, LDS and STS (42_load_store.md): pure data moves, no flag written. -/

namespace Sys2Proof.Machine

/-- LD: the word at the segmented address; out of range the load is skipped (R201). -/
def execLd (rd rb : Reg) (off5 : BitVec 5) (s : State) : Host.Outcome State Fault Refusal :=
  .next (if inRange (dataAddr s rb off5) then s.setReg rd (s.mem.readWord (dataAddr s rb off5)) else s)

/-- ST: stores `x[Rd]` at the segmented address and reports it; out of range the store is skipped and not reported (R202). -/
def execSt (rd rb : Reg) (off5 : BitVec 5) (s : State) : Host.Outcome State Fault Refusal :=
  .next (if inRange (dataAddr s rb off5) then s.store (dataAddr s rb off5) (s.reg rd) else s)

/-- LDS: the word at the physical address in Rs, whatever the seg field (R203, R204). -/
def execLds (_seg : SegReg) (rd rs : Reg) (s : State) : Host.Outcome State Fault Refusal :=
  .next (s.setReg rd (s.mem.readWord (directAddr s rs)))

/-- STS: stores `x[Rd]` at the physical address in Rs and reports it, whatever the seg field (R203, R205). -/
def execSts (_seg : SegReg) (rd rs : Reg) (s : State) : Host.Outcome State Fault Refusal :=
  .next (s.store (directAddr s rs) (s.reg rd))

end Sys2Proof.Machine
end

