-- ==== Sys2Proof/Machine/SegmentContext.lean ====
section
/-! DEFINITION. The meanings of MVS and SMV (47_segment_context.md R330 to R332): pure data moves, no flag written. -/

namespace Sys2Proof.Machine

/-- MVS read: `x[Rd] <- seg[seg]` (R330). -/
def execMvsRead (rd : Reg) (k : SegReg) (s : State) : Host.Outcome State Fault Refusal :=
  .next (s.setReg rd (s.seg k))

/-- MVS write: `seg[seg] <- x[Rd]`; a write to CS acts at the next fetch (R331; 40_fsm.md R160). -/
def execMvsWrite (rd : Reg) (k : SegReg) (s : State) : Host.Outcome State Fault Refusal :=
  .next (s.setSeg k (s.reg rd))

/-- What SMV reads, multiplexed by PSW.S (R332). -/
def smvValue (s : State) (src : SmvSrc) : Word :=
  match src, pswS s.psw with
  | .apc, false => s.pcShadow
  | .apsw, false => s.pswShadow
  | .psw, false => s.psw
  | .acs, false => s.csShadow
  | .apc, true => s.pc
  | .apsw, true => s.psw
  | .psw, true => s.pswShadow
  | .acs, true => s.cs

/-- SMV: `x[Rd] <- value` (R332). -/
def execSmv (src : SmvSrc) (rd : Reg) (s : State) : Host.Outcome State Fault Refusal :=
  .next (s.setReg rd (smvValue s src))

end Sys2Proof.Machine
end

