-- ==== Sys2Proof/Machine/Shift.lean ====
section
/-! DEFINITION. The shift and rotate datapath and the meanings of the eight shifts (44_shift.md R260 to R269). The count is 0 to 7. -/

namespace Sys2Proof.Machine

/-! Results: `a` is the word, `n` the count. -/

/-- The unclamped left shift, `a * 2^n` (R260). -/
def rawShiftLeft (a : Word) (n : Nat) : Int := (a.toNat : Int) * 2 ^ n

/-- `floor(a / 2^n)` (R264). -/
def shiftRight (a : Word) (n : Nat) : Word := BitVec.ofNat 16 (a.toNat / 2 ^ n)

/-- `(a >> n) | (a[15] ? (0xFFFF << (16 - n)) mod 2^16 : 0)` (R266). -/
def shiftRightArith (a : Word) (n : Nat) : Word :=
  shiftRight a n ||| (if a.msb then BitVec.ofNat 16 (0xFFFF * 2 ^ (16 - n)) else 0#16)

/-- `(floor(a / 2^n) + a * 2^(16-n)) mod 2^16` (R268). -/
def rotateRight (a : Word) (n : Nat) : Word := BitVec.ofNat 16 (a.toNat / 2 ^ n + a.toNat * 2 ^ (16 - n))

/-- The 17-bit value `C:a` rotated right by `n` (R269). -/
def rotateThroughCarry (c : Bool) (a : Word) (n : Nat) : BitVec 17 :=
  BitVec.ofNat 17 ((BitVec.ofBool c ++ a).toNat / 2 ^ n + (BitVec.ofBool c ++ a).toNat * 2 ^ (17 - n))

/-- The last bit a left shift puts out, `a[16-n]`; with `n = 0` no bit leaves and C keeps its value (R261, R263). -/
def carryOutLeft (c : Bool) (a : Word) (n : Nat) : Bool := if n = 0 then c else a.getLsbD (16 - n)

/-- The last bit a right shift puts out, `a[n-1]`; with `n = 0` no bit leaves and C keeps its value (R261, R265). -/
def carryOutRight (c : Bool) (a : Word) (n : Nat) : Bool := if n = 0 then c else a.getLsbD (n - 1)

/-- A plain shift: the result is always written and C follows the general rule (R260, R261). -/
def plainShift (op : AluClass) (rd : Reg) (count : BitVec 3) (rawOf : Word → Nat → Int) (s : State) :
    Host.Outcome State Fault Refusal :=
  .next (s.aluResult op rd true (s.reg rd) (zext count) (rawOf (s.reg rd) count.toNat))

/-- A carry-producing shift: C is the bit shifted out (R260, R261). -/
def carryShift (op : AluClass) (rd : Reg) (count : BitVec 3) (raw : Int) (c : Bool) (s : State) :
    Host.Outcome State Fault Refusal :=
  .next ((s.setReg rd (mod16 raw)).applyFlagsWithCarry op (s.reg rd) (zext count) raw c)

/-- SL (R262). -/
def execSl (rd : Reg) (count : BitVec 3) (s : State) : Host.Outcome State Fault Refusal :=
  plainShift .sl rd count rawShiftLeft s

/-- SLC: the carry is an output only (R263). -/
def execSlc (rd : Reg) (count : BitVec 3) (s : State) : Host.Outcome State Fault Refusal :=
  carryShift .slc rd count (rawShiftLeft (s.reg rd) count.toNat) (carryOutLeft (pswC s.psw) (s.reg rd) count.toNat) s

/-- SR (R264). -/
def execSr (rd : Reg) (count : BitVec 3) (s : State) : Host.Outcome State Fault Refusal :=
  plainShift .sr rd count (fun a n => (shiftRight a n).toNat) s

/-- SRC (R265). -/
def execSrc (rd : Reg) (count : BitVec 3) (s : State) : Host.Outcome State Fault Refusal :=
  carryShift .src rd count (shiftRight (s.reg rd) count.toNat).toNat (carryOutRight (pswC s.psw) (s.reg rd) count.toNat) s

/-- SRA (R266). -/
def execSra (rd : Reg) (count : BitVec 3) (s : State) : Host.Outcome State Fault Refusal :=
  plainShift .sra rd count (fun a n => (shiftRightArith a n).toNat) s

/-- SAC (R267). -/
def execSac (rd : Reg) (count : BitVec 3) (s : State) : Host.Outcome State Fault Refusal :=
  carryShift .sac rd count (shiftRightArith (s.reg rd) count.toNat).toNat (carryOutRight (pswC s.psw) (s.reg rd) count.toNat) s

/-- ROR (R268). -/
def execRor (rd : Reg) (count : BitVec 3) (s : State) : Host.Outcome State Fault Refusal :=
  plainShift .ror rd count (fun a n => (rotateRight a n).toNat) s

/-- ROC: the low 16 bits of the rotated 17-bit value, and its bit 16 as C (R269). -/
def execRoc (rd : Reg) (count : BitVec 3) (s : State) : Host.Outcome State Fault Refusal :=
  carryShift .roc rd count ((rotateThroughCarry (pswC s.psw) (s.reg rd) count.toNat).setWidth 16).toNat
    ((rotateThroughCarry (pswC s.psw) (s.reg rd) count.toNat).getLsbD 16) s

end Sys2Proof.Machine
end

