-- ==== Sys2Proof/Machine/Sop.lean ====
section
/-! DEFINITION. The meanings of the single-register and special operations but JML (46_sop.md R300 to R311). -/

namespace Sys2Proof.Machine

/-- An ALU-class SOP: `a = x[Rx]`, `x[Rx] <- mod16(raw)`, then the flags (46_sop.md section 1). The second operand of `OVERFLOW_RULE` is 0 (log 11). -/
def aluSop (op : AluClass) (rawOf : Word → Int) (rx : Reg) (s : State) : Host.Outcome State Fault Refusal :=
  .next (s.aluResult op rx true (s.reg rx) 0 (rawOf (s.reg rx)))

/-- A SOP that writes only the PSW. -/
def pswSop (f : Word → Word) (s : State) : Host.Outcome State Fault Refusal :=
  .next { s with psw := f s.psw }

/-- `a[7:0] * 256 + a[15:8]` (R300). -/
def rawSwapBytes (a : Word) : Int := ((a.extractLsb' 0 8).toNat : Int) * 256 + ((a.extractLsb' 8 8).toNat : Int)
/-- `0xFFFF - a` (R301). -/
def rawInvert (a : Word) : Int := 0xFFFF - (a.toNat : Int)
/-- `0 - a` (R302). -/
def rawNegate (a : Word) : Int := 0 - (a.toNat : Int)

/-- SWB (R300). -/
def execSwb (rx : Reg) (s : State) : Host.Outcome State Fault Refusal := aluSop .swb rawSwapBytes rx s
/-- INV (R301). -/
def execInv (rx : Reg) (s : State) : Host.Outcome State Fault Refusal := aluSop .inv rawInvert rx s
/-- NEG (R302). -/
def execNeg (rx : Reg) (s : State) : Host.Outcome State Fault Refusal := aluSop .neg rawNegate rx s

/-- SRS: `psw.SR <- Rx; psw.DS <- 0` (R303). -/
def execSrs (r : Reg) (s : State) : Host.Outcome State Fault Refusal := pswSop (fun p => pswWithStack p r false) s
/-- SRD: `psw.SR <- Rx; psw.DS <- 1` (R304). -/
def execSrd (r : Reg) (s : State) : Host.Outcome State Fault Refusal := pswSop (fun p => pswWithStack p r true) s
/-- ERS: `psw.ER <- Rx; psw.DE <- 0` (R305). -/
def execErs (r : Reg) (s : State) : Host.Outcome State Fault Refusal := pswSop (fun p => pswWithExtra p r false) s
/-- ERD: `psw.ER <- Rx; psw.DE <- 1` (R306). -/
def execErd (r : Reg) (s : State) : Host.Outcome State Fault Refusal := pswSop (fun p => pswWithExtra p r true) s

/-- SET: `psw <- psw | m` (R307). -/
def execSet (mask : BitVec 4) (s : State) : Host.Outcome State Fault Refusal := pswSop (fun p => pswSetLow p mask) s
/-- CLR: `psw <- psw & ~m` (R308). -/
def execClr (mask : BitVec 4) (s : State) : Host.Outcome State Fault Refusal := pswSop (fun p => pswClearLow p mask) s
/-- SET2: `psw <- psw | (m * 16)` (R309). -/
def execSet2 (mask : BitVec 4) (s : State) : Host.Outcome State Fault Refusal := pswSop (fun p => pswSetHigh p mask) s
/-- CLR2: `psw <- psw & ~(m * 16)` (R310). -/
def execClr2 (mask : BitVec 4) (s : State) : Host.Outcome State Fault Refusal := pswSop (fun p => pswClearHigh p mask) s

/-- SETI is `SET2 1`: it sets PSW.I (R309; 30_encoding.md R146). -/
def execSeti (s : State) : Host.Outcome State Fault Refusal := pswSop (fun p => pswSetHigh p 1#4) s
/-- CLRI is `CLR2 1`: it clears PSW.I (R310; 30_encoding.md R146). -/
def execClri (s : State) : Host.Outcome State Fault Refusal := pswSop (fun p => pswClearHigh p 1#4) s

/-- SOP types 12 to 15: a no-operation (R311). -/
def execSopReserved (_t : BitVec 2) (_rx : BitVec 4) (s : State) : Host.Outcome State Fault Refusal := .next s

end Sys2Proof.Machine
end

