-- ==== Sys2Proof/Machine/System.lean ====
section
/-! DEFINITION. The meanings of the sentinel, the system operations and the words without one (48_system.md R350 to R355). -/

namespace Sys2Proof.Machine

/-- HALT, the sentinel: the block stops; it is run before the PC advance (R350; 40_fsm.md R154). -/
def execHalt (s : State) : Host.Outcome State Fault Refusal := .next s.halted

/-- NOP (R351). -/
def execNop (s : State) : Host.Outcome State Fault Refusal := .next s

/-- HLT: the block stops, after the PC advance (R352). -/
def execHlt (s : State) : Host.Outcome State Fault Refusal := .next s.halted

/-- SWI: the trap if it is taken, else nothing (R353). -/
def execSwi (s : State) : Host.Outcome State Fault Refusal := if s.swiTaken then s.takeTrap else .next s

/-- RETI: clears `psw.S`, restores nothing (R354). -/
def execReti (s : State) : Host.Outcome State Fault Refusal := .next s.trapReturn

/-- sysOp 4 to 7: a no-operation (R355). -/
def execSysReserved (_op : BitVec 2) (s : State) : Host.Outcome State Fault Refusal := .next s

/-- A word of no class: "a no-effect no-operation" (R355; 30_encoding.md R132). -/
def execUnrecognized (_w : Word) (s : State) : Host.Outcome State Fault Refusal := .next s

end Sys2Proof.Machine
end

