-- ==== Sys2Proof/Machine/Dispatch.lean ====
section
/-! DEFINITION. The dispatch: one arm per instruction, each one direct call of its meaning (40_fsm.md R156). -/

namespace Sys2Proof.Machine

def exec (i : Instr) (s : State) : Host.Outcome State Fault Refusal :=
  match i with
  | .halt => Sys2Proof.Machine.execHalt s
  | .ldi imm15 => Sys2Proof.Machine.execLdi imm15 s
  | .ld rd rb off5 => Sys2Proof.Machine.execLd rd rb off5 s
  | .st rd rb off5 => Sys2Proof.Machine.execSt rd rb off5 s
  | .add rd w b => Sys2Proof.Machine.execAdd rd w b s
  | .sub rd w b => Sys2Proof.Machine.execSub rd w b s
  | .and rd w b => Sys2Proof.Machine.execAnd rd w b s
  | .or rd w b => Sys2Proof.Machine.execOr rd w b s
  | .xor rd w b => Sys2Proof.Machine.execXor rd w b s
  | .mul rd w rs => Sys2Proof.Machine.execMul rd w rs s
  | .mulImm rd w imm4 => Sys2Proof.Machine.execMulImm rd w imm4 s
  | .mul32 rd w imm4 => Sys2Proof.Machine.execMul32 rd w imm4 s
  | .div rd w rs => Sys2Proof.Machine.execDiv rd w rs s
  | .divImm rd w imm4 => Sys2Proof.Machine.execDivImm rd w imm4 s
  | .div32 rd w imm4 => Sys2Proof.Machine.execDiv32 rd w imm4 s
  | .sl rd count => Sys2Proof.Machine.execSl rd count s
  | .slc rd count => Sys2Proof.Machine.execSlc rd count s
  | .sr rd count => Sys2Proof.Machine.execSr rd count s
  | .src rd count => Sys2Proof.Machine.execSrc rd count s
  | .sra rd count => Sys2Proof.Machine.execSra rd count s
  | .sac rd count => Sys2Proof.Machine.execSac rd count s
  | .ror rd count => Sys2Proof.Machine.execRor rd count s
  | .roc rd count => Sys2Proof.Machine.execRoc rd count s
  | .jz off9 => Sys2Proof.Machine.execJz off9 s
  | .jnz off9 => Sys2Proof.Machine.execJnz off9 s
  | .jc off9 => Sys2Proof.Machine.execJc off9 s
  | .jnc off9 => Sys2Proof.Machine.execJnc off9 s
  | .jn off9 => Sys2Proof.Machine.execJn off9 s
  | .jnn off9 => Sys2Proof.Machine.execJnn off9 s
  | .jv off9 => Sys2Proof.Machine.execJv off9 s
  | .jnv off9 => Sys2Proof.Machine.execJnv off9 s
  | .lds seg rd rs => Sys2Proof.Machine.execLds seg rd rs s
  | .sts seg rd rs => Sys2Proof.Machine.execSts seg rd rs s
  | .mov rd rs imm2 => Sys2Proof.Machine.execMov rd rs imm2 s
  | .lsi rd imm5 => Sys2Proof.Machine.execLsi rd imm5 s
  | .swb rx => Sys2Proof.Machine.execSwb rx s
  | .inv rx => Sys2Proof.Machine.execInv rx s
  | .neg rx => Sys2Proof.Machine.execNeg rx s
  | .jml rx => Sys2Proof.Machine.execJml rx s
  | .srs r => Sys2Proof.Machine.execSrs r s
  | .srd r => Sys2Proof.Machine.execSrd r s
  | .ers r => Sys2Proof.Machine.execErs r s
  | .erd r => Sys2Proof.Machine.execErd r s
  | .set mask => Sys2Proof.Machine.execSet mask s
  | .clr mask => Sys2Proof.Machine.execClr mask s
  | .set2 mask => Sys2Proof.Machine.execSet2 mask s
  | .clr2 mask => Sys2Proof.Machine.execClr2 mask s
  | .seti => Sys2Proof.Machine.execSeti s
  | .clri => Sys2Proof.Machine.execClri s
  | .sopReserved t rx => Sys2Proof.Machine.execSopReserved t rx s
  | .mvsRead rd seg => Sys2Proof.Machine.execMvsRead rd seg s
  | .mvsWrite rd seg => Sys2Proof.Machine.execMvsWrite rd seg s
  | .smv src rd => Sys2Proof.Machine.execSmv src rd s
  | .nop => Sys2Proof.Machine.execNop s
  | .hlt => Sys2Proof.Machine.execHlt s
  | .swi => Sys2Proof.Machine.execSwi s
  | .reti => Sys2Proof.Machine.execReti s
  | .sysReserved op => Sys2Proof.Machine.execSysReserved op s
  | .unrecognized w => Sys2Proof.Machine.execUnrecognized w s

end Sys2Proof.Machine
end

