-- ==== Sys2Proof/Machine/Step.lean ====
section
/-! DEFINITION. One step of the block (40_fsm.md R165), and the placing of an instruction where the next step fetches. -/

namespace Sys2Proof.Machine

/-- One `step()`: nothing while halted (R152); a fetch out of range halts (R153); the sentinel runs without the PC advance (R154), any other word after it (R155); then the instruction (R156) and, in a delay slot, the commit (R159). -/
def step (s : State) : Host.Outcome State Fault Refusal :=
  if s.running then
    match s.fetch with
    | none => .next s.halted
    | some w => finishStep s.pend (exec (decode w) (s.enter w))
  else .next s

/-- The state with the instruction whose bits are `w` stored in the word that the next step fetches (log 6). Every instruction is one word, so nothing follows it. -/
def State.withFetchWord (s : State) (nbits w : Nat) : State :=
  { s with mem := s.mem.writeWord s.fetchAddr (BitVec.ofNat 16 (w % 2 ^ nbits)) }

end Sys2Proof.Machine
end

