-- ==== Sys2Proof/Machine/Text.lean ====
section
/-! DEFINITION. Text as lists of characters: writing and reading numbers, names and operand lists, for the disassembler and the assembler (30_encoding.md R136, R140 to R142). -/

namespace Sys2Proof.Machine

/-- A line of text, character by character. -/
abbrev Text := List Char

/-- The characters of a literal. -/
def chars (s : String) : Text := s.toList

/-- The digit characters, upper case (30_encoding.md R136). -/
def digitChar (d : Nat) : Char := if d < 10 then Char.ofNat (48 + d) else Char.ofNat (55 + d)

/-- A number below `10 ^ fuel` in decimal, without leading zeros. -/
def decimalText : Nat → Nat → Text
  | 0, _ => []
  | fuel + 1, n => if n < 10 then [digitChar n] else decimalText fuel (n / 10) ++ [digitChar (n % 10)]

/-- A 16-bit number in decimal. -/
def natText (n : Nat) : Text := decimalText 5 n

/-- The four hexadecimal digits of a word (30_encoding.md R136). -/
def hexText (w : Word) : Text :=
  [digitChar (w.toNat / 4096), digitChar (w.toNat / 256 % 16), digitChar (w.toNat / 16 % 16), digitChar (w.toNat % 16)]

/-- A signed number: `-n`, or `n` after the given text (log 17). -/
def intText (plus : Text) (i : Int) : Text := if i < 0 then '-' :: natText i.natAbs else plus ++ natText i.natAbs

/-- The value of a digit character in a base up to 16, either case. -/
def digitValue (base : Nat) (c : Char) : Option Nat :=
  let v := if '0' ≤ c ∧ c ≤ '9' then c.toNat - 48
    else if 'A' ≤ c ∧ c ≤ 'F' then c.toNat - 55
    else if 'a' ≤ c ∧ c ≤ 'f' then c.toNat - 87 else 16
  if v < base then some v else none

/-- The digits of a number, most significant first, after those already read. -/
def digitsValue (base : Nat) : Nat → Text → Option Nat
  | acc, [] => some acc
  | acc, c :: rest =>
    match digitValue base c with
    | some v => digitsValue base (acc * base + v) rest
    | none => none

/-- At least one digit. -/
def numeral (base : Nat) : Text → Option Nat
  | [] => none
  | c :: rest => digitsValue base 0 (c :: rest)

/-- "`0x`-prefixed hex, or `$`-prefixed hex" (30_encoding.md R142); the `x` is lower case, the digits are of either case (DESIGN CHOICE, logs 27 and 18). -/
def parseHex : Text → Option Nat
  | '0' :: 'x' :: rest => numeral 16 rest
  | '$' :: rest => numeral 16 rest
  | _ => none

/-- "decimal, `0x`-prefixed hex, or `$`-prefixed hex" (30_encoding.md R142). -/
def parseNat (t : Text) : Option Nat :=
  match parseHex t with
  | some n => some n
  | none => numeral 10 t

/-- A number with an optional sign, for the signed fields (30_encoding.md R142, log 17). -/
def parseInt : Text → Option Int
  | '-' :: rest => (parseNat rest).map fun (n : Nat) => -(n : Int)
  | '+' :: rest => (parseNat rest).map fun (n : Nat) => (n : Int)
  | t => (parseNat t).map fun (n : Nat) => (n : Int)

/-- A blank between tokens: space, tab or carriage return, so a carriage return before the newline is dropped. The spec names no set of blanks (DESIGN CHOICE, log 27). -/
def isBlank (c : Char) : Bool := c == ' ' || c == '\t' || c == '\r'

/-- Without the blanks at the front. -/
def trimLeft : Text → Text
  | [] => []
  | c :: rest => if isBlank c then trimLeft rest else c :: rest

/-- Without the blanks at both ends. -/
def trim (t : Text) : Text := (trimLeft (trimLeft t).reverse).reverse

/-- The parts between the occurrences of a separator; there is always at least one. -/
def splitOn (sep : Char) : Text → List Text
  | [] => [[]]
  | c :: rest =>
    if c == sep then [] :: splitOn sep rest
    else
      match splitOn sep rest with
      | [] => [[c]]
      | part :: parts => (c :: part) :: parts

/-- The parts between the commas. -/
def splitCommas (t : Text) : List Text := splitOn ',' t

/-- The lines of a source text: "Source text is newline-delimited lines" (30_encoding.md R140). -/
def sourceLines (t : Text) : List Text := splitOn '\n' t

/-- The operand list: parts between commas, without the blanks around them; no text, no operand (DESIGN CHOICE, log 27). -/
def operandTexts (t : Text) : List Text :=
  if trim t = [] then [] else (splitCommas t).map trim

/-- The text up to the first blank, and what follows it: the first token of 30_encoding.md R141, with the blanks of log 27. -/
def splitFirstToken : Text → Text × Text
  | [] => ([], [])
  | c :: rest => if isBlank c then ([], rest) else (c :: (splitFirstToken rest).1, (splitFirstToken rest).2)

/-- The parts joined by `", "`. -/
def joinOperands : List Text → Text
  | [] => []
  | [t] => t
  | t :: rest => t ++ ',' :: ' ' :: joinOperands rest

/-- Upper case, for mnemonics and register names (30_encoding.md R141). -/
def upper (t : Text) : Text := t.map Char.toUpper

/-- The value a name stands for in a table. -/
def lookupName {α : Type} : List (Text × α) → Text → Option α
  | [], _ => none
  | (name, v) :: rest, t => if name = t then some v else lookupName rest t

end Sys2Proof.Machine
end

