-- ==== Sys2Proof/Machine/Disassembler.lean ====
section
/-! DEFINITION. The disassembler, a total function from a word (and optionally its own address) to text, in the spellings of 30_encoding.md R147 (R136, R137). -/

namespace Sys2Proof.Machine

/-- A source line: the mnemonic and its operands. -/
structure AsmLine where
  mnemonic : Text
  operands : List Text
  deriving DecidableEq, Repr

/-- `R0` to `R15`. -/
def regText (r : Reg) : Text := 'R' :: natText r.val

/-- `CS`, `DS`, `SS`, `ES`. -/
def segText : SegReg → Text
  | .cs => chars "CS" | .ds => chars "DS" | .ss => chars "SS" | .es => chars "ES"

/-- `APC`, `APSW`, `PSW`, `ACS`. -/
def smvSrcText : SmvSrc → Text
  | .apc => chars "APC" | .apsw => chars "APSW" | .psw => chars "PSW" | .acs => chars "ACS"

/-- An unsigned immediate in decimal. -/
def immText {n : Nat} (v : BitVec n) : Text := natText v.toNat

/-- A register or immediate operand. -/
def aluOperandText : AluOperand → Text
  | .reg rs => regText rs
  | .imm v => immText v

/-- The mnemonic of an ALU2 instruction: `.F` where the result is not written (30_encoding.md R147). -/
def aluName (name : String) (w : Bool) : Text := if w then chars name else chars name ++ chars ".F"

/-- A jump's operand: the signed offset, or the resolved target where the jump's own address is supplied (30_encoding.md R137). -/
def jumpText (address : Option Word) (off9 : BitVec 9) : Text :=
  match address with
  | none => intText ['+'] off9.toInt
  | some a => '0' :: 'x' :: hexText (a + 1 + off9.signExtend 16)

/-- LDS and STS name the seg field only where it is not 0 (30_encoding.md R147). -/
def segSuffix : SegReg → List Text
  | .cs => []
  | k => [segText k]

/-- The canonical source line of an instruction; nothing for the words without a spelling (30_encoding.md R132, R133, R147). -/
def asmLine (address : Option Word) (i : Instr) : Option AsmLine :=
  let line (m : Text) (ops : List Text) : Option AsmLine := some { mnemonic := m, operands := ops }
  let shift (m : String) (rd : Reg) (n : BitVec 3) := line (chars m) [regText rd, immText n]
  let jump (m : String) (off9 : BitVec 9) := line (chars m) [jumpText address off9]
  match i with
  | .halt => line (chars "HALT") []
  | .ldi imm15 => line (chars "LDI") [immText imm15]
  | .ld rd rb off5 => line (chars "LD") [regText rd, regText rb, immText off5]
  | .st rd rb off5 => line (chars "ST") [regText rd, regText rb, immText off5]
  | .add rd w b => line (aluName "ADD" w) [regText rd, aluOperandText b]
  | .sub rd w b => line (aluName "SUB" w) [regText rd, aluOperandText b]
  | .and rd w b => line (aluName "AND" w) [regText rd, aluOperandText b]
  | .or rd w b => line (aluName "OR" w) [regText rd, aluOperandText b]
  | .xor rd w b => line (aluName "XOR" w) [regText rd, aluOperandText b]
  | .mul rd w rs => line (aluName "MUL" w) [regText rd, regText rs]
  | .mulImm rd w v => line (aluName "MUL" w) [regText rd, immText v]
  | .mul32 rd w v => line (aluName "MUL32" w) [regText rd, immText v]
  | .div rd w rs => line (aluName "DIV" w) [regText rd, regText rs]
  | .divImm rd w v => line (aluName "DIV" w) [regText rd, immText v]
  | .div32 rd w v => line (aluName "DIV32" w) [regText rd, immText v]
  | .sl rd n => shift "SL" rd n
  | .slc rd n => shift "SLC" rd n
  | .sr rd n => shift "SR" rd n
  | .src rd n => shift "SRC" rd n
  | .sra rd n => shift "SRA" rd n
  | .sac rd n => shift "SAC" rd n
  | .ror rd n => shift "ROR" rd n
  | .roc rd n => shift "ROC" rd n
  | .jz off9 => jump "JZ" off9
  | .jnz off9 => jump "JNZ" off9
  | .jc off9 => jump "JC" off9
  | .jnc off9 => jump "JNC" off9
  | .jn off9 => jump "JN" off9
  | .jnn off9 => jump "JNN" off9
  | .jv off9 => jump "JV" off9
  | .jnv off9 => jump "JNV" off9
  | .lds seg rd rs => line (chars "LDS") ([regText rd, regText rs] ++ segSuffix seg)
  | .sts seg rd rs => line (chars "STS") ([regText rd, regText rs] ++ segSuffix seg)
  | .mov rd rs imm2 => line (chars "MOV") ([regText rd, regText rs] ++ if imm2 = 0 then [] else [immText imm2])
  | .lsi rd imm5 => line (chars "LSI") [regText rd, intText [] imm5.toInt]
  | .swb rx => line (chars "SWB") [regText rx]
  | .inv rx => line (chars "INV") [regText rx]
  | .neg rx => line (chars "NEG") [regText rx]
  | .jml rx => line (chars "JML") [regText rx]
  | .srs r => line (chars "SRS") [regText r]
  | .srd r => line (chars "SRD") [regText r]
  | .ers r => line (chars "ERS") [regText r]
  | .erd r => line (chars "ERD") [regText r]
  | .set m => line (chars "SET") [immText m]
  | .clr m => line (chars "CLR") [immText m]
  | .set2 m => line (chars "SET2") [immText m]
  | .clr2 m => line (chars "CLR2") [immText m]
  | .seti => line (chars "SETI") []
  | .clri => line (chars "CLRI") []
  | .mvsRead rd seg => line (chars "MVS") [regText rd, segText seg]
  | .mvsWrite rd seg => line (chars "MVS") [segText seg, regText rd]
  | .smv src rd => line (chars "SMV") [regText rd, smvSrcText src]
  | .nop => line (chars "NOP") []
  | .hlt => line (chars "HLT") []
  | .swi => line (chars "SWI") []
  | .reti => line (chars "RETI") []
  | .sopReserved _ _ => none
  | .sysReserved _ => none
  | .unrecognized _ => none

/-- A source line as text. -/
def AsmLine.text (l : AsmLine) : Text :=
  match l.operands with
  | [] => l.mnemonic
  | ops => l.mnemonic ++ ' ' :: joinOperands ops

/-- The placeholder `???(0xHHHH)` (30_encoding.md R136). -/
def placeholderText (w : Word) : Text := chars "???(0x" ++ hexText w ++ [')']

/-- The disassembler (30_encoding.md R136, R137). -/
def disassemble (address : Option Word) (w : Word) : Text :=
  match asmLine address (decode w) with
  | some l => l.text
  | none => placeholderText w

end Sys2Proof.Machine
end

