-- ==== Sys2Proof/Machine/Assembler.lean ====
section
/-! DEFINITION. The assembler as far as it fixes the encoding: one source line to one word, and the two passes over a source text (30_encoding.md R140 to R148). Error texts, listings and symbol records are out of scope (00_scope.md R4). -/

namespace Sys2Proof.Machine

/-- The register names `R0` to `R15` and the aliases of 30_encoding.md R141. -/
def regNames : List (Text × Reg) :=
  [(chars "R0", 0), (chars "R1", 1), (chars "R2", 2), (chars "R3", 3), (chars "R4", 4), (chars "R5", 5),
   (chars "R6", 6), (chars "R7", 7), (chars "R8", 8), (chars "R9", 9), (chars "R10", 10), (chars "R11", 11),
   (chars "R12", 12), (chars "R13", 13), (chars "R14", 14), (chars "R15", 15),
   (chars "FP", fpReg), (chars "SP", spReg), (chars "LR", lrReg), (chars "PC", pcReg)]

/-- The segment register names. -/
def segNames : List (Text × SegReg) :=
  [(chars "CS", .cs), (chars "DS", .ds), (chars "SS", .ss), (chars "ES", .es)]

/-- The SMV source names. -/
def smvSrcNames : List (Text × SmvSrc) :=
  [(chars "APC", .apc), (chars "APSW", .apsw), (chars "PSW", .psw), (chars "ACS", .acs)]

/-- A register operand, "case-insensitively" (30_encoding.md R141). -/
def parseReg (t : Text) : Option Reg := lookupName regNames (upper t)
/-- A segment register operand, in either case: R141 gives the case rule for the general registers only (DESIGN CHOICE, log 22). -/
def parseSeg (t : Text) : Option SegReg := lookupName segNames (upper t)
/-- An SMV source operand, in either case (DESIGN CHOICE, log 22). -/
def parseSmvSrc (t : Text) : Option SmvSrc := lookupName smvSrcNames (upper t)

/-- An unsigned immediate of `n` bits, range-checked (30_encoding.md R145). -/
def parseUnsigned (n : Nat) (t : Text) : Option (BitVec n) :=
  (parseNat t).bind fun v => if v < 2 ^ n then some (BitVec.ofNat n v) else none

/-- An exact integer as an `n`-bit two's complement field, range-checked (30_encoding.md R144, R145). -/
def signedField (n : Nat) (v : Int) : Option (BitVec n) :=
  if -(2 ^ (n - 1) : Int) ≤ v ∧ v < (2 ^ (n - 1) : Int) then some (BitVec.ofInt n v) else none

/-- A signed immediate of `n` bits. -/
def parseSigned (n : Nat) (t : Text) : Option (BitVec n) := (parseInt t).bind (signedField n)

/-- A register or a 4-bit immediate. -/
def parseAluOperand (t : Text) : Option AluOperand :=
  match parseReg t with
  | some rs => some (.reg rs)
  | none => (parseUnsigned 4 t).map .imm

/-- The field of a jump at `cursor` to a target address: `offset = target_address − (current_address + 1)`, range-checked (30_encoding.md R144). -/
def addressField (cursor target : Nat) : Option (BitVec 9) := signedField 9 ((target : Int) - ((cursor : Int) + 1))

/-- A jump's operand: a signed offset, or a target address, written as a label or in hexadecimal without a sign, as the disassembler writes it (30_encoding.md R137, R144; which numbers are addresses is log 25). -/
def parseJump (symbols : List (Text × Nat)) (cursor : Nat) (t : Text) : Option (BitVec 9) :=
  match parseHex t with
  | some target => addressField cursor target
  | none =>
    match parseInt t with
    | some v => signedField 9 v
    | none => (lookupName symbols t).bind (addressField cursor)

/-- The operand forms of the source lines of 30_encoding.md R147. -/
inductive Form where
  | plain (i : Instr)
  | alu (mk : Reg → AluOperand → Instr)
  /-- MUL and DIV: a register, or an immediate with an odd Rd. -/
  | aluOdd (mkReg : Reg → Reg → Instr) (mkImm : Reg → BitVec 4 → Instr)
  /-- MUL32 and DIV32: an even Rd and an immediate. -/
  | aluEven (mk : Reg → BitVec 4 → Instr)
  | shift (mk : Reg → BitVec 3 → Instr)
  | jump (mk : BitVec 9 → Instr)
  | based (mk : Reg → Reg → BitVec 5 → Instr)
  | direct (mk : SegReg → Reg → Reg → Instr)
  | ldi
  | mov
  | lsi
  | oneReg (mk : Reg → Instr)
  | mask (mk : BitVec 4 → Instr)
  | mvs
  | smv

/-- An ALU2 mnemonic, and with `.F` its form that writes no result (30_encoding.md R147). -/
def withFlagForm (name : Text) (mk : Bool → Form) : List (Text × Form) :=
  [(name, mk true), (name ++ chars ".F", mk false)]

/-- The ALU2 mnemonics but the shifts. -/
def aluForms : List (Text × Form) :=
  List.flatten
    [withFlagForm (chars "ADD") fun w => .alu fun rd b => .add rd w b,
     withFlagForm (chars "SUB") fun w => .alu fun rd b => .sub rd w b,
     withFlagForm (chars "AND") fun w => .alu fun rd b => .and rd w b,
     withFlagForm (chars "OR") fun w => .alu fun rd b => .or rd w b,
     withFlagForm (chars "XOR") fun w => .alu fun rd b => .xor rd w b,
     withFlagForm (chars "MUL") fun w => .aluOdd (fun rd rs => .mul rd w rs) (fun rd v => .mulImm rd w v),
     withFlagForm (chars "MUL32") fun w => .aluEven fun rd v => .mul32 rd w v,
     withFlagForm (chars "DIV") fun w => .aluOdd (fun rd rs => .div rd w rs) (fun rd v => .divImm rd w v),
     withFlagForm (chars "DIV32") fun w => .aluEven fun rd v => .div32 rd w v]

/-- The shifts and the conditional jumps. -/
def shiftJumpForms : List (Text × Form) :=
  [(chars "SL", .shift .sl), (chars "SLC", .shift .slc), (chars "SR", .shift .sr), (chars "SRC", .shift .src),
   (chars "SRA", .shift .sra), (chars "SAC", .shift .sac), (chars "ROR", .shift .ror), (chars "ROC", .shift .roc),
   (chars "JZ", .jump .jz), (chars "JNZ", .jump .jnz), (chars "JC", .jump .jc), (chars "JNC", .jump .jnc),
   (chars "JN", .jump .jn), (chars "JNN", .jump .jnn), (chars "JV", .jump .jv), (chars "JNV", .jump .jnv)]

/-- The moves, loads and stores. -/
def moveForms : List (Text × Form) :=
  [(chars "LDI", .ldi), (chars "LD", .based .ld), (chars "ST", .based .st), (chars "LDS", .direct .lds),
   (chars "STS", .direct .sts), (chars "MOV", .mov), (chars "LSI", .lsi), (chars "MVS", .mvs), (chars "SMV", .smv)]

/-- The single-register, special and system operations. -/
def specialForms : List (Text × Form) :=
  [(chars "SWB", .oneReg .swb), (chars "INV", .oneReg .inv), (chars "NEG", .oneReg .neg), (chars "JML", .oneReg .jml),
   (chars "SRS", .oneReg .srs), (chars "SRD", .oneReg .srd), (chars "ERS", .oneReg .ers), (chars "ERD", .oneReg .erd),
   (chars "SET", .mask .set), (chars "CLR", .mask .clr), (chars "SET2", .mask .set2), (chars "CLR2", .mask .clr2),
   (chars "SETI", .plain .seti), (chars "CLRI", .plain .clri), (chars "HALT", .plain .halt), (chars "NOP", .plain .nop),
   (chars "HLT", .plain .hlt), (chars "SWI", .plain .swi), (chars "RETI", .plain .reti)]

/-- The mnemonics and their forms (30_encoding.md R147). -/
def forms : List (Text × Form) := List.flatten [aluForms, shiftJumpForms, moveForms, specialForms]

/-- One operand. -/
def oneOperand {α : Type} (f : Text → Option α) : List Text → Option α
  | [t] => f t
  | _ => none

/-- Two operands. -/
def twoOperands {α β γ : Type} (f : Text → Option α) (g : Text → Option β) (k : α → β → Option γ) : List Text → Option γ
  | [t, u] => (f t).bind fun a => (g u).bind (k a)
  | _ => none

/-- Three operands. -/
def threeOperands {α β γ δ : Type} (f : Text → Option α) (g : Text → Option β) (h : Text → Option γ)
    (k : α → β → γ → δ) : List Text → Option δ
  | [t, u, v] => (f t).bind fun a => (g u).bind fun b => (h v).map (k a b)
  | _ => none

/-- MUL and DIV: a register operand, or an immediate with an odd Rd (30_encoding.md R117, R147). -/
def oddForm (mkReg : Reg → Reg → Instr) (mkImm : Reg → BitVec 4 → Instr) (rd : Reg) : AluOperand → Option Instr
  | .reg rs => some (mkReg rd rs)
  | .imm v => if isOdd rd then some (mkImm rd v) else none

/-- MVS: the order of the operands gives the direction (30_encoding.md R147). -/
def assembleMvs (ops : List Text) : Option Instr :=
  match twoOperands parseReg parseSeg (fun rd k => some (Instr.mvsRead rd k)) ops with
  | some i => some i
  | none => twoOperands parseSeg parseReg (fun k rd => some (Instr.mvsWrite rd k)) ops

/-- LDS and STS: the seg field is 0 where it is not named (30_encoding.md R147); a third operand CS, which R147 does not spell, is accepted as seg 0 (DESIGN CHOICE, log 23). -/
def assembleDirect (mk : SegReg → Reg → Reg → Instr) (ops : List Text) : Option Instr :=
  match twoOperands parseReg parseReg (fun rd rs => some (mk .cs rd rs)) ops with
  | some i => some i
  | none => threeOperands parseReg parseReg parseSeg (fun rd rs k => mk k rd rs) ops

/-- MOV: the immediate is 0 where it is not named (30_encoding.md R147); a third operand 0, which is not the canonical spelling, is accepted too (DESIGN CHOICE, log 23). -/
def assembleMov (ops : List Text) : Option Instr :=
  match twoOperands parseReg parseReg (fun rd rs => some (Instr.mov rd rs 0)) ops with
  | some i => some i
  | none => threeOperands parseReg parseReg (parseUnsigned 2) Instr.mov ops

/-- The instruction a form makes of its operands, if their number, kind and range fit (30_encoding.md R145, R147). -/
def Form.assemble (symbols : List (Text × Nat)) (cursor : Nat) (form : Form) (ops : List Text) : Option Instr :=
  match form with
  | .plain i => if ops = [] then some i else none
  | .alu mk => twoOperands parseReg parseAluOperand (fun rd b => some (mk rd b)) ops
  | .aluOdd mkReg mkImm => twoOperands parseReg parseAluOperand (oddForm mkReg mkImm) ops
  | .aluEven mk => twoOperands parseReg (parseUnsigned 4) (fun rd v => if isOdd rd then none else some (mk rd v)) ops
  | .shift mk => twoOperands parseReg (parseUnsigned 3) (fun rd n => some (mk rd n)) ops
  | .jump mk => oneOperand (fun t => (parseJump symbols cursor t).map mk) ops
  | .based mk => threeOperands parseReg parseReg (parseUnsigned 5) mk ops
  | .direct mk => assembleDirect mk ops
  | .ldi => oneOperand (fun t => (parseUnsigned 15 t).map .ldi) ops
  | .mov => assembleMov ops
  | .lsi => twoOperands parseReg (parseSigned 5) (fun rd v => some (.lsi rd v)) ops
  | .oneReg mk => oneOperand (fun t => (parseReg t).map mk) ops
  | .mask mk => oneOperand (fun t => (parseUnsigned 4 t).map mk) ops
  | .mvs => assembleMvs ops
  | .smv => twoOperands parseReg parseSmvSrc (fun rd src => some (.smv src rd)) ops

/-- The instruction of a source line: the mnemonic is "the uppercased first token" (30_encoding.md R141). -/
def parseInstr (symbols : List (Text × Nat)) (cursor : Nat) (line : Text) : Option Instr :=
  (lookupName forms (upper (splitFirstToken line).1)).bind fun f =>
    f.assemble symbols cursor (operandTexts (splitFirstToken line).2)

/-- The word of an instruction line without label or comment. -/
def assembleLine (symbols : List (Text × Nat)) (cursor : Nat) (line : Text) : Option Word :=
  (parseInstr symbols cursor line).map encode

/-! The two passes. -/

/-- Without the comment, which "begin[s] with `;`" and runs to the end of the line (30_encoding.md R140). -/
def stripComment : Text → Text
  | [] => []
  | c :: rest => if c == ';' then [] else c :: stripComment rest

/-- The labels of a line, each ended by a `:`, and what follows the last one, which is blank for "A line ending in `:`" (30_encoding.md R140, log 18). Any text may be a label (DESIGN CHOICE, log 27). -/
def splitLabels : Text → List Text × Text
  | [] => ([], [])
  | c :: rest =>
    if c == ':' then ([] :: (splitLabels rest).1, (splitLabels rest).2)
    else
      match splitLabels rest with
      | ([], item) => ([], c :: item)
      | (label :: labels, item) => ((c :: label) :: labels, item)

/-- What a line contributes (30_encoding.md R140). -/
inductive SourceItem where
  | blank
  | org (cursor : Nat)
  | words (values : List (Option Word))
  | instr (line : Text)
  /-- A `.org` without a value: it contributes nothing and is rejected. -/
  | bad
  deriving DecidableEq, Repr

/-- The item of a line without label and comment (30_encoding.md R140). The directives are read in either case, and their values are unsigned numbers, neither labels nor signed ones, without an upper bound for `.org` (DESIGN CHOICE, log 26). -/
def parseItem (t : Text) : SourceItem :=
  if t = [] then .blank
  else if upper (splitFirstToken t).1 = chars ".ORG" then
    match parseNat (trim (splitFirstToken t).2) with
    | some v => .org v
    | none => .bad
  else if upper (splitFirstToken t).1 = chars ".WORD" then
    .words ((operandTexts (splitFirstToken t).2).map (parseUnsigned 16))
  else .instr t

/-- A line: the labels it defines, and its item. -/
def parseLine (t : Text) : List Text × SourceItem :=
  ((splitLabels (stripComment t)).1.map trim, parseItem (trim (splitLabels (stripComment t)).2))

/-- The cursor after an item: one word per instruction line and one per `.word` value, the same in both passes (30_encoding.md R148). -/
def SourceItem.advance (cursor : Nat) : SourceItem → Nat
  | .blank => cursor
  | .org v => v
  | .words vs => cursor + vs.length
  | .instr _ => cursor + 1
  | .bad => cursor

/-- Pass 1: the labels and their addresses. -/
def pass1 : Nat → List Text → List (Text × Nat)
  | _, [] => []
  | cursor, t :: rest =>
    (parseLine t).1.map (fun label => (label, cursor)) ++ pass1 ((parseLine t).2.advance cursor) rest

/-- The writes of consecutive `.word` values; a value out of range writes nothing. -/
def wordWrites : Nat → List (Option Word) → List (Nat × Word)
  | _, [] => []
  | cursor, some v :: rest => (cursor, v) :: wordWrites (cursor + 1) rest
  | cursor, none :: rest => wordWrites (cursor + 1) rest

/-- The writes of one item; a line that does not assemble writes nothing and does not stop assembly (30_encoding.md R145). -/
def SourceItem.writes (symbols : List (Text × Nat)) (cursor : Nat) : SourceItem → List (Nat × Word)
  | .words vs => wordWrites cursor vs
  | .instr line =>
    match assembleLine symbols cursor line with
    | some w => [(cursor, w)]
    | none => []
  | .blank => []
  | .org _ => []
  | .bad => []

/-- Pass 2: the sparse (address, word) writes. -/
def pass2 (symbols : List (Text × Nat)) : Nat → List Text → List (Nat × Word)
  | _, [] => []
  | cursor, t :: rest =>
    (parseLine t).2.writes symbols cursor ++ pass2 symbols ((parseLine t).2.advance cursor) rest

/-- Both passes over the lines of a source text. -/
def assembleLines (lines : List Text) : List (Nat × Word) := pass2 (pass1 0 lines) 0 lines

/-- The assembler, from the source text to the writes `loadProgram` takes (30_encoding.md R140, R148; 70_reset_and_hazards.md R441). -/
def assemble (source : Text) : List (Nat × Word) := assembleLines (sourceLines source)

end Sys2Proof.Machine
end

