-- ==== Sys2Proof/Machine/HostOps.lean ====
section
/-! DEFINITION. What the host can do between two steps: `reset()`, `loadProgram(writes)`, `getState()` (40_fsm.md R151, 70_reset_and_hazards.md R440, R441). -/

namespace Sys2Proof.Machine

/-- One write of `loadProgram`; "A pair whose address exceeds `0xFFFFF` is ignored" (70_reset_and_hazards.md R441). -/
def Memory.loadWord (m : Memory) (w : Nat × Word) : Memory := if inRange w.1 then m.writeWord w.1 w.2 else m

/-- Memory after `loadProgram(writes)`: every word `0xFFFF`, then the writes in list order, then the ROM again (70_reset_and_hazards.md R441). -/
def Memory.load (rom : Vector Word 16) (writes : List (Nat × Word)) : Memory :=
  { writes.foldl Memory.loadWord (Memory.blank (Vector.replicate 16 Config.resetWord)) with top := rom }

/-- `loadProgram(writes)` on a machine whose autoload ROM is `rom`: no register, `pend` or `running` changes, and no store is reported (70_reset_and_hazards.md R441). -/
def State.loadProgramWith (rom : Vector Word 16) (s : State) (writes : List (Nat × Word)) : State :=
  { s with mem := Memory.load rom writes }

/-- `loadProgram(writes)` (70_reset_and_hazards.md R441). -/
def State.loadProgram (s : State) (writes : List (Nat × Word)) : State := s.loadProgramWith romImage writes

/-- `reset()` puts every piece of state at its reset value, whatever it was (70_reset_and_hazards.md R440). The reports the observer has already received are the observer's, so the history starts anew (log 7). -/
def State.hostReset (_ : State) : State := State.reset

/-- What `getState()` shows: everything but `pend` (40_fsm.md R151). -/
structure Snapshot where
  x : Vector Word 16
  cs : Word
  ds : Word
  ss : Word
  es : Word
  psw : Word
  pswShadow : Word
  pcShadow : Word
  csShadow : Word
  mem : Memory
  running : Bool
  deriving DecidableEq, Repr

/-- `getState()`; it changes nothing (40_fsm.md R151, 20_memory.md R87). -/
def State.snapshot (s : State) : Snapshot :=
  { x := s.x, cs := s.cs, ds := s.ds, ss := s.ss, es := s.es, psw := s.psw
    pswShadow := s.pswShadow, pcShadow := s.pcShadow, csShadow := s.csShadow
    mem := s.mem, running := s.running }

end Sys2Proof.Machine
end

