-- ==== Sys2Proof/Machine/Autoload.lean ====
section
/-! DEFINITION. The autoload ROM as the spec constrains it, and the machine that has it (70_reset_and_hazards.md R442; 92_eei_decisions.md D5; log 3). -/

namespace Sys2Proof.Machine

/-- The state a ROM leaves when the first program word is fetched (70_reset_and_hazards.md R442, the rows the source gives). -/
structure BootTable (s : State) : Prop where
  cs : s.cs = 0
  pc : s.pc = 0
  ds : s.ds = 0
  ss : s.ss = 0
  x1 : s.reg 1 = 0x0100
  stores : s.observed.length = 3
  running : s.running = true
  notPending : s.pend = none

/-- The next fetch is from one of the 16 ROM words. -/
def State.fetchesRom (s : State) : Bool := decide (Config.romBase ≤ s.fetchAddr) && inRange s.fetchAddr

/-- `n` steps lead from `s` to `t`, each of them fetched from the ROM region. -/
def RunsInRom : Nat → State → State → Prop
  | 0, s, t => s = t
  | n + 1, s, t => s.fetchesRom = true ∧ ∃ u, step s = .next u ∧ RunsInRom n u t

/-- The constraint on `AUTOLOAD_ROM`: from reset, "the ROM's execution ends with a JML whose commit leaves" the table (70_reset_and_hazards.md R442). The run stays in the ROM region; it reaches a JML outside a delay slot; the JML and its delay-slot instruction, whose step commits, leave the table. -/
def RomBoots (rom : Vector Word 16) : Prop :=
  ∃ (n : Nat) (u t : State) (w : Word) (rx : Reg),
    RunsInRom n (State.resetWith rom) u ∧
    u.pend = none ∧ u.fetch = some w ∧ decode w = .jml rx ∧
    RunsInRom 2 u t ∧ BootTable t

/-- An autoload ROM as the spec constrains it: 16 words with the proof that they boot (70_reset_and_hazards.md R442; 92_eei_decisions.md D5). -/
structure AutoloadRom where
  words : Vector Word 16
  boots : RomBoots words

/-- The state after reset of a machine with such a ROM (70_reset_and_hazards.md R440). -/
def AutoloadRom.reset (rom : AutoloadRom) : State := State.resetWith rom.words

/-- `loadProgram(writes)` on a machine with such a ROM: it is the ROM that is re-applied (70_reset_and_hazards.md R441). -/
def AutoloadRom.loadProgram (rom : AutoloadRom) (s : State) (writes : List (Nat × Word)) : State := s.loadProgramWith rom.words writes

/-- The machine with such a ROM: the same step, started from that ROM's reset state. `Sys2Proof.core` is this machine wherever `romImage` boots (log 3). -/
def AutoloadRom.machine (rom : AutoloadRom) : Host.Core := { Sys2Proof.core with reset := rom.reset }

end Sys2Proof.Machine
end

