-- ==== Sys2Proof/Safety.lean ====
section
/-! DEFINITION. What counts as a safe step and a safe run, in the terms the statements use. -/

namespace Sys2Proof.Machine

/-- One step answers a next state: neither a fault nor a refusal. -/
def SafeStep (s : State) : Prop := ∃ t, step s = .next t

/-- The states that `n` steps from `s` reach. -/
def RunsTo (n : Nat) (s t : State) : Prop := Sys2Proof.core.run n s = .next t

/-- `n` steps from `s` meet neither a fault nor a refusal. -/
def SafeRun (n : Nat) (s : State) : Prop := ∃ t, RunsTo n s t

end Sys2Proof.Machine
end

