-- ==== Sys2Proof/Certificates/Slice0/Obligations.lean ====
section
/-! DEFINITION. The statements for the provers, and the few predicates they are written with. -/

namespace Sys2Proof.Claims

open Sys2Proof.Machine

/-! Frames. The word is the only addressable unit of memory (20_memory.md R70), so a memory frame speaks of every word. -/

/-- Every word of memory reads as before, and no store is reported. -/
structure SameMemory (s t : State) : Prop where
  words : ∀ pa, t.mem.readWord pa = s.mem.readWord pa
  reports : t.observed = s.observed

/-- Memory after one store of `v` at `pa`: that word is `v`, every other word reads as before, and the store is reported once. -/
structure Stored (pa : Nat) (v : Word) (s t : State) : Prop where
  word : t.mem.readWord pa = v
  others : ∀ q, q ≠ pa → t.mem.readWord q = s.mem.readWord q
  report : t.observed = s.observed ++ [{ pa := pa, value := v }]

/-- The segment registers, the shadow registers, the pending transfer and `running` are as before. -/
structure SameControl (s t : State) : Prop where
  cs : t.cs = s.cs
  ds : t.ds = s.ds
  ss : t.ss = s.ss
  es : t.es = s.es
  pswShadow : t.pswShadow = s.pswShadow
  pcShadow : t.pcShadow = s.pcShadow
  csShadow : t.csShadow = s.csShadow
  pend : t.pend = s.pend
  running : t.running = s.running

/-- Every general register is as before. -/
def SameRegs (s t : State) : Prop := ∀ r, t.reg r = s.reg r

/-- Register `rd` holds `v` if it is written, every other register is as before. -/
def OneReg (s t : State) (rd : Reg) (written : Bool) (v : Word) : Prop :=
  ∀ r, t.reg r = if written = true ∧ r = rd then v else s.reg r

/-- N and Z from the low 16 bits of the raw result, V from the machine's open rule, C as given; PSW bits 15:4 as before (43_alu.md R221, R222, R224). -/
structure FlagsWithCarry (op : AluClass) (a b : Word) (raw : Int) (c : Bool) (s t : State) : Prop where
  n : pswN t.psw = decide (32768 ≤ raw % 65536)
  z : pswZ t.psw = decide (raw % 65536 = 0)
  v : pswV t.psw = Config.overflowRule op a b raw
  c : pswC t.psw = c
  high : t.psw.extractLsb' 4 12 = s.psw.extractLsb' 4 12

/-- The general flag law: C says whether the raw result left the unsigned 16-bit range (43_alu.md R223). -/
def FlagLaw (op : AluClass) (a b : Word) (raw : Int) (s t : State) : Prop :=
  FlagsWithCarry op a b raw (decide (raw < 0 ∨ 65535 < raw)) s t

/-- The outcome of an ALU-class instruction with one destination. -/
def AluOutcome (o : Host.Outcome State Fault Refusal) (op : AluClass) (rd : Reg) (written : Bool) (result : Word)
    (a b : Word) (raw : Int) (s : State) : Prop :=
  ∃ t, o = .next t ∧ OneReg s t rd written result ∧ FlagLaw op a b raw s t ∧ SameControl s t ∧ SameMemory s t

/-- The same with the carry given apart. -/
def CarryOutcome (o : Host.Outcome State Fault Refusal) (op : AluClass) (rd : Reg) (written : Bool) (result : Word)
    (a b : Word) (raw : Int) (c : Bool) (s : State) : Prop :=
  ∃ t, o = .next t ∧ OneReg s t rd written result ∧ FlagsWithCarry op a b raw c s t ∧ SameControl s t ∧ SameMemory s t

/-- The outcome of an instruction that writes one register and nothing else. -/
def MoveOutcome (o : Host.Outcome State Fault Refusal) (rd : Reg) (v : Word) (s : State) : Prop :=
  ∃ t, o = .next t ∧ OneReg s t rd true v ∧ t.psw = s.psw ∧ SameControl s t ∧ SameMemory s t

/-- The outcome of an instruction that writes the PSW only: bit `k` of the new PSW is `bit k`. -/
def PswOutcome (o : Host.Outcome State Fault Refusal) (bit : Nat → Bool) (s : State) : Prop :=
  ∃ t, o = .next t ∧ (∀ k, k < 16 → t.psw.getLsbD k = bit k) ∧ SameRegs s t ∧ SameControl s t ∧ SameMemory s t

/-- The value of the second operand of an ALU2 instruction (30_encoding.md R126). -/
def operandOf (s : State) : AluOperand → Word
  | .reg rs => s.reg rs
  | .imm v => BitVec.ofNat 16 v.toNat

/-! Steps. -/

/-- The running block fetches, in range, a word that decodes to `i`. -/
structure Fetches (s : State) (i : Instr) : Prop where
  running : s.running = true
  inRange : translateAddr s.cs s.pc ≤ 0xFFFFF
  decodes : decode (s.mem.readWord (translateAddr s.cs s.pc)) = i

/-- What follows an instruction that answered `t`, where the step began with the pending transfer `p`: in a delay slot that did not halt, the target PC and CS (40_fsm.md R159, R162). -/
def afterInstruction (p : Option Pending) (t : State) : State :=
  match p with
  | none => t
  | some q => if t.running then { t.setReg 15 q.targetPc with cs := q.targetCs.getD t.cs, pend := none } else t

/-- The outcome of a step from that of its instruction. -/
def afterOutcome (p : Option Pending) (o : Host.Outcome State Fault Refusal) : Host.Outcome State Fault Refusal :=
  match o with
  | .next t => .next (afterInstruction p t)
  | .fault f => .fault f
  | .refused r => .refused r

/-- The eight conditional jumps, each with the PSW bit it tests and the value it wants (45_jump.md R280; 30_encoding.md R118). -/
def jumps : List ((BitVec 9 → Instr) × (Word → Bool)) :=
  [(.jz, fun p => p.getLsbD 1), (.jnz, fun p => !p.getLsbD 1),
   (.jc, fun p => p.getLsbD 3), (.jnc, fun p => !p.getLsbD 3),
   (.jn, fun p => p.getLsbD 0), (.jnn, fun p => !p.getLsbD 0),
   (.jv, fun p => p.getLsbD 2), (.jnv, fun p => !p.getLsbD 2)]

/-- The target of a jump at `cursor` is a 16-bit address without a wrap (30_encoding.md R144; 45_jump.md R281). -/
def targetInRange (cursor : Nat) (off9 : BitVec 9) : Prop :=
  0 ≤ (cursor : Int) + 1 + off9.toInt ∧ (cursor : Int) + 1 + off9.toInt ≤ 0xFFFF

/-- A SWI is taken iff I = 1 (bit 4) and S = 0 (bit 5) (48_system.md R353). -/
def swiIsTaken (p : Word) : Bool := p.getLsbD 4 && !p.getLsbD 5

/-- Whether an instruction is a taken control transfer under the PSW `p` (40_fsm.md R161). -/
def IsTakenTransfer (p : Word) (i : Instr) : Prop :=
  (∃ j ∈ jumps, ∃ off9, i = j.1 off9 ∧ j.2 p = true) ∨ (∃ rx, i = .jml rx) ∨ (i = .swi ∧ swiIsTaken p = true)

/-- The target of a conditional jump executed with the advanced PC `pc` (45_jump.md R281). -/
def targetOf (pc : Word) (off9 : BitVec 9) : Word := BitVec.ofInt 16 ((pc.toNat : Int) + off9.toInt)

/-- The store an instruction makes, if it makes one: its address and word (42_load_store.md R202, R205). -/
def storeOf (s : State) : Instr → Option (Nat × Word)
  | .st rd rb off5 => if dataAddr s rb off5 ≤ 0xFFFFF then some (dataAddr s rb off5, s.reg rd) else none
  | .sts _ rd rs => some (directAddr s rs, s.reg rd)
  | _ => none

/-- Memory after an instruction that makes that store, or none. -/
def MemoryEffect (store : Option (Nat × Word)) (s t : State) : Prop :=
  match store with
  | some (pa, v) => Stored pa v s t
  | none => SameMemory s t

/-- The ALU-class instructions (43_alu.md R225). -/
def isAluClass : Instr → Bool
  | .add .. | .sub .. | .and .. | .or .. | .xor .. | .mul .. | .mulImm .. | .mul32 .. | .div .. | .divImm .. | .div32 .. => true
  | .sl .. | .slc .. | .sr .. | .src .. | .sra .. | .sac .. | .ror .. | .roc .. => true
  | .mov .. | .lsi .. | .ldi .. | .swb .. | .inv .. | .neg .. => true
  | _ => false

/-- SET and CLR, which write N, Z, V and C as PSW bits (46_sop.md R307, R308). -/
def writesFlagBits : Instr → Bool
  | .set _ | .clr _ => true
  | _ => false

/-- The other writers of the PSW (10_state.md R37). -/
def writesPswBits : Instr → Bool
  | .set2 _ | .clr2 _ | .seti | .clri | .srs _ | .srd _ | .ers _ | .erd _ | .swi | .reti => true
  | _ => false

/-- The general registers an instruction names as destinations; R15 as program counter is not among them unless the instruction names it. -/
def destinations : Instr → List Reg
  | .ldi _ => [0]
  | .ld rd _ _ | .lds _ rd _ | .mov rd _ _ | .lsi rd _ | .mvsRead rd _ | .smv _ rd => [rd]
  | .add rd _ _ | .sub rd _ _ | .and rd _ _ | .or rd _ _ | .xor rd _ _ | .mul rd _ _ | .mulImm rd _ _ | .div rd _ _ | .divImm rd _ _ => [rd]
  | .mul32 rd _ _ | .div32 rd _ _ => [rd, rd + 1]
  | .sl rd _ | .slc rd _ | .sr rd _ | .src rd _ | .sra rd _ | .sac rd _ | .ror rd _ | .roc rd _ => [rd]
  | .swb rx | .inv rx | .neg rx => [rx]
  | _ => []

/-- The words without an assigned meaning (30_encoding.md R132, R133). -/
def isUnassigned (w : Word) : Bool :=
  (0xFEC0 ≤ w.toNat && w.toNat ≤ 0xFEFF) || (0xFFC0 ≤ w.toNat && w.toNat ≤ 0xFFEF) || (0xFFF4 ≤ w.toNat && w.toNat ≤ 0xFFFE)

/-- The value of the last write to an address, if there is one (70_reset_and_hazards.md R441). -/
def lastWrite (writes : List (Nat × Word)) (pa : Nat) : Option Word :=
  (writes.reverse.find? fun w => w.1 == pa).map (·.2)

/-- The base register's index selects the register `sel`, or the pair `sel`, `sel + 1` when `dual` (42_load_store.md R200). -/
def Selects (sel : BitVec 4) (dual : Bool) (rb : Reg) : Prop :=
  rb.val = sel.toNat ∨ (dual = true ∧ rb.val = sel.toNat + 1)

end Sys2Proof.Claims

open Sys2Proof Sys2Proof.Machine Sys2Proof.Claims

/-! Decoding and encoding. -/

/-- Every well-formed instruction, of every family, is what its own word decodes to (30_encoding.md R100 to R135; the field codes are the spec's decisions D7 to D13, log 13; SETI and CLRI have terms of their own, log 12). -/
def Obligations.DecodeOfEncodeIsTheInstruction : Prop :=
  ∀ i : Instr, i.wellFormed = true → decode (encode i) = i

/-- The decoder is total and drops no bit: every one of the 65536 words decodes to a well-formed instruction whose word it is (30_encoding.md R101). -/
def Obligations.EncodeOfDecodeIsTheWord : Prop :=
  ∀ w : Word, (decode w).wellFormed = true ∧ encode (decode w) = w

/-- The prefix tree and the leading-ones priority encoder give every word the same class (30_encoding.md R102, which the spec derives from R101). -/
def Obligations.LeadingOnesGiveTheSameClass : Prop :=
  ∀ w : Word, classOf w = classByLeadingOnes w

/-- Words written out bit by bit from the formats, one of each class (30_encoding.md R101 to R115; the field codes are the spec's decisions D7 to D15, log 13). -/
def Obligations.WrittenOutWordsDecode : Prop :=
  decode 0b0111111111111111#16 = .ldi 0x7FFF ∧
  decode 0b1000001000000101#16 = .ld 1 0 5 ∧
  decode 0b1100000000100001#16 = .add 0 true (.reg 1) ∧
  decode 0b1101110001100001#16 = .sra 1 1 ∧
  decode 0b1110001111111010#16 = .jnz 0b111111010 ∧
  decode 0b1111010000010010#16 = .sts .cs 1 2 ∧
  decode 0b1111100011000010#16 = .mov 3 0 2 ∧
  decode 0b1111110001111111#16 = .lsi 3 0b11111 ∧
  decode 0b1111111000110010#16 = .jml 2 ∧
  decode 0b1111111101000101#16 = .mvsWrite 1 .ds ∧
  decode 0b1111111110100001#16 = .smv .psw 1 ∧
  decode 0b1111111111110010#16 = .swi ∧
  decode 0b1111111111000000#16 = .unrecognized 0xFFC0 ∧
  decode 0b1111111111111111#16 = .halt

/-- The text of every assigned word assembles to that word, at every address and whatever labels are defined: the text without an address, and the text with the address it is assembled at supplied, where a jump shows its resolved target. Only where a jump's target wraps in the 16-bit range does the text with the address not assemble, because the target is then out of the jump's range. No source line assembles to an unassigned word (30_encoding.md R137, R144, and R149, which the spec derives from R136 and R147; the text layout is log 17, the wrap is log 25). -/
def Obligations.DisassemblyReassembles : Prop :=
  (∀ (w : Word) (symbols : List (Text × Nat)) (cursor : Nat), isUnassigned w = false →
    assembleLine symbols cursor (disassemble none w) = some w ∧
    ((∀ j ∈ jumps, ∀ off9, decode w = j.1 off9 → targetInRange cursor off9) →
      assembleLine symbols cursor (disassemble (some (BitVec.ofNat 16 cursor)) w) = some w) ∧
    (∀ j ∈ jumps, ∀ off9, decode w = j.1 off9 → ¬ targetInRange cursor off9 →
      assembleLine symbols cursor (disassemble (some (BitVec.ofNat 16 cursor)) w) = none)) ∧
  (∀ (w : Word) (symbols : List (Text × Nat)) (cursor : Nat) (line : Text),
    assembleLine symbols cursor line = some w → isUnassigned w = false)

/-- The placeholder stands for the unassigned words and for no other (30_encoding.md R132, R133, R136; D33). -/
def Obligations.PlaceholderStandsForUnassignedWords : Prop :=
  ∀ (a : Option Word) (w : Word), disassemble a w = placeholderText w ↔ isUnassigned w = true

/-- With its own address supplied, a jump is rendered with the target the engine computes when it takes the jump from that address (30_encoding.md R137; the target's wrap is the spec's decision D29). -/
def Obligations.DisassembledTargetIsTheEnginesTarget : Prop :=
  ∀ j ∈ jumps, ∀ (off9 : BitVec 9) (a : Word) (s t : State) (p : Pending),
    s.pc = a + 1 → s.pend = none → exec (j.1 off9) s = .next t → t.pend = some p →
    ∃ l, asmLine (some a) (j.1 off9) = some l ∧ l.operands = [chars "0x" ++ hexText p.targetPc]

/-! The step. -/

/-- One step of the running block is `exec` of the decoded instruction, in the state with the PC advanced (the sentinel alone runs without the advance), followed in a delay slot by the commit (40_fsm.md R165; the commit in the same step is the spec's decision D25). -/
def Obligations.StepRunsTheDecodedInstruction : Prop :=
  ∀ (s : State) (w : Word), s.running = true → translateAddr s.cs s.pc ≤ 0xFFFFF →
    s.mem.readWord (translateAddr s.cs s.pc) = w →
    step s = afterOutcome s.pend (exec (decode w) (if w = 0xFFFF#16 then s else s.setReg 15 (s.reg 15 + 1)))

/-- The steps that execute nothing: halted, a fetch out of range, the sentinel. Nothing but `running` changes (40_fsm.md R152, R153, R154; the spec's decisions D31, D32). -/
def Obligations.StepsThatExecuteNothing : Prop :=
  (∀ s : State, s.running = false → step s = .next s) ∧
  (∀ s : State, s.running = true → 0xFFFFF < translateAddr s.cs s.pc → step s = .next { s with running := false }) ∧
  (∀ s : State, s.running = true → translateAddr s.cs s.pc ≤ 0xFFFFF →
    s.mem.readWord (translateAddr s.cs s.pc) = 0xFFFF#16 → step s = .next { s with running := false })

/-- A step is refused exactly for JML with an odd register and for a taken transfer in a delay slot (40_fsm.md R161, 45_jump.md R290; D27, D28; log 8, 9, 10). -/
def Obligations.StepRefusalsAreExactlyTheTwo : Prop :=
  ∀ (s : State) (r : Refusal), step s = .refused r ↔
    ∃ i, Fetches s i ∧
      ((r = .jmlOddRegister ∧ ∃ rx : Reg, i = .jml rx ∧ rx.val % 2 = 1) ∨
       (r = .branchInDelaySlot ∧ s.pend ≠ none ∧ IsTakenTransfer s.psw i ∧ ∀ rx : Reg, i = .jml rx → rx.val % 2 = 0))

/-- No step answers a fault: "The core itself never throws/panics during normal operation" (40_fsm.md R164, 60_exceptions.md R400). -/
def Obligations.StepNeverFaults : Prop :=
  ∀ (s : State) (f : Fault), step s ≠ .fault f

/-- In a delay slot: an instruction that did not halt is followed by the target PC, the target CS if there is one, and no pending transfer; one that halted leaves the transfer pending (40_fsm.md R159, R162; the spec's decisions D25, D31). -/
def Obligations.DelaySlotEndsWithTheCommit : Prop :=
  ∀ (s t : State) (p : Pending), s.running = true → s.pend = some p → step s = .next t →
    (t.running = true → t.pc = p.targetPc ∧ (∀ c, p.targetCs = some c → t.cs = c) ∧ t.pend = none) ∧
    (t.running = false → t.pend = some p)

/-- A transfer becomes pending only through a taken conditional jump or a JML with an even register, with the target that instruction names; the step advances the PC and keeps CS (40_fsm.md R158, 45_jump.md R281, R290; D26, D28). -/
def Obligations.PendingIsSetOnlyByATakenTransfer : Prop :=
  ∀ (s t : State) (p : Pending), s.pend = none → step s = .next t → t.pend = some p →
    ∃ i, Fetches s i ∧ t.pc = s.pc + 1 ∧ t.cs = s.cs ∧
      ((∃ j ∈ jumps, ∃ off9, i = j.1 off9 ∧ j.2 s.psw = true ∧ p = { targetPc := targetOf (s.pc + 1) off9, targetCs := none }) ∨
       (∃ rx : Reg, i = .jml rx ∧ rx.val % 2 = 0 ∧
         p = { targetPc := s.advancePc.reg (rx + 1), targetCs := some (s.advancePc.reg rx) }))

/-- After a taken transfer exactly one further instruction executes, fetched at the next offset of the same CS; then the target takes effect (40_fsm.md R166, which the spec derives from R158 and R159). -/
def Obligations.ExactlyOneDelaySlotInstruction : Prop :=
  ∀ (s t u : State) (p : Pending), s.pend = none → step s = .next t → t.pend = some p →
    step t = .next u → u.running = true →
    t.running = true ∧ translateAddr t.cs t.pc = translateAddr s.cs (s.pc + 1) ∧
    u.pc = p.targetPc ∧ (∀ c, p.targetCs = some c → u.cs = c) ∧ u.pend = none

/-- While `running` is true a step executes the one instruction it fetches; once false a step does nothing. It is cleared by HLT, by fetching `0xFFFF` and by a fetch outside the address range, and by nothing else; no step sets it. The snapshot shows it, and `step()` returns it (10_state.md R44; the commit in the same step is the spec's decision D25, the PC and the pending transfer at a halt its decision D31, log 14). -/
def Obligations.RunningIsClearedExactlyByTheThreeHalts : Prop :=
  (∀ s t : State, step s = .next t →
    (s.running = false → t = s) ∧
    (s.running = true → (t.running = false ↔
      (0xFFFFF < translateAddr s.cs s.pc ∨
       (translateAddr s.cs s.pc ≤ 0xFFFFF ∧ s.mem.readWord (translateAddr s.cs s.pc) = 0xFFFF#16) ∨
       Fetches s .hlt))) ∧
    (s.running = true → 0xFFFFF < translateAddr s.cs s.pc ∨
      ∃ i u, Fetches s i ∧ exec i (s.enter (s.mem.readWord (translateAddr s.cs s.pc))) = .next u ∧ t = afterInstruction s.pend u) ∧
    stepReturns (step s) = some t.running) ∧
  (∀ s : State, s.snapshot.running = s.running)

/-! Invariants and whole-machine rules. -/

/-- Every step keeps memory in its canonical form (the model's representation, log 5). -/
def Obligations.StepKeepsMemoryCanonical : Prop :=
  ∀ s t : State, s.mem.wf = true → step s = .next t → t.mem.wf = true

/-- Memory at reset is in canonical form, whatever the ROM (log 5). -/
def Obligations.ResetMemoryIsCanonical : Prop :=
  ∀ rom : Vector Word 16, (State.resetWith rom).mem.wf = true ∧ State.reset.mem.wf = true

/-- Two canonical memories with the same 1,048,576 words are the same data (log 5). -/
def Obligations.CanonicalMemoriesWithEqualWordsAreEqual : Prop :=
  ∀ m n : Memory, m.wf = true → n.wf = true → (∀ pa, pa ≤ 0xFFFFF → m.readWord pa = n.readWord pa) → m = n

/-- PSW' is written only by a taken SWI, which copies the whole PSW into it; PC' and CS' are written by no step, so they keep their reset value for ever (10_state.md R40). -/
def Obligations.ShadowRegistersAreWrittenByATakenSwiOnly : Prop :=
  (∀ s t : State, step s = .next t →
    t.pcShadow = s.pcShadow ∧ t.csShadow = s.csShadow ∧
    ((Fetches s .swi ∧ swiIsTaken s.psw = true ∧ t.pswShadow = s.psw) ∨
     (¬ (Fetches s .swi ∧ swiIsTaken s.psw = true) ∧ t.pswShadow = s.pswShadow))) ∧
  (∀ (n : Nat) (t : State), RunsTo n State.reset t →
    t.pcShadow = State.reset.pcShadow ∧ t.csShadow = State.reset.csShadow)

/-- A step changes memory only by the store of its instruction, at the address the instruction computes, and the observer is told of exactly that store (20_memory.md R74, R78; 42_load_store.md R202, R205; D38). -/
def Obligations.MemoryIsWrittenByStoresOnly : Prop :=
  ∀ (s t : State) (i : Instr), s.mem.wf = true → Fetches s i → step s = .next t →
    MemoryEffect (storeOf s.advancePc i) s t

/-- The PSW changes only through the writers of 10_state.md R37; an ALU-class instruction keeps bits 15:4, and N, Z, V, C change only through an ALU-class instruction, SET or CLR (R37, R38; that the live PSW is meant whatever S is, is the spec's decision D34). -/
def Obligations.PswIsWrittenOnlyByItsWriters : Prop :=
  ∀ (s t : State) (i : Instr), Fetches s i → step s = .next t →
    (isAluClass i = false → writesFlagBits i = false → writesPswBits i = false → t.psw = s.psw) ∧
    (isAluClass i = true → t.psw.extractLsb' 4 12 = s.psw.extractLsb' 4 12) ∧
    (isAluClass i = false → writesFlagBits i = false → t.psw.extractLsb' 0 4 = s.psw.extractLsb' 0 4)

/-- DS, SS and ES change only through MVS; CS changes only through MVS, a taken SWI, or the commit of a transfer that names a CS (10_state.md R42; the spec's decisions D29, D30, D35). -/
def Obligations.SegmentRegistersAreWrittenOnlyByTheirWriters : Prop :=
  ∀ (s t : State) (i : Instr), Fetches s i → step s = .next t →
    (t.ds ≠ s.ds → ∃ rd, i = .mvsWrite rd .ds) ∧
    (t.ss ≠ s.ss → ∃ rd, i = .mvsWrite rd .ss) ∧
    (t.es ≠ s.es → ∃ rd, i = .mvsWrite rd .es) ∧
    (t.cs ≠ s.cs → (∃ rd, i = .mvsWrite rd .cs) ∨ (i = .swi ∧ swiIsTaken s.psw = true) ∨
      ∃ p c, s.pend = some p ∧ p.targetCs = some c ∧ t.cs = c)

/-- A step changes no general register but R15 and the destinations of its instruction (10_state.md R30, R31: no register has a hidden role). -/
def Obligations.RegistersAreWrittenOnlyAsDestinations : Prop :=
  ∀ (s t : State) (i : Instr) (r : Reg), Fetches s i → step s = .next t →
    r ≠ 15 → r ∉ destinations i → t.reg r = s.reg r

/-! Addresses and memory. -/

/-- The segment of an LD or ST: SS if the base register is the selected stack register (or the second of the dual pair), else ES by the extra selector, else DS; and the address is 16 times that segment plus the offset sum reduced modulo 2^16 (42_load_store.md R200, R201; the precedence and the pair without wrap are the spec's decision D18). -/
def Obligations.DataAddressFollowsTheSelectors : Prop :=
  ∀ (s : State) (rb : Reg) (off5 : BitVec 5),
    (Selects (s.psw.extractLsb' 6 4) (s.psw.getLsbD 10) rb →
      dataAddr s rb off5 = s.ss.toNat * 16 + ((s.reg rb).toNat + off5.toNat) % 65536) ∧
    (¬ Selects (s.psw.extractLsb' 6 4) (s.psw.getLsbD 10) rb → Selects (s.psw.extractLsb' 11 4) (s.psw.getLsbD 15) rb →
      dataAddr s rb off5 = s.es.toNat * 16 + ((s.reg rb).toNat + off5.toNat) % 65536) ∧
    (¬ Selects (s.psw.extractLsb' 6 4) (s.psw.getLsbD 10) rb → ¬ Selects (s.psw.extractLsb' 11 4) (s.psw.getLsbD 15) rb →
      dataAddr s rb off5 = s.ds.toNat * 16 + ((s.reg rb).toNat + off5.toNat) % 65536)

/-- The translator's sum is not wrapped: it reaches at most `0x10FFEF`, and it can be out of range only with a segment of `0xF001` or above (20_memory.md R71, R72, 42_load_store.md R201; the spec's decision D2). -/
def Obligations.TranslationIsNotWrapped : Prop :=
  ∀ segval off : Word, translateAddr segval off = segval.toNat * 16 + off.toNat ∧ translateAddr segval off ≤ 0x10FFEF ∧
    (inRange (translateAddr segval off) = true ↔ translateAddr segval off ≤ 0xFFFFF) ∧
    (0xFFFFF < translateAddr segval off → 0xF001 ≤ segval.toNat)

/-- LD: in range, Rd receives the word at the segmented address and nothing else changes; out of range nothing changes (42_load_store.md R201; the skip is the spec's decision D37). -/
def Obligations.LoadEffect : Prop :=
  ∀ (rd rb : Reg) (off5 : BitVec 5) (s : State),
    (dataAddr s rb off5 ≤ 0xFFFFF → MoveOutcome (exec (.ld rd rb off5) s) rd (s.mem.readWord (dataAddr s rb off5)) s) ∧
    (0xFFFFF < dataAddr s rb off5 → exec (.ld rd rb off5) s = .next s)

/-- ST: in range, the word at the segmented address becomes the value of Rd and the store is reported; out of range nothing changes and nothing is reported (42_load_store.md R202; the skip and the report are the spec's decisions D37, D38). -/
def Obligations.StoreEffect : Prop :=
  ∀ (rd rb : Reg) (off5 : BitVec 5) (s : State), s.mem.wf = true →
    (dataAddr s rb off5 ≤ 0xFFFFF →
      ∃ t, exec (.st rd rb off5) s = .next t ∧ Stored (dataAddr s rb off5) (s.reg rd) s t ∧
        SameRegs s t ∧ t.psw = s.psw ∧ SameControl s t) ∧
    (0xFFFFF < dataAddr s rb off5 → exec (.st rd rb off5) s = .next s)

/-- LDS and STS: the word at the physical address in Rs, whatever the seg field; always in range; STS is reported to the observer (42_load_store.md R203 to R205; the observer's arguments are the spec's decision D38, the history of reports is log 7). -/
def Obligations.DirectLoadAndStoreEffect : Prop :=
  ∀ (seg : SegReg) (rd rs : Reg) (s : State), directAddr s rs = (s.reg rs).toNat ∧ directAddr s rs ≤ 0xFFFF ∧
    MoveOutcome (exec (.lds seg rd rs) s) rd (s.mem.readWord (directAddr s rs)) s ∧
    (s.mem.wf = true → ∃ t, exec (.sts seg rd rs) s = .next t ∧ Stored (directAddr s rs) (s.reg rd) s t ∧
      SameRegs s t ∧ t.psw = s.psw ∧ SameControl s t)

/-- A store is seen by the very next fetch: if the step that stores leaves the next fetch address at the stored word, that fetch reads the stored value (20_memory.md R85, 70_reset_and_hazards.md R453; the spec's decision D39). -/
def Obligations.StoreIsSeenByTheNextFetch : Prop :=
  ∀ (s t : State) (i : Instr) (pa : Nat) (v : Word), s.mem.wf = true → Fetches s i →
    storeOf s.advancePc i = some (pa, v) → step s = .next t → translateAddr t.cs t.pc = pa →
    t.fetch = some v

/-! Immediate loads and moves. -/

/-- LDI, the words `0iii iiii iiii iiii`: R0 becomes the zero-extended immediate; N = 0, Z = 1 iff the immediate is 0, C = 0, V as the machine's rule gives it, which is 0 under the rule the spec names as default (41_ldi_mov_lsi.md R180). -/
def Obligations.LoadImmediateEffect : Prop :=
  ∀ (imm15 : BitVec 15) (s : State),
    decode (0b0#1 ++ imm15) = .ldi imm15 ∧
    Config.defaultOverflow .ldi 0 0 imm15.toNat = false ∧
    ∃ t, exec (.ldi imm15) s = .next t ∧ OneReg s t 0 true (BitVec.ofNat 16 imm15.toNat) ∧
      pswN t.psw = false ∧ pswZ t.psw = decide (imm15 = 0) ∧ pswC t.psw = false ∧
      pswV t.psw = Config.overflowRule .ldi 0 0 imm15.toNat ∧
      t.psw.extractLsb' 4 12 = s.psw.extractLsb' 4 12 ∧ SameControl s t ∧ SameMemory s t

/-- MOV: Rd becomes Rs plus the immediate; C is the carry out of the sum (41_ldi_mov_lsi.md R181; the operands given to the V rule are log 11). -/
def Obligations.MoveEffect : Prop :=
  ∀ (rd rs : Reg) (imm2 : BitVec 2) (s : State),
    AluOutcome (exec (.mov rd rs imm2) s) .mov rd true (s.reg rs + BitVec.ofNat 16 imm2.toNat)
      (s.reg rs) (BitVec.ofNat 16 imm2.toNat) ((s.reg rs).toNat + imm2.toNat) s

/-- LSI: Rd becomes the sign-extended immediate; a negative one sets C (41_ldi_mov_lsi.md R182; the raw result is the spec's decision D19). -/
def Obligations.LoadShortImmediateEffect : Prop :=
  ∀ (rd : Reg) (imm5 : BitVec 5) (s : State),
    AluOutcome (exec (.lsi rd imm5) s) .lsi rd true (imm5.signExtend 16) 0 0 imm5.toInt s

/-! ALU2. -/

/-- ADD and SUB: the wrapped sum and difference, written only with w = 1; C is the carry out (the sum exceeds `0xFFFF`) and the borrow (`x[Rd] < b`) (43_alu.md R227, R228). -/
def Obligations.AddAndSubtractEffect : Prop :=
  ∀ (rd : Reg) (w : Bool) (b : AluOperand) (s : State),
    CarryOutcome (exec (.add rd w b) s) .add rd w (s.reg rd + operandOf s b) (s.reg rd) (operandOf s b)
      ((s.reg rd).toNat + (operandOf s b).toNat) (decide (65535 < (s.reg rd).toNat + (operandOf s b).toNat)) s ∧
    CarryOutcome (exec (.sub rd w b) s) .sub rd w (s.reg rd - operandOf s b) (s.reg rd) (operandOf s b)
      ((s.reg rd).toNat - (operandOf s b).toNat) (decide ((s.reg rd).toNat < (operandOf s b).toNat)) s

/-- AND, OR and XOR: the bitwise results, written only with w = 1, with C = 0; under the rule the spec names as default V would be N (43_alu.md R229 to R231). -/
def Obligations.LogicEffect : Prop :=
  (∀ (rd : Reg) (w : Bool) (b : AluOperand) (s : State),
    CarryOutcome (exec (.and rd w b) s) .and rd w (s.reg rd &&& operandOf s b) (s.reg rd) (operandOf s b)
      (s.reg rd &&& operandOf s b).toNat false s ∧
    CarryOutcome (exec (.or rd w b) s) .or rd w (s.reg rd ||| operandOf s b) (s.reg rd) (operandOf s b)
      (s.reg rd ||| operandOf s b).toNat false s ∧
    CarryOutcome (exec (.xor rd w b) s) .xor rd w (s.reg rd ^^^ operandOf s b) (s.reg rd) (operandOf s b)
      (s.reg rd ^^^ operandOf s b).toNat false s) ∧
  (∀ (op : AluClass) (a b result : Word), Config.defaultOverflow op a b result.toNat = result.msb)

/-- MUL, both forms: the low word of the unsigned product, C where the product exceeds 16 bits (43_alu.md R232; the spec's decision D23). -/
def Obligations.MultiplyEffect : Prop :=
  ∀ (rd rs : Reg) (w : Bool) (imm4 : BitVec 4) (s : State),
    AluOutcome (exec (.mul rd w rs) s) .mul rd w (s.reg rd * s.reg rs) (s.reg rd) (s.reg rs)
      ((s.reg rd).toNat * (s.reg rs).toNat) s ∧
    AluOutcome (exec (.mulImm rd w imm4) s) .mul rd w (s.reg rd * BitVec.ofNat 16 imm4.toNat) (s.reg rd) (BitVec.ofNat 16 imm4.toNat)
      ((s.reg rd).toNat * imm4.toNat) s

/-- MUL32 with its even Rd: with w = 1 the high word goes to Rd and the low word to Rd + 1, and no other register changes; flags from the exact product (43_alu.md R233; the spec's decision D23). -/
def Obligations.WideMultiplyEffect : Prop :=
  ∀ (rd : Reg) (w : Bool) (imm4 : BitVec 4) (s : State), rd.val % 2 = 0 →
    ∃ t, exec (.mul32 rd w imm4) s = .next t ∧
      (w = true → (t.reg rd).toNat = (s.reg rd).toNat * imm4.toNat / 65536 ∧
        (t.reg (rd + 1)).toNat = (s.reg rd).toNat * imm4.toNat % 65536) ∧
      (∀ r, w = false ∨ (r ≠ rd ∧ r ≠ rd + 1) → t.reg r = s.reg r) ∧
      FlagLaw .mul32 (s.reg rd) (BitVec.ofNat 16 imm4.toNat) ((s.reg rd).toNat * imm4.toNat) s t ∧
      SameControl s t ∧ SameMemory s t

/-- DIV, both forms: the truncated unsigned quotient, `0xFFFF` for a zero divisor; C = 0 (43_alu.md R234; the spec's decision D23). -/
def Obligations.DivideEffect : Prop :=
  ∀ (rd rs : Reg) (w : Bool) (imm4 : BitVec 4) (s : State),
    AluOutcome (exec (.div rd w rs) s) .div rd w
      (BitVec.ofNat 16 (if s.reg rs = 0 then 65535 else (s.reg rd).toNat / (s.reg rs).toNat)) (s.reg rd) (s.reg rs)
      (if s.reg rs = 0 then 65535 else (s.reg rd).toNat / (s.reg rs).toNat : Nat) s ∧
    AluOutcome (exec (.divImm rd w imm4) s) .div rd w
      (BitVec.ofNat 16 (if imm4 = 0 then 65535 else (s.reg rd).toNat / imm4.toNat)) (s.reg rd) (BitVec.ofNat 16 imm4.toNat)
      (if imm4 = 0 then 65535 else (s.reg rd).toNat / imm4.toNat : Nat) s

/-- DIV32 with its even Rd: with w = 1 the quotient goes to Rd and the remainder to Rd + 1; for a zero divisor the quotient is `0xFFFF` and the remainder the machine's open value `DIV0_REM`, whatever it is (43_alu.md R235; the spec's decisions D23, D24; log 2). -/
def Obligations.DivideWithRemainderEffect : Prop :=
  ∀ (rd : Reg) (w : Bool) (imm4 : BitVec 4) (s : State), rd.val % 2 = 0 →
    ∃ t, exec (.div32 rd w imm4) s = .next t ∧
      (w = true → imm4 ≠ 0 → (t.reg rd).toNat = (s.reg rd).toNat / imm4.toNat ∧
        (t.reg (rd + 1)).toNat = (s.reg rd).toNat % imm4.toNat) ∧
      (w = true → imm4 = 0 → t.reg rd = 0xFFFF#16 ∧ t.reg (rd + 1) = Config.div0Rem (s.reg rd) 0) ∧
      (∀ r, w = false ∨ (r ≠ rd ∧ r ≠ rd + 1) → t.reg r = s.reg r) ∧
      FlagLaw .div32 (s.reg rd) (BitVec.ofNat 16 imm4.toNat)
        (if imm4 = 0 then 65535 else (s.reg rd).toNat / imm4.toNat : Nat) s t ∧
      SameControl s t ∧ SameMemory s t

/-! Shifts. -/

/-- SL and SLC: the left shift with zeros below; SL's C says whether a 1 bit was lost, SLC's is the last bit shifted out, kept for count 0 (44_shift.md R260 to R263; the spec's decisions D14, D19, D21, D22). -/
def Obligations.ShiftLeftEffect : Prop :=
  ∀ (rd : Reg) (count : BitVec 3) (s : State),
    AluOutcome (exec (.sl rd count) s) .sl rd true (s.reg rd <<< count.toNat) (s.reg rd) (BitVec.ofNat 16 count.toNat)
      ((s.reg rd).toNat * 2 ^ count.toNat) s ∧
    CarryOutcome (exec (.slc rd count) s) .slc rd true (s.reg rd <<< count.toNat) (s.reg rd) (BitVec.ofNat 16 count.toNat)
      ((s.reg rd).toNat * 2 ^ count.toNat)
      (if count = 0 then s.psw.getLsbD 3 else (s.reg rd).getLsbD (16 - count.toNat)) s

/-- SR and SRC: the logical right shift; SR has C = 0, SRC's C is the last bit shifted out, kept for count 0 (44_shift.md R260, R261, R264, R265; the spec's decisions D14, D21, D22). -/
def Obligations.ShiftRightEffect : Prop :=
  ∀ (rd : Reg) (count : BitVec 3) (s : State),
    AluOutcome (exec (.sr rd count) s) .sr rd true (s.reg rd >>> count.toNat) (s.reg rd) (BitVec.ofNat 16 count.toNat)
      (s.reg rd >>> count.toNat).toNat s ∧
    CarryOutcome (exec (.src rd count) s) .src rd true (s.reg rd >>> count.toNat) (s.reg rd) (BitVec.ofNat 16 count.toNat)
      (s.reg rd >>> count.toNat).toNat
      (if count = 0 then s.psw.getLsbD 3 else (s.reg rd).getLsbD (count.toNat - 1)) s

/-- SRA and SAC: the arithmetic right shift, which replicates the sign bit (44_shift.md R260, R261, R266, R267; the spec's decisions D14, D21). -/
def Obligations.ShiftRightArithmeticEffect : Prop :=
  ∀ (rd : Reg) (count : BitVec 3) (s : State),
    AluOutcome (exec (.sra rd count) s) .sra rd true ((s.reg rd).sshiftRight count.toNat) (s.reg rd) (BitVec.ofNat 16 count.toNat)
      ((s.reg rd).sshiftRight count.toNat).toNat s ∧
    CarryOutcome (exec (.sac rd count) s) .sac rd true ((s.reg rd).sshiftRight count.toNat) (s.reg rd) (BitVec.ofNat 16 count.toNat)
      ((s.reg rd).sshiftRight count.toNat).toNat
      (if count = 0 then s.psw.getLsbD 3 else (s.reg rd).getLsbD (count.toNat - 1)) s

/-- ROR rotates the word right; ROC rotates the 17-bit value C:a right, and the bit that reaches position 16 is the new C (44_shift.md R260, R261, R268, R269; the direction and the carries are the spec's decisions D21, D22). -/
def Obligations.RotateEffect : Prop :=
  ∀ (rd : Reg) (count : BitVec 3) (s : State),
    AluOutcome (exec (.ror rd count) s) .ror rd true ((s.reg rd).rotateRight count.toNat) (s.reg rd) (BitVec.ofNat 16 count.toNat)
      ((s.reg rd).rotateRight count.toNat).toNat s ∧
    CarryOutcome (exec (.roc rd count) s) .roc rd true
      (((BitVec.ofBool (s.psw.getLsbD 3) ++ s.reg rd).rotateRight count.toNat).extractLsb' 0 16)
      (s.reg rd) (BitVec.ofNat 16 count.toNat)
      (((BitVec.ofBool (s.psw.getLsbD 3) ++ s.reg rd).rotateRight count.toNat).extractLsb' 0 16).toNat
      (((BitVec.ofBool (s.psw.getLsbD 3) ++ s.reg rd).rotateRight count.toNat).getLsbD 16) s

/-! Control transfer. -/

/-- JZ, JNZ, JC, JNC, JN, JNN, JV, JNV: not taken, nothing changes; taken outside a delay slot, only the pending transfer changes, its target relative to the advanced PC and in the current CS (45_jump.md R280 to R289; the spec's decisions D8, D26, D29). -/
def Obligations.ConditionalJumpEffect : Prop :=
  ∀ j ∈ jumps, ∀ (off9 : BitVec 9) (s : State),
    (j.2 s.psw = false → exec (j.1 off9) s = .next s) ∧
    (j.2 s.psw = true → s.pend = none →
      exec (j.1 off9) s = .next { s with pend := some { targetPc := targetOf (s.reg 15) off9, targetCs := none } })

/-- JML with an even register outside a delay slot: only the pending transfer changes; its CS is `x[Rx]` and its PC `x[Rx+1]`, read now. With an odd register it is refused (45_jump.md R290; the spec's decision D28; log 9). -/
def Obligations.FarJumpEffect : Prop :=
  ∀ (rx : Reg) (s : State),
    (rx.val % 2 = 0 → s.pend = none →
      exec (.jml rx) s = .next { s with pend := some { targetPc := s.reg (rx + 1), targetCs := some (s.reg rx) } }) ∧
    (rx.val % 2 = 1 → exec (.jml rx) s = .refused .jmlOddRegister)

/-- In a delay slot every taken transfer is refused: the eight jumps where their condition holds, JML with an even register, SWI where it is taken (40_fsm.md R161; the spec's decision D27; log 8). -/
def Obligations.TransferInADelaySlotIsRefused : Prop :=
  ∀ (s : State) (p : Pending), s.pend = some p →
    (∀ j ∈ jumps, ∀ off9 : BitVec 9, j.2 s.psw = true → exec (j.1 off9) s = .refused .branchInDelaySlot) ∧
    (∀ rx : Reg, rx.val % 2 = 0 → exec (.jml rx) s = .refused .branchInDelaySlot) ∧
    (swiIsTaken s.psw = true → exec .swi s = .refused .branchInDelaySlot)

/-! Single-register and special operations. -/

/-- SWB swaps the two bytes, INV complements all bits, NEG computes the two's complement; the raw results are those of 43_alu.md R220 (46_sop.md R300 to R302; the spec's decision D19; the second operand given to the V rule is log 11). -/
def Obligations.SwapInvertNegateEffect : Prop :=
  ∀ (rx : Reg) (s : State),
    AluOutcome (exec (.swb rx) s) .swb rx true ((s.reg rx).extractLsb' 0 8 ++ (s.reg rx).extractLsb' 8 8) (s.reg rx) 0
      ((s.reg rx).toNat % 256 * 256 + (s.reg rx).toNat / 256) s ∧
    AluOutcome (exec (.inv rx) s) .inv rx true (~~~ s.reg rx) (s.reg rx) 0 (65535 - (s.reg rx).toNat) s ∧
    AluOutcome (exec (.neg rx) s) .neg rx true (- s.reg rx) (s.reg rx) 0 (-(s.reg rx).toNat) s

/-- SRS and SRD store the register index in PSW bits 9:6 and clear or set bit 10; ERS and ERD store it in bits 14:11 and clear or set bit 15; every other PSW bit keeps its value (46_sop.md R303 to R306; the spec's decisions D16, D17). -/
def Obligations.SelectorEffect : Prop :=
  ∀ (r : Reg) (s : State),
    PswOutcome (exec (.srs r) s) (fun k => if 6 ≤ k ∧ k ≤ 9 then r.val.testBit (k - 6) else if k = 10 then false else s.psw.getLsbD k) s ∧
    PswOutcome (exec (.srd r) s) (fun k => if 6 ≤ k ∧ k ≤ 9 then r.val.testBit (k - 6) else if k = 10 then true else s.psw.getLsbD k) s ∧
    PswOutcome (exec (.ers r) s) (fun k => if 11 ≤ k ∧ k ≤ 14 then r.val.testBit (k - 11) else if k = 15 then false else s.psw.getLsbD k) s ∧
    PswOutcome (exec (.erd r) s) (fun k => if 11 ≤ k ∧ k ≤ 14 then r.val.testBit (k - 11) else if k = 15 then true else s.psw.getLsbD k) s

/-- SET and CLR act on PSW bits 3:0, SET2 and CLR2 on bits 7:4, by the mask in the field; SETI and CLRI set and clear bit 4; every other bit keeps its value (46_sop.md R307 to R310, 30_encoding.md R146; the spec's decision D16). -/
def Obligations.PswBitEffect : Prop :=
  ∀ (m : BitVec 4) (s : State),
    PswOutcome (exec (.set m) s) (fun k => s.psw.getLsbD k || m.getLsbD k) s ∧
    PswOutcome (exec (.clr m) s) (fun k => s.psw.getLsbD k && !m.getLsbD k) s ∧
    PswOutcome (exec (.set2 m) s) (fun k => s.psw.getLsbD k || (decide (4 ≤ k) && m.getLsbD (k - 4))) s ∧
    PswOutcome (exec (.clr2 m) s) (fun k => s.psw.getLsbD k && !(decide (4 ≤ k) && m.getLsbD (k - 4))) s ∧
    PswOutcome (exec .seti s) (fun k => s.psw.getLsbD k || decide (k = 4)) s ∧
    PswOutcome (exec .clri s) (fun k => s.psw.getLsbD k && !decide (k = 4)) s

/-! Segment and context moves. -/

/-- MVS read: the segment register goes to Rd. MVS write: Rd goes to that segment register; the other three, the registers, the PSW and memory keep their values (47_segment_context.md R330, R331; the codes and the polarity are the spec's decisions D12, D15). -/
def Obligations.SegmentMoveEffect : Prop :=
  ∀ (rd : Reg) (k : SegReg) (s : State),
    MoveOutcome (exec (.mvsRead rd k) s) rd (match k with | .cs => s.cs | .ds => s.ds | .ss => s.ss | .es => s.es) s ∧
    ∃ t, exec (.mvsWrite rd k) s = .next t ∧
      t.cs = (if k = .cs then s.reg rd else s.cs) ∧ t.ds = (if k = .ds then s.reg rd else s.ds) ∧
      t.ss = (if k = .ss then s.reg rd else s.ss) ∧ t.es = (if k = .es then s.reg rd else s.es) ∧
      SameRegs s t ∧ t.psw = s.psw ∧ SameControl { s with cs := t.cs, ds := t.ds, ss := t.ss, es := t.es } t ∧ SameMemory s t

/-- SMV: with S = 0, APC, APSW and ACS read the shadow registers and PSW the live PSW; with S = 1, APC, APSW and ACS read the live PC, PSW and CS and PSW reads PSW' (47_segment_context.md R332; the codes are the spec's decision D13). -/
def Obligations.ContextMoveEffect : Prop :=
  ∀ (rd : Reg) (s : State),
    MoveOutcome (exec (.smv .apc rd) s) rd (if s.psw.getLsbD 5 then s.reg 15 else s.pcShadow) s ∧
    MoveOutcome (exec (.smv .apsw rd) s) rd (if s.psw.getLsbD 5 then s.psw else s.pswShadow) s ∧
    MoveOutcome (exec (.smv .psw rd) s) rd (if s.psw.getLsbD 5 then s.pswShadow else s.psw) s ∧
    MoveOutcome (exec (.smv .acs rd) s) rd (if s.psw.getLsbD 5 then s.cs else s.csShadow) s

/-! System operations. -/

/-- NOP, the unassigned SOP types and sysOps, and every unrecognized word change nothing (48_system.md R351, R355, 46_sop.md R311, 30_encoding.md R132; the unassigned codes are the spec's decision D33). -/
def Obligations.NoOperationEffect : Prop :=
  ∀ (s : State) (t op : BitVec 2) (rx : BitVec 4) (w : Word),
    exec .nop s = .next s ∧ exec (.sopReserved t rx) s = .next s ∧
    exec (.sysReserved op) s = .next s ∧ exec (.unrecognized w) s = .next s

/-- HALT and HLT clear `running` and change nothing else; a step that fetches HLT ends after the PC advance, with a pending transfer uncommitted (48_system.md R350, R352, 40_fsm.md R162; the spec's decision D31). -/
def Obligations.HaltEffect : Prop :=
  (∀ s : State, exec .halt s = .next { s with running := false } ∧ exec .hlt s = .next { s with running := false }) ∧
  (∀ s : State, Fetches s .hlt → step s = .next { s.setReg 15 (s.reg 15 + 1) with running := false })

/-- SWI. Taken (I = 1, S = 0) outside a delay slot: the whole PSW goes to PSW', I becomes 0 and S 1, CS becomes 0 and R15 4, and nothing else changes, PC' and CS' included. Ignored (I = 0 or S = 1): nothing changes (48_system.md R353, 60_exceptions.md R404; the immediate transfer is the spec's decision D35). -/
def Obligations.SoftwareInterruptEffect : Prop :=
  ∀ s : State,
    (swiIsTaken s.psw = false → exec .swi s = .next s) ∧
    (swiIsTaken s.psw = true → s.pend = none →
      ∃ t, exec .swi s = .next t ∧ t.pswShadow = s.psw ∧
        (∀ k, k < 16 → t.psw.getLsbD k = if k = 4 then false else if k = 5 then true else s.psw.getLsbD k) ∧
        t.cs = 0x0000#16 ∧ OneReg s t 15 true 0x0004#16 ∧
        SameControl { s with cs := t.cs, pswShadow := t.pswShadow } t ∧ SameMemory s t)

/-- RETI, the word `0xFFF3`, clears PSW bit 5 (S) and changes nothing else: I, the flags, PSW', PC and CS keep their values (48_system.md R354). -/
def Obligations.ReturnFromInterruptEffect : Prop :=
  decode 0xFFF3#16 = .reti ∧
  ∀ s : State, PswOutcome (exec .reti s) (fun k => if k = 5 then false else s.psw.getLsbD k) s

/-- A SWI executed right after a taken SWI, and one executed right after the RETI that follows, is ignored and changes nothing (60_exceptions.md R406, which the spec derives from R353 and R354). -/
def Obligations.TrapsDoNotNest : Prop :=
  ∀ s t : State, exec .swi s = .next t → swiIsTaken s.psw = true →
    exec .swi t = .next t ∧ ∃ u, exec .reti t = .next u ∧ exec .swi u = .next u

/-! Reset and loading. -/

/-- The state right after reset: every register, the PSW and the shadow registers 0 but CS = `0xFFFF`, no pending transfer, running, no report; every word below the ROM `0xFFFF`, then the ROM; the first fetch is the first ROM word (10_state.md R47, 70_reset_and_hazards.md R440; the register values are the spec's decision D4, log 4; the ROM's words are open, log 3). -/
def Obligations.ResetState : Prop :=
  (∀ r, State.reset.reg r = 0x0000#16) ∧ State.reset.cs = 0xFFFF#16 ∧ State.reset.ds = 0x0000#16 ∧
  State.reset.ss = 0x0000#16 ∧ State.reset.es = 0x0000#16 ∧ State.reset.psw = 0x0000#16 ∧
  State.reset.pswShadow = 0x0000#16 ∧ State.reset.pcShadow = 0x0000#16 ∧ State.reset.csShadow = 0x0000#16 ∧
  State.reset.pend = none ∧ State.reset.running = true ∧ State.reset.observed = [] ∧
  (∀ pa, pa < 0xFFFF0 → State.reset.mem.readWord pa = 0xFFFF#16) ∧
  (∀ k : Fin 16, State.reset.mem.readWord (0xFFFF0 + k.val) = Config.autoloadRom k) ∧
  translateAddr State.reset.cs State.reset.pc = 0xFFFF0

/-- `loadProgram`, whatever the machine's ROM: every word below the ROM is the last write to it, or `0xFFFF`; the ROM is the ROM again; no register, flag, pending transfer or `running` changes and nothing is reported (70_reset_and_hazards.md R441; the spec's decision D43). -/
def Obligations.LoadProgramEffect : Prop :=
  (∀ (rom : Vector Word 16) (s : State) (writes : List (Nat × Word)),
    (∀ pa, pa < 0xFFFF0 → (s.loadProgramWith rom writes).mem.readWord pa = (lastWrite writes pa).getD 0xFFFF#16) ∧
    (∀ k : Fin 16, (s.loadProgramWith rom writes).mem.readWord (0xFFFF0 + k.val) = rom[k]) ∧
    SameRegs s (s.loadProgramWith rom writes) ∧ (s.loadProgramWith rom writes).psw = s.psw ∧
    SameControl s (s.loadProgramWith rom writes) ∧ (s.loadProgramWith rom writes).observed = s.observed) ∧
  (∀ (s : State) (writes : List (Nat × Word)), s.loadProgram writes = s.loadProgramWith romImage writes ∧
    ∀ k : Fin 16, (s.loadProgram writes).mem.readWord (0xFFFF0 + k.val) = Config.autoloadRom k)

/-- A ROM that the spec allows brings its machine from reset to the program: a run from reset ends with the first fetch at physical word 0 and the table of R442; and then every word that was not reported as stored, of which there are at most three, still reads as at reset (70_reset_and_hazards.md R442; the constraint is the spec's decision D5; that the run stays in the ROM region is log 3). -/
def Obligations.AllowedRomReachesTheProgram : Prop :=
  ∀ rom : AutoloadRom, ∃ (n : Nat) (t : State), rom.machine.run n rom.machine.reset = .next t ∧ BootTable t ∧ t.fetchAddr = 0 ∧
    ∀ pa, (∀ r ∈ t.observed, r.pa ≠ pa) → t.mem.readWord pa = rom.reset.mem.readWord pa

/-- The assembler resolves a target address exactly, as a label or in hexadecimal: the jump's offset is the address less the address after the jump, and the line is rejected where that does not fit −256 to 255 (30_encoding.md R144; that a hexadecimal number is an address is log 25). -/
def Obligations.JumpTargetsResolveExactly : Prop :=
  ∀ (symbols : List (Text × Nat)) (cursor target : Nat) (t : Text),
    (parseHex t = some target ∨ (parseHex t = none ∧ parseInt t = none ∧ lookupName symbols t = some target)) →
    ((-256 ≤ (target : Int) - (cursor + 1) ∧ (target : Int) - (cursor + 1) ≤ 255) →
      ∃ off9, parseJump symbols cursor t = some off9 ∧ off9.toInt = (target : Int) - (cursor + 1)) ∧
    (¬ (-256 ≤ (target : Int) - (cursor + 1) ∧ (target : Int) - (cursor + 1) ≤ 255) → parseJump symbols cursor t = none)
end

