-- ==== Sys2Proof/Laws/Boot.lean ====
section
/-! SUPPORT. Runs in the ROM region, as runs of the machine, and their composition. -/

namespace Sys2Proof.Machine

/-- A run in the ROM is a run. -/
theorem RunsInRom.runsTo {n : Nat} {s t : State} (h : RunsInRom n s t) : RunsTo n s t := by
  induction n generalizing s with
  | zero => cases h; rfl
  | succ n ih =>
    obtain ⟨-, u, hu, hrest⟩ := h
    have hrun : RunsTo n u t := ih hrest
    unfold RunsTo at hrun ⊢
    have hstep : Sys2Proof.core.step s = .next u := hu
    simp only [Host.Core.run, hstep]
    exact hrun

/-- Two runs in the ROM, one after the other. -/
theorem RunsInRom.trans {m n : Nat} {s t u : State} (h : RunsInRom m s t) (h' : RunsInRom n t u) : RunsInRom (m + n) s u := by
  induction m generalizing s with
  | zero => cases h; simpa using h'
  | succ m ih =>
    obtain ⟨hr, v, hv, hrest⟩ := h
    rw [Nat.succ_add]
    exact ⟨hr, v, hv, ih hrest⟩

/-- The machine with a ROM that the spec allows is the row's machine, if the ROM's words are that machine's own. -/
theorem AutoloadRom.machine_eq_core (rom : AutoloadRom) (h : rom.words = romImage) : rom.machine = Sys2Proof.core := by
  unfold AutoloadRom.machine AutoloadRom.reset
  rw [h]
  rfl

/-- A run in the ROM by evaluation. -/
def runInRom : Nat → State → Option State
  | 0, s => some s
  | n + 1, s =>
    if s.fetchesRom then
      match step s with
      | .next u => runInRom n u
      | .fault _ => none
      | .refused _ => none
    else none

theorem runInRom_some {n : Nat} {s t : State} (h : runInRom n s = some t) : RunsInRom n s t := by
  induction n generalizing s with
  | zero => simpa [runInRom, RunsInRom] using h
  | succ n ih =>
    unfold runInRom at h
    by_cases hr : s.fetchesRom = true
    · rw [if_pos hr] at h
      cases hs : step s with
      | next u => rw [hs] at h; exact ⟨hr, u, hs, ih h⟩
      | fault f => rw [hs] at h; cases h
      | refused r => rw [hs] at h; cases h
    · rw [if_neg hr] at h
      cases h

/-- Where the evaluation answers, its answer is reached. -/
theorem runsInRom_getD {n : Nat} {s : State} (h : (runInRom n s).isSome = true) : RunsInRom n s ((runInRom n s).getD s) := by
  obtain ⟨t, ht⟩ := Option.isSome_iff_exists.mp h
  rw [ht]
  exact runInRom_some ht

/-- Whatever every step keeps, a run in the ROM keeps. -/
theorem RunsInRom.keeps {P : State → Prop} (hP : ∀ s t, P s → step s = .next t → P t) {n : Nat} {s t : State}
    (h : RunsInRom n s t) (hs : P s) : P t := by
  induction n generalizing s with
  | zero => cases h; exact hs
  | succ n ih =>
    obtain ⟨-, u, hu, hrest⟩ := h
    exact ih hrest (hP s u hs hu)

end Sys2Proof.Machine
end

