-- ==== Sys2Proof/Laws/Flags.lean ====
section
/-! SUPPORT. What each writer of the PSW leaves in each field, and what the flag functions say of a raw result. -/

namespace Sys2Proof.Machine

/-! `pswWithFlags` (43_alu.md R221). -/

theorem getLsbD_pswWithFlags (p : Word) (n z v c : Bool) (k : Nat) :
    (pswWithFlags p n z v c).getLsbD k =
      if k = 0 then n else if k = 1 then z else if k = 2 then v else if k = 3 then c else p.getLsbD k := by
  unfold pswWithFlags
  simp only [BitVec.getLsbD_append, BitVec.getLsbD_extractLsb', BitVec.getLsbD_ofBool]
  by_cases h0 : k = 0
  · subst h0; simp
  by_cases h1 : k = 1
  · subst h1; simp
  by_cases h2 : k = 2
  · subst h2; simp
  by_cases h3 : k = 3
  · subst h3; simp
  have a : ¬ k < 1 := by omega
  have b : ¬ k - 1 < 1 := by omega
  have c : ¬ k - 1 - 1 < 1 := by omega
  have d : ¬ k - 1 - 1 - 1 < 1 := by omega
  by_cases h : k < 16
  · have e : k - 1 - 1 - 1 - 1 < 12 := by omega
    have f : 4 + (k - 1 - 1 - 1 - 1) = k := by omega
    simp [h0, h1, h2, h3, a, b, c, d, e, f]
  · have e : ¬ k - 1 - 1 - 1 - 1 < 12 := by omega
    have f : p.getLsbD k = false := BitVec.getLsbD_of_ge _ _ (by omega)
    simp [h0, h1, h2, h3, a, b, c, d, e, f]

@[simp] theorem pswN_pswWithFlags (p : Word) (n z v c : Bool) : pswN (pswWithFlags p n z v c) = n := by
  unfold pswN
  rw [getLsbD_pswWithFlags]
  simp
@[simp] theorem pswZ_pswWithFlags (p : Word) (n z v c : Bool) : pswZ (pswWithFlags p n z v c) = z := by
  unfold pswZ
  rw [getLsbD_pswWithFlags]
  simp
@[simp] theorem pswV_pswWithFlags (p : Word) (n z v c : Bool) : pswV (pswWithFlags p n z v c) = v := by
  unfold pswV
  rw [getLsbD_pswWithFlags]
  simp
@[simp] theorem pswC_pswWithFlags (p : Word) (n z v c : Bool) : pswC (pswWithFlags p n z v c) = c := by
  unfold pswC
  rw [getLsbD_pswWithFlags]
  simp

/-- Bits 15:4 keep their values. -/
@[simp] theorem pswWithFlags_high (p : Word) (n z v c : Bool) :
    (pswWithFlags p n z v c).extractLsb' 4 12 = p.extractLsb' 4 12 := by
  apply BitVec.eq_of_getLsbD_eq
  intro k hk
  rw [BitVec.getLsbD_extractLsb', BitVec.getLsbD_extractLsb', getLsbD_pswWithFlags]
  simp only [hk, decide_true, Bool.true_and]
  rw [if_neg (by omega), if_neg (by omega), if_neg (by omega), if_neg (by omega)]

/-! The selectors (46_sop.md R303 to R306). -/

theorem getLsbD_pswWithStack (p : Word) (r : Reg) (dual : Bool) (k : Nat) :
    (pswWithStack p r dual).getLsbD k =
      if k < 6 then p.getLsbD k else if k < 10 then r.val.testBit (k - 6) else if k = 10 then dual else p.getLsbD k := by
  unfold pswWithStack
  simp only [BitVec.getLsbD_append, BitVec.getLsbD_extractLsb', BitVec.getLsbD_ofNat, BitVec.getLsbD_ofBool]
  by_cases h6 : k < 6
  · simp [h6]
  by_cases h10 : k < 10
  · have : k - 6 < 4 := by omega
    simp [h6, h10, this]
  by_cases h11 : k = 10
  · subst h11; simp
  · have a : ¬ k - 6 < 4 := by omega
    have b : ¬ k - 6 - 4 < 1 := by omega
    by_cases h16 : k < 16
    · have c : k - 6 - 4 - 1 < 5 := by omega
      have d : 11 + (k - 6 - 4 - 1) = k := by omega
      simp [h6, h10, h11, a, b, c, d]
    · have c : ¬ k - 6 - 4 - 1 < 5 := by omega
      have e : p.getLsbD k = false := BitVec.getLsbD_of_ge _ _ (by omega)
      simp [h6, h10, h11, a, b, c, e]

theorem getLsbD_pswWithExtra (p : Word) (r : Reg) (dual : Bool) (k : Nat) :
    (pswWithExtra p r dual).getLsbD k =
      if k < 11 then p.getLsbD k else if k < 15 then r.val.testBit (k - 11) else if k = 15 then dual else false := by
  unfold pswWithExtra
  simp only [BitVec.getLsbD_append, BitVec.getLsbD_extractLsb', BitVec.getLsbD_ofNat, BitVec.getLsbD_ofBool]
  by_cases h11 : k < 11
  · simp [h11]
  by_cases h15 : k < 15
  · have : k - 11 < 4 := by omega
    simp [h11, h15, this]
  · have a : ¬ k - 11 < 4 := by omega
    by_cases h : k = 15
    · subst h; simp
    · have b : ¬ k - 11 - 4 = 0 := by omega
      simp [h11, h15, h, a, b]

/-! The masks (46_sop.md R307 to R310) and the view bits (60_exceptions.md R404, R405). -/

theorem getLsbD_pswSetLow (p : Word) (m : BitVec 4) (k : Nat) :
    (pswSetLow p m).getLsbD k = (p.getLsbD k || m.getLsbD k) := by
  by_cases h : k < 16
  · simp [pswSetLow, h]
  · have e : m.getLsbD k = false := BitVec.getLsbD_of_ge _ _ (by omega)
    simp [pswSetLow, h, e]

theorem getLsbD_pswClearLow (p : Word) (m : BitVec 4) (k : Nat) :
    (pswClearLow p m).getLsbD k = (p.getLsbD k && !m.getLsbD k) := by
  by_cases h : k < 16
  · simp [pswClearLow, h]
  · have e : p.getLsbD k = false := BitVec.getLsbD_of_ge _ _ (by omega)
    simp [pswClearLow, e]

theorem getLsbD_pswSetHigh (p : Word) (m : BitVec 4) (k : Nat) :
    (pswSetHigh p m).getLsbD k = (p.getLsbD k || (decide (4 ≤ k) && m.getLsbD (k - 4))) := by
  by_cases h : k < 16
  · by_cases h4 : k < 4
    · have : ¬ 4 ≤ k := by omega
      simp [pswSetHigh, h4, this]
    · have a : 4 ≤ k := by omega
      simp [pswSetHigh, h, h4, a]
  · have e : m.getLsbD (k - 4) = false := BitVec.getLsbD_of_ge _ _ (by omega)
    simp [pswSetHigh, h, e]

theorem getLsbD_pswClearHigh (p : Word) (m : BitVec 4) (k : Nat) :
    (pswClearHigh p m).getLsbD k = (p.getLsbD k && !(decide (4 ≤ k) && m.getLsbD (k - 4))) := by
  by_cases h : k < 16
  · by_cases h4 : k < 4
    · have : ¬ 4 ≤ k := by omega
      simp [pswClearHigh, h, h4, this]
    · have a : 4 ≤ k := by omega
      simp [pswClearHigh, h, h4, a]
  · have e : p.getLsbD k = false := BitVec.getLsbD_of_ge _ _ (by omega)
    simp [pswClearHigh, e]

theorem getLsbD_pswWithView (p : Word) (sv iv : Bool) (k : Nat) :
    (pswWithView p sv iv).getLsbD k = if k = 4 then iv else if k = 5 then sv else p.getLsbD k := by
  unfold pswWithView
  simp only [BitVec.getLsbD_append, BitVec.getLsbD_extractLsb', BitVec.getLsbD_ofBool]
  by_cases h4 : k < 4
  · have a : k ≠ 4 := by omega
    have b : k ≠ 5 := by omega
    simp [h4, a, b]
  by_cases a : k = 4
  · subst a; simp
  by_cases b : k = 5
  · subst b; simp
  · have c : ¬ k - 4 < 1 := by omega
    have d : ¬ k - 4 - 1 < 1 := by omega
    by_cases h16 : k < 16
    · have e : k - 4 - 1 - 1 < 10 := by omega
      have f : 6 + (k - 4 - 1 - 1) = k := by omega
      simp [h4, a, b, c, d, e, f]
    · have e : ¬ k - 4 - 1 - 1 < 10 := by omega
      have f : p.getLsbD k = false := BitVec.getLsbD_of_ge _ _ (by omega)
      simp [h4, a, b, c, d, e, f]

@[simp] theorem pswS_pswWithView (p : Word) (sv iv : Bool) : pswS (pswWithView p sv iv) = sv := by
  unfold pswS
  rw [getLsbD_pswWithView]
  simp
@[simp] theorem pswI_pswWithView (p : Word) (sv iv : Bool) : pswI (pswWithView p sv iv) = iv := by
  unfold pswI
  rw [getLsbD_pswWithView]
  simp

/-! The flags of a raw result (43_alu.md R222). -/

theorem toNat_mod16 (n : Int) : ((mod16 n).toNat : Int) = n % 65536 := by
  have : (0 : Int) ≤ n % 65536 := by omega
  simp only [mod16, BitVec.toNat_ofInt]
  simp [Int.toNat_of_nonneg this]

/-- A word is what its own number reduces to. -/
@[simp] theorem mod16_toNat (w : Word) : mod16 (w.toNat : Int) = w := by
  apply BitVec.eq_of_toNat_eq
  have h := toNat_mod16 (w.toNat : Int)
  have hw := w.isLt
  omega

theorem negativeOf_iff (raw : Int) : negativeOf raw = decide (32768 ≤ raw % 65536) := by
  have h := toNat_mod16 raw
  simp only [negativeOf, BitVec.msb_eq_decide]
  rw [Bool.eq_iff_iff]
  simp
  omega

theorem zeroOf_iff (raw : Int) : zeroOf raw = decide (raw % 65536 = 0) := by
  have h := toNat_mod16 raw
  rw [zeroOf, Bool.eq_iff_iff]
  simp only [beq_iff_eq, decide_eq_true_eq, ← BitVec.toNat_inj]
  simp
  omega

end Sys2Proof.Machine
end

