-- ==== Sys2Proof/Laws/Memory.lean ====
section
/-! SUPPORT. The laws of memory: a read after a write to the same word gives the value written, every other word is unchanged, and every operation keeps the canonical form. -/

namespace Sys2Proof.Machine

/-! One byte cell. -/

theorem readCell_consCell (key : Nat) (v : Byte) (rest : List Host.Cell) (k : Nat)
    (h : readCell rest key = unlistedByte) :
    readCell (consCell key v rest) k = if k = key then v else readCell rest k := by
  unfold consCell
  by_cases hv : v = unlistedByte
  · by_cases hk : k = key
    · subst hk; simp [hv, h]
    · simp [hv, hk]
  · simp [hv, readCell]

/-- A key below every key of a well-formed list is not listed. -/
theorem readCell_below {hi lo : Nat} {l : List Host.Cell} (h : cellsWf hi lo l = true) {k : Nat} (hk : k < lo) :
    readCell l k = unlistedByte := by
  induction l generalizing lo with
  | nil => rfl
  | cons c rest ih =>
    obtain ⟨a, v⟩ := c
    simp only [cellsWf, Bool.and_eq_true, decide_eq_true_eq] at h
    obtain ⟨⟨⟨h1, -⟩, -⟩, h4⟩ := h
    have : k ≠ a := by omega
    simp [readCell, this, ih h4 (by omega)]

/-- A key that is out of the key range of a well-formed list is not listed. -/
theorem readCell_above {hi lo : Nat} {l : List Host.Cell} (h : cellsWf hi lo l = true) {k : Nat} (hk : hi ≤ k) :
    readCell l k = unlistedByte := by
  induction l generalizing lo with
  | nil => rfl
  | cons c rest ih =>
    obtain ⟨a, v⟩ := c
    simp only [cellsWf, Bool.and_eq_true, decide_eq_true_eq] at h
    obtain ⟨⟨⟨-, h2⟩, -⟩, h4⟩ := h
    have : k ≠ a := by omega
    simp [readCell, this, ih h4]

/-- The bound below a well-formed list may be lowered. -/
theorem cellsWf_mono {hi lo lo' : Nat} {l : List Host.Cell} (h : cellsWf hi lo l = true) (hle : lo' ≤ lo) :
    cellsWf hi lo' l = true := by
  cases l with
  | nil => rfl
  | cons c rest =>
    obtain ⟨a, v⟩ := c
    simp only [cellsWf, Bool.and_eq_true, decide_eq_true_eq] at h ⊢
    exact ⟨⟨⟨by omega, h.1.1.2⟩, h.1.2⟩, h.2⟩

theorem cellsWf_consCell {hi lo key : Nat} {v : Byte} {rest : List Host.Cell}
    (h : cellsWf hi (key + 1) rest = true) (h1 : lo ≤ key) (h2 : key < hi) :
    cellsWf hi lo (consCell key v rest) = true := by
  unfold consCell
  by_cases hv : v = unlistedByte
  · simpa [hv] using cellsWf_mono h (by omega)
  · simp [hv, cellsWf, h, h1, h2]

/-- `writeCell` keeps the canonical form. -/
theorem cellsWf_writeCell {hi lo key : Nat} {v : Byte} {l : List Host.Cell}
    (h : cellsWf hi lo l = true) (h1 : lo ≤ key) (h2 : key < hi) :
    cellsWf hi lo (writeCell l key v) = true := by
  induction l generalizing lo with
  | nil => exact cellsWf_consCell rfl h1 h2
  | cons c rest ih =>
    obtain ⟨a, u⟩ := c
    have hc := h
    simp only [cellsWf, Bool.and_eq_true, decide_eq_true_eq] at hc
    obtain ⟨⟨⟨ha, hb⟩, hu⟩, hr⟩ := hc
    unfold writeCell
    by_cases hlt : key < a
    · simp only [hlt, if_true]
      exact cellsWf_consCell (by simp [cellsWf, hb, hu, hr]; omega) h1 h2
    · by_cases heq : key = a
      · subst heq
        simpa [hlt] using cellsWf_consCell hr h1 h2
      · simp only [hlt, heq, if_false, cellsWf, Bool.and_eq_true, decide_eq_true_eq]
        exact ⟨⟨⟨ha, hb⟩, hu⟩, ih hr (by omega)⟩

/-- Reading any key after a write to a well-formed list. -/
theorem readCell_writeCell {hi lo : Nat} {l : List Host.Cell} (h : cellsWf hi lo l = true) (key k : Nat) (v : Byte) :
    readCell (writeCell l key v) k = if k = key then v else readCell l k := by
  induction l generalizing lo with
  | nil => exact readCell_consCell key v [] k rfl
  | cons c rest ih =>
    obtain ⟨a, u⟩ := c
    have hc := h
    simp only [cellsWf, Bool.and_eq_true, decide_eq_true_eq] at hc
    obtain ⟨⟨⟨-, hb⟩, hu⟩, hr⟩ := hc
    unfold writeCell
    by_cases hlt : key < a
    · simp only [hlt, if_true]
      refine readCell_consCell key v _ k ?_
      have hne : key ≠ a := by omega
      simp [readCell, hne, readCell_below hr (show key < a + 1 by omega)]
    · by_cases heq : key = a
      · subst heq
        simp only [lt_irrefl, if_false, if_true]
        rw [readCell_consCell key v rest k (readCell_below hr (by omega))]
        by_cases hk : k = key <;> simp [readCell, hk]
      · simp only [hlt, heq, if_false, readCell]
        by_cases hk : k = a
        · subst hk
          have : k ≠ key := fun e => heq e.symm
          simp [this]
        · simp [hk, ih hr]

/-! Words. -/

theorem topIndex_some {pa : Nat} {k : Fin 16} (h : topIndex pa = some k) : pa = Config.romBase + k.val := by
  unfold topIndex at h
  split at h
  · rename_i hb
    have hk := congrArg Fin.val (Option.some.inj h)
    dsimp only at hk
    omega
  · exact absurd h (by simp)

theorem topIndex_none {pa : Nat} (h : topIndex pa = none) (hin : inRange pa = true) : pa < Config.romBase := by
  unfold topIndex at h
  unfold inRange at hin
  split at h
  · exact absurd h (by simp)
  · simp only [Config.memWords, Config.romBase, decide_eq_true_eq] at *; omega

/-- `writeWord` keeps the canonical form. -/
theorem Memory.wf_writeWord {m : Memory} (h : m.wf = true) (pa : Nat) (v : Word) : (m.writeWord pa v).wf = true := by
  unfold Memory.writeWord
  split
  · exact h
  · rename_i ht
    split
    · rename_i hin
      have := topIndex_none ht hin
      exact cellsWf_writeCell (cellsWf_writeCell h (by omega) (by omega)) (by omega) (by omega)
    · exact h

theorem append_halves (v : Word) : (v.extractLsb' 8 8 ++ v.extractLsb' 0 8 : BitVec 16) = v := by
  ext i hi
  simp only [BitVec.getElem_append, BitVec.getElem_extractLsb']
  by_cases h : i < 8
  · simp [h, BitVec.getLsbD_eq_getElem hi]
  · simp [h, show 8 + (i - 8) = i by omega, BitVec.getLsbD_eq_getElem hi]

/-- A read after a write to the same word gives the value written. -/
theorem Memory.readWord_writeWord_same {m : Memory} (h : m.wf = true) {pa : Nat} (hin : inRange pa = true) (v : Word) :
    (m.writeWord pa v).readWord pa = v := by
  unfold Memory.writeWord Memory.readWord
  cases ht : topIndex pa with
  | some k => simp
  | none =>
    have := topIndex_none ht hin
    simp only [hin, if_true]
    have w1 : cellsWf (2 * Config.romBase) 0 (writeCell m.cells (2 * pa) (v.extractLsb' 0 8)) = true :=
      cellsWf_writeCell h (by omega) (by omega)
    rw [readCell_writeCell w1, readCell_writeCell w1, readCell_writeCell h, readCell_writeCell h]
    simp [append_halves]

/-- A write leaves every other word alone. -/
theorem Memory.readWord_writeWord_other {m : Memory} (h : m.wf = true) {pa q : Nat} (hne : q ≠ pa) (v : Word) :
    (m.writeWord pa v).readWord q = m.readWord q := by
  unfold Memory.writeWord
  cases ht : topIndex pa with
  | some k =>
    unfold Memory.readWord
    cases hq : topIndex q with
    | some j =>
      have e1 := topIndex_some ht
      have e2 := topIndex_some hq
      have : k.val ≠ j.val := by omega
      simp [this]
    | none => simp
  | none =>
    by_cases hin : inRange pa = true
    · have := topIndex_none ht hin
      simp only [hin, if_true]
      unfold Memory.readWord
      cases hq : topIndex q with
      | some j => simp
      | none =>
        have w1 : cellsWf (2 * Config.romBase) 0 (writeCell m.cells (2 * pa) (v.extractLsb' 0 8)) = true :=
          cellsWf_writeCell h (by omega) (by omega)
        simp only
        rw [readCell_writeCell w1, readCell_writeCell w1, readCell_writeCell h, readCell_writeCell h]
        have a2 : ¬ 2 * q + 1 = 2 * pa := by omega
        have a3 : ¬ 2 * q = 2 * pa + 1 := by omega
        have a4 : ¬ 2 * q = 2 * pa := by omega
        simp [a2, a3, a4]
    · simp [hin]

/-- Outside the range a write changes nothing. -/
theorem Memory.writeWord_outOfRange {m : Memory} {pa : Nat} (h : inRange pa = false) (v : Word) : m.writeWord pa v = m := by
  unfold Memory.writeWord
  have ht : topIndex pa = none := by
    unfold topIndex inRange at *
    simp only [Config.memWords, Config.romBase, decide_eq_false_iff_not] at *
    split
    · omega
    · rfl
  simp [ht, h]

/-! Reset and the host's load. -/

@[simp] theorem Memory.wf_blank (rom : Vector Word 16) : (Memory.blank rom).wf = true := rfl

theorem Memory.wf_loadWord {m : Memory} (h : m.wf = true) (w : Nat × Word) : (m.loadWord w).wf = true := by
  unfold Memory.loadWord
  split
  · exact Memory.wf_writeWord h _ _
  · exact h

theorem Memory.wf_foldl_loadWord (writes : List (Nat × Word)) {m : Memory} (h : m.wf = true) :
    (writes.foldl Memory.loadWord m).wf = true := by
  induction writes generalizing m with
  | nil => exact h
  | cons w rest ih => exact ih (Memory.wf_loadWord h w)

/-- `loadProgram` gives a memory in canonical form. -/
theorem Memory.wf_load (rom : Vector Word 16) (writes : List (Nat × Word)) : (Memory.load rom writes).wf = true :=
  Memory.wf_foldl_loadWord writes (Memory.wf_blank _)

/-- Memory at reset is in canonical form. -/
theorem State.wf_mem_reset : State.reset.mem.wf = true := rfl

end Sys2Proof.Machine
end

