-- ==== Sys2Proof/Laws/State.lean ====
section
/-! SUPPORT. One lemma per field per update of the state, so that no proof unfolds a record update, and the register file's read-after-write law. -/

namespace Sys2Proof.Machine

/-! The register file. -/

theorem State.reg_setReg (s : State) (r q : Reg) (v : Word) :
    (s.setReg r v).reg q = if q = r then v else s.reg q := by
  unfold State.reg State.setReg
  by_cases h : q = r
  · subst h; simp
  · have : r.val ≠ q.val := fun e => h (Fin.ext e.symm)
    simp [h, this]

@[simp] theorem State.reg_setReg_same (s : State) (r : Reg) (v : Word) : (s.setReg r v).reg r = v := by
  simp [State.reg_setReg]

theorem State.reg_setReg_other (s : State) {r q : Reg} (v : Word) (h : q ≠ r) : (s.setReg r v).reg q = s.reg q := by
  simp [State.reg_setReg, h]

/-- Two states with the same registers, register by register, have the same register file. -/
theorem State.x_eq_of_reg_eq {s t : State} (h : ∀ r, s.reg r = t.reg r) : s.x = t.x := by
  apply Vector.ext
  intro i hi
  exact h ⟨i, hi⟩

/-! `setReg` touches the register file only. -/

@[simp] theorem State.cs_setReg (s : State) (r : Reg) (v : Word) : (s.setReg r v).cs = s.cs := rfl
@[simp] theorem State.ds_setReg (s : State) (r : Reg) (v : Word) : (s.setReg r v).ds = s.ds := rfl
@[simp] theorem State.ss_setReg (s : State) (r : Reg) (v : Word) : (s.setReg r v).ss = s.ss := rfl
@[simp] theorem State.es_setReg (s : State) (r : Reg) (v : Word) : (s.setReg r v).es = s.es := rfl
@[simp] theorem State.psw_setReg (s : State) (r : Reg) (v : Word) : (s.setReg r v).psw = s.psw := rfl
@[simp] theorem State.pswShadow_setReg (s : State) (r : Reg) (v : Word) : (s.setReg r v).pswShadow = s.pswShadow := rfl
@[simp] theorem State.pcShadow_setReg (s : State) (r : Reg) (v : Word) : (s.setReg r v).pcShadow = s.pcShadow := rfl
@[simp] theorem State.csShadow_setReg (s : State) (r : Reg) (v : Word) : (s.setReg r v).csShadow = s.csShadow := rfl
@[simp] theorem State.pend_setReg (s : State) (r : Reg) (v : Word) : (s.setReg r v).pend = s.pend := rfl
@[simp] theorem State.running_setReg (s : State) (r : Reg) (v : Word) : (s.setReg r v).running = s.running := rfl
@[simp] theorem State.mem_setReg (s : State) (r : Reg) (v : Word) : (s.setReg r v).mem = s.mem := rfl
@[simp] theorem State.observed_setReg (s : State) (r : Reg) (v : Word) : (s.setReg r v).observed = s.observed := rfl

/-! `setSeg` touches one segment register only. -/

@[simp] theorem State.x_setSeg (s : State) (k : SegReg) (v : Word) : (s.setSeg k v).x = s.x := by cases k <;> rfl
@[simp] theorem State.psw_setSeg (s : State) (k : SegReg) (v : Word) : (s.setSeg k v).psw = s.psw := by cases k <;> rfl
@[simp] theorem State.pswShadow_setSeg (s : State) (k : SegReg) (v : Word) : (s.setSeg k v).pswShadow = s.pswShadow := by cases k <;> rfl
@[simp] theorem State.pcShadow_setSeg (s : State) (k : SegReg) (v : Word) : (s.setSeg k v).pcShadow = s.pcShadow := by cases k <;> rfl
@[simp] theorem State.csShadow_setSeg (s : State) (k : SegReg) (v : Word) : (s.setSeg k v).csShadow = s.csShadow := by cases k <;> rfl
@[simp] theorem State.pend_setSeg (s : State) (k : SegReg) (v : Word) : (s.setSeg k v).pend = s.pend := by cases k <;> rfl
@[simp] theorem State.running_setSeg (s : State) (k : SegReg) (v : Word) : (s.setSeg k v).running = s.running := by cases k <;> rfl
@[simp] theorem State.mem_setSeg (s : State) (k : SegReg) (v : Word) : (s.setSeg k v).mem = s.mem := by cases k <;> rfl
@[simp] theorem State.observed_setSeg (s : State) (k : SegReg) (v : Word) : (s.setSeg k v).observed = s.observed := by cases k <;> rfl
@[simp] theorem State.reg_setSeg (s : State) (k : SegReg) (v : Word) (r : Reg) : (s.setSeg k v).reg r = s.reg r := by cases k <;> rfl
theorem State.seg_setSeg (s : State) (k j : SegReg) (v : Word) : (s.setSeg k v).seg j = if j = k then v else s.seg j := by
  cases k <;> cases j <;> rfl
theorem State.cs_setSeg (s : State) (k : SegReg) (v : Word) : (s.setSeg k v).cs = if k = .cs then v else s.cs := by
  cases k <;> rfl
@[simp] theorem State.seg_setReg (s : State) (r : Reg) (v : Word) (k : SegReg) : (s.setReg r v).seg k = s.seg k := by cases k <;> rfl

/-! `Flags(raw)` touches the PSW only. -/

@[simp] theorem State.x_applyFlagsWithCarry (s : State) (op : AluClass) (a b : Word) (raw : Int) (c : Bool) : (s.applyFlagsWithCarry op a b raw c).x = s.x := rfl
@[simp] theorem State.cs_applyFlagsWithCarry (s : State) (op : AluClass) (a b : Word) (raw : Int) (c : Bool) : (s.applyFlagsWithCarry op a b raw c).cs = s.cs := rfl
@[simp] theorem State.ds_applyFlagsWithCarry (s : State) (op : AluClass) (a b : Word) (raw : Int) (c : Bool) : (s.applyFlagsWithCarry op a b raw c).ds = s.ds := rfl
@[simp] theorem State.ss_applyFlagsWithCarry (s : State) (op : AluClass) (a b : Word) (raw : Int) (c : Bool) : (s.applyFlagsWithCarry op a b raw c).ss = s.ss := rfl
@[simp] theorem State.es_applyFlagsWithCarry (s : State) (op : AluClass) (a b : Word) (raw : Int) (c : Bool) : (s.applyFlagsWithCarry op a b raw c).es = s.es := rfl
@[simp] theorem State.pswShadow_applyFlagsWithCarry (s : State) (op : AluClass) (a b : Word) (raw : Int) (c : Bool) : (s.applyFlagsWithCarry op a b raw c).pswShadow = s.pswShadow := rfl
@[simp] theorem State.pcShadow_applyFlagsWithCarry (s : State) (op : AluClass) (a b : Word) (raw : Int) (c : Bool) : (s.applyFlagsWithCarry op a b raw c).pcShadow = s.pcShadow := rfl
@[simp] theorem State.csShadow_applyFlagsWithCarry (s : State) (op : AluClass) (a b : Word) (raw : Int) (c : Bool) : (s.applyFlagsWithCarry op a b raw c).csShadow = s.csShadow := rfl
@[simp] theorem State.pend_applyFlagsWithCarry (s : State) (op : AluClass) (a b : Word) (raw : Int) (c : Bool) : (s.applyFlagsWithCarry op a b raw c).pend = s.pend := rfl
@[simp] theorem State.running_applyFlagsWithCarry (s : State) (op : AluClass) (a b : Word) (raw : Int) (c : Bool) : (s.applyFlagsWithCarry op a b raw c).running = s.running := rfl
@[simp] theorem State.mem_applyFlagsWithCarry (s : State) (op : AluClass) (a b : Word) (raw : Int) (c : Bool) : (s.applyFlagsWithCarry op a b raw c).mem = s.mem := rfl
@[simp] theorem State.observed_applyFlagsWithCarry (s : State) (op : AluClass) (a b : Word) (raw : Int) (c : Bool) : (s.applyFlagsWithCarry op a b raw c).observed = s.observed := rfl
@[simp] theorem State.reg_applyFlagsWithCarry (s : State) (op : AluClass) (a b : Word) (raw : Int) (c : Bool) (r : Reg) : (s.applyFlagsWithCarry op a b raw c).reg r = s.reg r := rfl
@[simp] theorem State.seg_applyFlagsWithCarry (s : State) (op : AluClass) (a b : Word) (raw : Int) (c : Bool) (k : SegReg) : (s.applyFlagsWithCarry op a b raw c).seg k = s.seg k := by cases k <;> rfl
@[simp] theorem State.psw_applyFlagsWithCarry (s : State) (op : AluClass) (a b : Word) (raw : Int) (c : Bool) :
    (s.applyFlagsWithCarry op a b raw c).psw = pswWithFlags s.psw (negativeOf raw) (zeroOf raw) (overflowOf op a b raw) c := rfl

/-! `Flags(raw)` with the general carry. -/

@[simp] theorem State.x_applyFlags (s : State) (op : AluClass) (a b : Word) (raw : Int) : (s.applyFlags op a b raw).x = s.x := rfl
@[simp] theorem State.cs_applyFlags (s : State) (op : AluClass) (a b : Word) (raw : Int) : (s.applyFlags op a b raw).cs = s.cs := rfl
@[simp] theorem State.ds_applyFlags (s : State) (op : AluClass) (a b : Word) (raw : Int) : (s.applyFlags op a b raw).ds = s.ds := rfl
@[simp] theorem State.ss_applyFlags (s : State) (op : AluClass) (a b : Word) (raw : Int) : (s.applyFlags op a b raw).ss = s.ss := rfl
@[simp] theorem State.es_applyFlags (s : State) (op : AluClass) (a b : Word) (raw : Int) : (s.applyFlags op a b raw).es = s.es := rfl
@[simp] theorem State.pswShadow_applyFlags (s : State) (op : AluClass) (a b : Word) (raw : Int) : (s.applyFlags op a b raw).pswShadow = s.pswShadow := rfl
@[simp] theorem State.pcShadow_applyFlags (s : State) (op : AluClass) (a b : Word) (raw : Int) : (s.applyFlags op a b raw).pcShadow = s.pcShadow := rfl
@[simp] theorem State.csShadow_applyFlags (s : State) (op : AluClass) (a b : Word) (raw : Int) : (s.applyFlags op a b raw).csShadow = s.csShadow := rfl
@[simp] theorem State.pend_applyFlags (s : State) (op : AluClass) (a b : Word) (raw : Int) : (s.applyFlags op a b raw).pend = s.pend := rfl
@[simp] theorem State.running_applyFlags (s : State) (op : AluClass) (a b : Word) (raw : Int) : (s.applyFlags op a b raw).running = s.running := rfl
@[simp] theorem State.mem_applyFlags (s : State) (op : AluClass) (a b : Word) (raw : Int) : (s.applyFlags op a b raw).mem = s.mem := rfl
@[simp] theorem State.observed_applyFlags (s : State) (op : AluClass) (a b : Word) (raw : Int) : (s.applyFlags op a b raw).observed = s.observed := rfl
@[simp] theorem State.reg_applyFlags (s : State) (op : AluClass) (a b : Word) (raw : Int) (r : Reg) : (s.applyFlags op a b raw).reg r = s.reg r := rfl
@[simp] theorem State.seg_applyFlags (s : State) (op : AluClass) (a b : Word) (raw : Int) (k : SegReg) : (s.applyFlags op a b raw).seg k = s.seg k := by cases k <;> rfl
@[simp] theorem State.psw_applyFlags (s : State) (op : AluClass) (a b : Word) (raw : Int) :
    (s.applyFlags op a b raw).psw = pswWithFlags s.psw (negativeOf raw) (zeroOf raw) (overflowOf op a b raw) (carryOf raw) := rfl

/-! `store` touches memory and the reports only. -/

@[simp] theorem State.x_store (s : State) (pa : Nat) (v : Word) : (s.store pa v).x = s.x := rfl
@[simp] theorem State.cs_store (s : State) (pa : Nat) (v : Word) : (s.store pa v).cs = s.cs := rfl
@[simp] theorem State.ds_store (s : State) (pa : Nat) (v : Word) : (s.store pa v).ds = s.ds := rfl
@[simp] theorem State.ss_store (s : State) (pa : Nat) (v : Word) : (s.store pa v).ss = s.ss := rfl
@[simp] theorem State.es_store (s : State) (pa : Nat) (v : Word) : (s.store pa v).es = s.es := rfl
@[simp] theorem State.psw_store (s : State) (pa : Nat) (v : Word) : (s.store pa v).psw = s.psw := rfl
@[simp] theorem State.pswShadow_store (s : State) (pa : Nat) (v : Word) : (s.store pa v).pswShadow = s.pswShadow := rfl
@[simp] theorem State.pcShadow_store (s : State) (pa : Nat) (v : Word) : (s.store pa v).pcShadow = s.pcShadow := rfl
@[simp] theorem State.csShadow_store (s : State) (pa : Nat) (v : Word) : (s.store pa v).csShadow = s.csShadow := rfl
@[simp] theorem State.pend_store (s : State) (pa : Nat) (v : Word) : (s.store pa v).pend = s.pend := rfl
@[simp] theorem State.running_store (s : State) (pa : Nat) (v : Word) : (s.store pa v).running = s.running := rfl
@[simp] theorem State.reg_store (s : State) (pa : Nat) (v : Word) (r : Reg) : (s.store pa v).reg r = s.reg r := rfl
@[simp] theorem State.seg_store (s : State) (pa : Nat) (v : Word) (k : SegReg) : (s.store pa v).seg k = s.seg k := by cases k <;> rfl
@[simp] theorem State.mem_store (s : State) (pa : Nat) (v : Word) : (s.store pa v).mem = s.mem.writeWord pa v := rfl
@[simp] theorem State.observed_store (s : State) (pa : Nat) (v : Word) : (s.store pa v).observed = s.observed ++ [{ pa := pa, value := v }] := rfl

/-! `halted` touches `running` only. -/

@[simp] theorem State.x_halted (s : State) : (s.halted).x = s.x := rfl
@[simp] theorem State.cs_halted (s : State) : (s.halted).cs = s.cs := rfl
@[simp] theorem State.ds_halted (s : State) : (s.halted).ds = s.ds := rfl
@[simp] theorem State.ss_halted (s : State) : (s.halted).ss = s.ss := rfl
@[simp] theorem State.es_halted (s : State) : (s.halted).es = s.es := rfl
@[simp] theorem State.psw_halted (s : State) : (s.halted).psw = s.psw := rfl
@[simp] theorem State.pswShadow_halted (s : State) : (s.halted).pswShadow = s.pswShadow := rfl
@[simp] theorem State.pcShadow_halted (s : State) : (s.halted).pcShadow = s.pcShadow := rfl
@[simp] theorem State.csShadow_halted (s : State) : (s.halted).csShadow = s.csShadow := rfl
@[simp] theorem State.pend_halted (s : State) : (s.halted).pend = s.pend := rfl
@[simp] theorem State.mem_halted (s : State) : (s.halted).mem = s.mem := rfl
@[simp] theorem State.observed_halted (s : State) : (s.halted).observed = s.observed := rfl
@[simp] theorem State.reg_halted (s : State) (r : Reg) : (s.halted).reg r = s.reg r := rfl
@[simp] theorem State.seg_halted (s : State) (k : SegReg) : (s.halted).seg k = s.seg k := by cases k <;> rfl
@[simp] theorem State.running_halted (s : State) : s.halted.running = false := rfl

/-! `advancePc` touches R15 only. -/

@[simp] theorem State.cs_advancePc (s : State) : (s.advancePc).cs = s.cs := rfl
@[simp] theorem State.ds_advancePc (s : State) : (s.advancePc).ds = s.ds := rfl
@[simp] theorem State.ss_advancePc (s : State) : (s.advancePc).ss = s.ss := rfl
@[simp] theorem State.es_advancePc (s : State) : (s.advancePc).es = s.es := rfl
@[simp] theorem State.psw_advancePc (s : State) : (s.advancePc).psw = s.psw := rfl
@[simp] theorem State.pswShadow_advancePc (s : State) : (s.advancePc).pswShadow = s.pswShadow := rfl
@[simp] theorem State.pcShadow_advancePc (s : State) : (s.advancePc).pcShadow = s.pcShadow := rfl
@[simp] theorem State.csShadow_advancePc (s : State) : (s.advancePc).csShadow = s.csShadow := rfl
@[simp] theorem State.pend_advancePc (s : State) : (s.advancePc).pend = s.pend := rfl
@[simp] theorem State.running_advancePc (s : State) : (s.advancePc).running = s.running := rfl
@[simp] theorem State.mem_advancePc (s : State) : (s.advancePc).mem = s.mem := rfl
@[simp] theorem State.observed_advancePc (s : State) : (s.advancePc).observed = s.observed := rfl
@[simp] theorem State.seg_advancePc (s : State) (k : SegReg) : (s.advancePc).seg k = s.seg k := by cases k <;> rfl
@[simp] theorem State.pc_advancePc (s : State) : s.advancePc.pc = s.pc + 1 := by simp [State.advancePc, State.pc]
theorem State.reg_advancePc (s : State) (r : Reg) : s.advancePc.reg r = if r = pcReg then s.pc + 1 else s.reg r := by
  simp [State.advancePc, State.reg_setReg]

/-! `commit` touches R15, CS and the pending transfer only. -/

@[simp] theorem State.ds_commit (s : State) (t : Pending) : (s.commit t).ds = s.ds := rfl
@[simp] theorem State.ss_commit (s : State) (t : Pending) : (s.commit t).ss = s.ss := rfl
@[simp] theorem State.es_commit (s : State) (t : Pending) : (s.commit t).es = s.es := rfl
@[simp] theorem State.psw_commit (s : State) (t : Pending) : (s.commit t).psw = s.psw := rfl
@[simp] theorem State.pswShadow_commit (s : State) (t : Pending) : (s.commit t).pswShadow = s.pswShadow := rfl
@[simp] theorem State.pcShadow_commit (s : State) (t : Pending) : (s.commit t).pcShadow = s.pcShadow := rfl
@[simp] theorem State.csShadow_commit (s : State) (t : Pending) : (s.commit t).csShadow = s.csShadow := rfl
@[simp] theorem State.running_commit (s : State) (t : Pending) : (s.commit t).running = s.running := rfl
@[simp] theorem State.mem_commit (s : State) (t : Pending) : (s.commit t).mem = s.mem := rfl
@[simp] theorem State.observed_commit (s : State) (t : Pending) : (s.commit t).observed = s.observed := rfl
@[simp] theorem State.pend_commit (s : State) (t : Pending) : (s.commit t).pend = none := rfl
@[simp] theorem State.cs_commit (s : State) (t : Pending) : (s.commit t).cs = t.targetCs.getD s.cs := rfl
@[simp] theorem State.reg_commit (s : State) (t : Pending) (r : Reg) :
    (s.commit t).reg r = if r = pcReg then t.targetPc else s.reg r := State.reg_setReg s pcReg r t.targetPc
@[simp] theorem State.pc_commit (s : State) (t : Pending) : (s.commit t).pc = t.targetPc := by simp [State.pc]

/-! `trapEntry` touches R15, CS, the PSW and PSW' only. -/

@[simp] theorem State.ds_trapEntry (s : State) : (s.trapEntry).ds = s.ds := rfl
@[simp] theorem State.ss_trapEntry (s : State) : (s.trapEntry).ss = s.ss := rfl
@[simp] theorem State.es_trapEntry (s : State) : (s.trapEntry).es = s.es := rfl
@[simp] theorem State.pcShadow_trapEntry (s : State) : (s.trapEntry).pcShadow = s.pcShadow := rfl
@[simp] theorem State.csShadow_trapEntry (s : State) : (s.trapEntry).csShadow = s.csShadow := rfl
@[simp] theorem State.pend_trapEntry (s : State) : (s.trapEntry).pend = s.pend := rfl
@[simp] theorem State.running_trapEntry (s : State) : (s.trapEntry).running = s.running := rfl
@[simp] theorem State.mem_trapEntry (s : State) : (s.trapEntry).mem = s.mem := rfl
@[simp] theorem State.observed_trapEntry (s : State) : (s.trapEntry).observed = s.observed := rfl
@[simp] theorem State.cs_trapEntry (s : State) : s.trapEntry.cs = Config.swiCs := rfl
@[simp] theorem State.psw_trapEntry (s : State) : s.trapEntry.psw = pswWithView s.psw true false := rfl
@[simp] theorem State.pswShadow_trapEntry (s : State) : s.trapEntry.pswShadow = s.psw := rfl
@[simp] theorem State.reg_trapEntry (s : State) (r : Reg) :
    s.trapEntry.reg r = if r = pcReg then Config.swiPc else s.reg r := State.reg_setReg s pcReg r Config.swiPc

/-! `trapReturn` touches the PSW only. -/

@[simp] theorem State.x_trapReturn (s : State) : (s.trapReturn).x = s.x := rfl
@[simp] theorem State.cs_trapReturn (s : State) : (s.trapReturn).cs = s.cs := rfl
@[simp] theorem State.ds_trapReturn (s : State) : (s.trapReturn).ds = s.ds := rfl
@[simp] theorem State.ss_trapReturn (s : State) : (s.trapReturn).ss = s.ss := rfl
@[simp] theorem State.es_trapReturn (s : State) : (s.trapReturn).es = s.es := rfl
@[simp] theorem State.pswShadow_trapReturn (s : State) : (s.trapReturn).pswShadow = s.pswShadow := rfl
@[simp] theorem State.pcShadow_trapReturn (s : State) : (s.trapReturn).pcShadow = s.pcShadow := rfl
@[simp] theorem State.csShadow_trapReturn (s : State) : (s.trapReturn).csShadow = s.csShadow := rfl
@[simp] theorem State.pend_trapReturn (s : State) : (s.trapReturn).pend = s.pend := rfl
@[simp] theorem State.running_trapReturn (s : State) : (s.trapReturn).running = s.running := rfl
@[simp] theorem State.mem_trapReturn (s : State) : (s.trapReturn).mem = s.mem := rfl
@[simp] theorem State.observed_trapReturn (s : State) : (s.trapReturn).observed = s.observed := rfl
@[simp] theorem State.reg_trapReturn (s : State) (r : Reg) : (s.trapReturn).reg r = s.reg r := rfl
@[simp] theorem State.seg_trapReturn (s : State) (k : SegReg) : (s.trapReturn).seg k = s.seg k := by cases k <;> rfl
@[simp] theorem State.psw_trapReturn (s : State) : s.trapReturn.psw = pswWithView s.psw false (pswI s.psw) := rfl

/-! The shared shapes of the ALU-class instructions touch the destination and the PSW only. -/

@[simp] theorem State.cs_aluResult (s : State) (op : AluClass) (rd : Reg) (w : Bool) (a b : Word) (raw : Int) : (s.aluResult op rd w a b raw).cs = s.cs := by cases w <;> rfl
@[simp] theorem State.ds_aluResult (s : State) (op : AluClass) (rd : Reg) (w : Bool) (a b : Word) (raw : Int) : (s.aluResult op rd w a b raw).ds = s.ds := by cases w <;> rfl
@[simp] theorem State.ss_aluResult (s : State) (op : AluClass) (rd : Reg) (w : Bool) (a b : Word) (raw : Int) : (s.aluResult op rd w a b raw).ss = s.ss := by cases w <;> rfl
@[simp] theorem State.es_aluResult (s : State) (op : AluClass) (rd : Reg) (w : Bool) (a b : Word) (raw : Int) : (s.aluResult op rd w a b raw).es = s.es := by cases w <;> rfl
@[simp] theorem State.pswShadow_aluResult (s : State) (op : AluClass) (rd : Reg) (w : Bool) (a b : Word) (raw : Int) : (s.aluResult op rd w a b raw).pswShadow = s.pswShadow := by cases w <;> rfl
@[simp] theorem State.pcShadow_aluResult (s : State) (op : AluClass) (rd : Reg) (w : Bool) (a b : Word) (raw : Int) : (s.aluResult op rd w a b raw).pcShadow = s.pcShadow := by cases w <;> rfl
@[simp] theorem State.csShadow_aluResult (s : State) (op : AluClass) (rd : Reg) (w : Bool) (a b : Word) (raw : Int) : (s.aluResult op rd w a b raw).csShadow = s.csShadow := by cases w <;> rfl
@[simp] theorem State.pend_aluResult (s : State) (op : AluClass) (rd : Reg) (w : Bool) (a b : Word) (raw : Int) : (s.aluResult op rd w a b raw).pend = s.pend := by cases w <;> rfl
@[simp] theorem State.running_aluResult (s : State) (op : AluClass) (rd : Reg) (w : Bool) (a b : Word) (raw : Int) : (s.aluResult op rd w a b raw).running = s.running := by cases w <;> rfl
@[simp] theorem State.mem_aluResult (s : State) (op : AluClass) (rd : Reg) (w : Bool) (a b : Word) (raw : Int) : (s.aluResult op rd w a b raw).mem = s.mem := by cases w <;> rfl
@[simp] theorem State.observed_aluResult (s : State) (op : AluClass) (rd : Reg) (w : Bool) (a b : Word) (raw : Int) : (s.aluResult op rd w a b raw).observed = s.observed := by cases w <;> rfl
@[simp] theorem State.psw_aluResult (s : State) (op : AluClass) (rd : Reg) (w : Bool) (a b : Word) (raw : Int) :
    (s.aluResult op rd w a b raw).psw = pswWithFlags s.psw (negativeOf raw) (zeroOf raw) (overflowOf op a b raw) (carryOf raw) := by cases w <;> rfl
@[simp] theorem State.cs_aluPair (s : State) (op : AluClass) (rd : Reg) (w : Bool) (first second : Word) (a b : Word) (raw : Int) : (s.aluPair op rd w first second a b raw).cs = s.cs := by cases w <;> rfl
@[simp] theorem State.ds_aluPair (s : State) (op : AluClass) (rd : Reg) (w : Bool) (first second : Word) (a b : Word) (raw : Int) : (s.aluPair op rd w first second a b raw).ds = s.ds := by cases w <;> rfl
@[simp] theorem State.ss_aluPair (s : State) (op : AluClass) (rd : Reg) (w : Bool) (first second : Word) (a b : Word) (raw : Int) : (s.aluPair op rd w first second a b raw).ss = s.ss := by cases w <;> rfl
@[simp] theorem State.es_aluPair (s : State) (op : AluClass) (rd : Reg) (w : Bool) (first second : Word) (a b : Word) (raw : Int) : (s.aluPair op rd w first second a b raw).es = s.es := by cases w <;> rfl
@[simp] theorem State.pswShadow_aluPair (s : State) (op : AluClass) (rd : Reg) (w : Bool) (first second : Word) (a b : Word) (raw : Int) : (s.aluPair op rd w first second a b raw).pswShadow = s.pswShadow := by cases w <;> rfl
@[simp] theorem State.pcShadow_aluPair (s : State) (op : AluClass) (rd : Reg) (w : Bool) (first second : Word) (a b : Word) (raw : Int) : (s.aluPair op rd w first second a b raw).pcShadow = s.pcShadow := by cases w <;> rfl
@[simp] theorem State.csShadow_aluPair (s : State) (op : AluClass) (rd : Reg) (w : Bool) (first second : Word) (a b : Word) (raw : Int) : (s.aluPair op rd w first second a b raw).csShadow = s.csShadow := by cases w <;> rfl
@[simp] theorem State.pend_aluPair (s : State) (op : AluClass) (rd : Reg) (w : Bool) (first second : Word) (a b : Word) (raw : Int) : (s.aluPair op rd w first second a b raw).pend = s.pend := by cases w <;> rfl
@[simp] theorem State.running_aluPair (s : State) (op : AluClass) (rd : Reg) (w : Bool) (first second : Word) (a b : Word) (raw : Int) : (s.aluPair op rd w first second a b raw).running = s.running := by cases w <;> rfl
@[simp] theorem State.mem_aluPair (s : State) (op : AluClass) (rd : Reg) (w : Bool) (first second : Word) (a b : Word) (raw : Int) : (s.aluPair op rd w first second a b raw).mem = s.mem := by cases w <;> rfl
@[simp] theorem State.observed_aluPair (s : State) (op : AluClass) (rd : Reg) (w : Bool) (first second : Word) (a b : Word) (raw : Int) : (s.aluPair op rd w first second a b raw).observed = s.observed := by cases w <;> rfl
@[simp] theorem State.psw_aluPair (s : State) (op : AluClass) (rd : Reg) (w : Bool) (first second : Word) (a b : Word) (raw : Int) :
    (s.aluPair op rd w first second a b raw).psw = pswWithFlags s.psw (negativeOf raw) (zeroOf raw) (overflowOf op a b raw) (carryOf raw) := by cases w <;> rfl
theorem State.reg_aluResult (s : State) (op : AluClass) (rd : Reg) (w : Bool) (a b : Word) (raw : Int) (r : Reg) :
    (s.aluResult op rd w a b raw).reg r = if w = true ∧ r = rd then mod16 raw else s.reg r := by
  cases w <;> simp [State.aluResult, State.reg_setReg]
theorem State.reg_aluPair (s : State) (op : AluClass) (rd : Reg) (w : Bool) (first second : Word) (a b : Word) (raw : Int) (r : Reg) :
    (s.aluPair op rd w first second a b raw).reg r =
      if w = true ∧ r = pairReg rd then second else if w = true ∧ r = rd then first else s.reg r := by
  cases w <;> simp [State.aluPair, State.reg_setReg]

/-! `enter` is the PC advance, but for the sentinel. -/

@[simp] theorem State.cs_enter (s : State) (w : Word) : (s.enter w).cs = s.cs := by unfold State.enter; split <;> rfl
@[simp] theorem State.ds_enter (s : State) (w : Word) : (s.enter w).ds = s.ds := by unfold State.enter; split <;> rfl
@[simp] theorem State.ss_enter (s : State) (w : Word) : (s.enter w).ss = s.ss := by unfold State.enter; split <;> rfl
@[simp] theorem State.es_enter (s : State) (w : Word) : (s.enter w).es = s.es := by unfold State.enter; split <;> rfl
@[simp] theorem State.psw_enter (s : State) (w : Word) : (s.enter w).psw = s.psw := by unfold State.enter; split <;> rfl
@[simp] theorem State.pswShadow_enter (s : State) (w : Word) : (s.enter w).pswShadow = s.pswShadow := by unfold State.enter; split <;> rfl
@[simp] theorem State.pcShadow_enter (s : State) (w : Word) : (s.enter w).pcShadow = s.pcShadow := by unfold State.enter; split <;> rfl
@[simp] theorem State.csShadow_enter (s : State) (w : Word) : (s.enter w).csShadow = s.csShadow := by unfold State.enter; split <;> rfl
@[simp] theorem State.pend_enter (s : State) (w : Word) : (s.enter w).pend = s.pend := by unfold State.enter; split <;> rfl
@[simp] theorem State.running_enter (s : State) (w : Word) : (s.enter w).running = s.running := by unfold State.enter; split <;> rfl
@[simp] theorem State.mem_enter (s : State) (w : Word) : (s.enter w).mem = s.mem := by unfold State.enter; split <;> rfl
@[simp] theorem State.observed_enter (s : State) (w : Word) : (s.enter w).observed = s.observed := by unfold State.enter; split <;> rfl

end Sys2Proof.Machine
end

