-- ==== Sys2Proof/Laws/Ops.lean ====
section
/-! SUPPORT. What each shared operation can answer, said once: the provers cite these instead of unfolding the operation. -/

namespace Sys2Proof.Machine

/-- A delayed transfer answers a next state exactly outside a delay slot, and only sets the pending transfer. -/
theorem delayedTransfer_next {s t : State} {p : Pending} :
    s.delayedTransfer p = .next t ↔ s.pend = none ∧ t = { s with pend := some p } := by
  unfold State.delayedTransfer
  cases h : s.pend with
  | none => simp [eq_comm]
  | some q => simp

/-- A delayed transfer never answers a fault. -/
theorem delayedTransfer_not_fault {s : State} {p : Pending} {f : Fault} : s.delayedTransfer p ≠ .fault f := by
  unfold State.delayedTransfer
  cases s.pend <;> simp

/-- The trap is taken exactly outside a delay slot. -/
theorem takeTrap_next {s t : State} : s.takeTrap = .next t ↔ s.pend = none ∧ t = s.trapEntry := by
  unfold State.takeTrap
  cases h : s.pend with
  | none => simp [eq_comm]
  | some q => simp

/-- A conditional jump: not taken it changes nothing; taken, outside a delay slot, it sets the pending transfer. -/
theorem condJump_next {c : Cond} {off9 : BitVec 9} {s t : State} :
    condJump c off9 s = .next t ↔
      (c.holds s.psw = false ∧ t = s) ∨
      (c.holds s.psw = true ∧ s.pend = none ∧ t = { s with pend := some { targetPc := jumpTarget s off9, targetCs := none } }) := by
  unfold condJump
  cases h : c.holds s.psw with
  | true => simp [delayedTransfer_next]
  | false => simp [eq_comm]

/-- JML answers a next state exactly for an even register outside a delay slot. -/
theorem execJml_next {rx : Reg} {s t : State} :
    execJml rx s = .next t ↔
      isOdd rx = false ∧ s.pend = none ∧
        t = { s with pend := some { targetPc := s.reg (pairReg rx), targetCs := some (s.reg rx) } } := by
  unfold execJml
  cases h : isOdd rx with
  | true => simp
  | false => simp [delayedTransfer_next]

/-- SWI: ignored it changes nothing; taken, outside a delay slot, it is the trap entry. -/
theorem execSwi_next {s t : State} :
    execSwi s = .next t ↔ (s.swiTaken = false ∧ t = s) ∨ (s.swiTaken = true ∧ s.pend = none ∧ t = s.trapEntry) := by
  unfold execSwi
  cases h : s.swiTaken with
  | true => simp [takeTrap_next]
  | false => simp [eq_comm]

/-- The end of a step answers a next state exactly where the instruction did. -/
theorem finishStep_next {p : Option Pending} {o : Host.Outcome State Fault Refusal} {t : State} :
    finishStep p o = .next t ↔
      ∃ u, o = .next u ∧
        t = (match p with
          | none => u
          | some q => if u.running then u.commit q else u) := by
  cases o with
  | next u => cases p <;> simp [finishStep, eq_comm (a := t)]
  | fault f => simp [finishStep]
  | refused r => simp [finishStep]

@[simp] theorem finishStep_none (o : Host.Outcome State Fault Refusal) : finishStep none o = o := by
  cases o <;> rfl

@[simp] theorem finishStep_refused (p : Option Pending) (r : Refusal) : finishStep p (.refused r) = .refused r := rfl

@[simp] theorem finishStep_fault (p : Option Pending) (f : Fault) : finishStep p (.fault f) = .fault f := rfl

/-- The word that decodes to HALT is the sentinel alone. -/
theorem enter_sentinel (s : State) : s.enter 0xFFFF#16 = s := by simp [State.enter]

theorem enter_other (s : State) {w : Word} (h : w ≠ 0xFFFF#16) : s.enter w = s.advancePc := by simp [State.enter, h]

/-- Every way a step answers a next state: halted already, a fetch out of range, or the fetched word's instruction and the end of the step. -/
theorem step_next_cases {s t : State} (h : step s = .next t) :
    (s.running = false ∧ t = s) ∨
    (s.running = true ∧ s.fetch = none ∧ t = s.halted) ∨
    (∃ w u, s.running = true ∧ s.fetch = some w ∧ exec (decode w) (s.enter w) = .next u ∧
      t = (match s.pend with
        | none => u
        | some q => if u.running then u.commit q else u)) := by
  unfold step at h
  cases hr : s.running with
  | false => left; simpa [hr, eq_comm] using h
  | true =>
    right
    cases hf : s.fetch with
    | none => left; simpa [hr, hf, eq_comm] using h
    | some w =>
      right
      simp only [hr, hf, if_true] at h
      obtain ⟨u, hu, ht⟩ := finishStep_next.mp h
      exact ⟨w, u, rfl, rfl, hu, ht⟩

end Sys2Proof.Machine
end

