-- ==== Sys2Proof/Laws/PerInstr.lean ====
section
/-! SUPPORT. One family of statements per instruction: the encoder's words are words of the instruction's own row of spec/opcode_table.json. -/

namespace Sys2Proof.Laws.EncodesRow

/-- One match and mask of spec/opcode_table.json. -/
structure Row where
  pattern : Word
  mask : Word

/-- The rows of an instruction, letter for letter from spec/opcode_table.json (UNRECOGNIZED has five). -/
def rowsOf : Instr → List Row
  | .halt => [⟨0xFFFF#16, 0xFFFF#16⟩]
  | .ldi _ => [⟨0x0000#16, 0x8000#16⟩]
  | .ld _ _ _ => [⟨0x8000#16, 0xE000#16⟩]
  | .st _ _ _ => [⟨0xA000#16, 0xE000#16⟩]
  | .add _ _ _ => [⟨0xC000#16, 0xFC00#16⟩]
  | .sub _ _ _ => [⟨0xC400#16, 0xFC00#16⟩]
  | .and _ _ _ => [⟨0xC800#16, 0xFC00#16⟩]
  | .or _ _ _ => [⟨0xCC00#16, 0xFC00#16⟩]
  | .xor _ _ _ => [⟨0xD000#16, 0xFC00#16⟩]
  | .mul _ _ _ => [⟨0xD400#16, 0xFC10#16⟩]
  | .mulImm _ _ _ => [⟨0xD450#16, 0xFC50#16⟩]
  | .mul32 _ _ _ => [⟨0xD410#16, 0xFC50#16⟩]
  | .div _ _ _ => [⟨0xD800#16, 0xFC10#16⟩]
  | .divImm _ _ _ => [⟨0xD850#16, 0xFC50#16⟩]
  | .div32 _ _ _ => [⟨0xD810#16, 0xFC50#16⟩]
  | .sl _ _ => [⟨0xDC00#16, 0xFC38#16⟩]
  | .slc _ _ => [⟨0xDC08#16, 0xFC38#16⟩]
  | .sr _ _ => [⟨0xDC10#16, 0xFC38#16⟩]
  | .src _ _ => [⟨0xDC18#16, 0xFC38#16⟩]
  | .sra _ _ => [⟨0xDC20#16, 0xFC38#16⟩]
  | .sac _ _ => [⟨0xDC28#16, 0xFC38#16⟩]
  | .ror _ _ => [⟨0xDC30#16, 0xFC38#16⟩]
  | .roc _ _ => [⟨0xDC38#16, 0xFC38#16⟩]
  | .jz _ => [⟨0xE000#16, 0xFE00#16⟩]
  | .jnz _ => [⟨0xE200#16, 0xFE00#16⟩]
  | .jc _ => [⟨0xE400#16, 0xFE00#16⟩]
  | .jnc _ => [⟨0xE600#16, 0xFE00#16⟩]
  | .jn _ => [⟨0xE800#16, 0xFE00#16⟩]
  | .jnn _ => [⟨0xEA00#16, 0xFE00#16⟩]
  | .jv _ => [⟨0xEC00#16, 0xFE00#16⟩]
  | .jnv _ => [⟨0xEE00#16, 0xFE00#16⟩]
  | .lds _ _ _ => [⟨0xF000#16, 0xFC00#16⟩]
  | .sts _ _ _ => [⟨0xF400#16, 0xFC00#16⟩]
  | .mov _ _ _ => [⟨0xF800#16, 0xFC00#16⟩]
  | .lsi _ _ => [⟨0xFC00#16, 0xFE00#16⟩]
  | .swb _ => [⟨0xFE00#16, 0xFFF0#16⟩]
  | .inv _ => [⟨0xFE10#16, 0xFFF0#16⟩]
  | .neg _ => [⟨0xFE20#16, 0xFFF0#16⟩]
  | .jml _ => [⟨0xFE30#16, 0xFFF0#16⟩]
  | .srs _ => [⟨0xFE40#16, 0xFFF0#16⟩]
  | .srd _ => [⟨0xFE50#16, 0xFFF0#16⟩]
  | .ers _ => [⟨0xFE60#16, 0xFFF0#16⟩]
  | .erd _ => [⟨0xFE70#16, 0xFFF0#16⟩]
  | .set _ => [⟨0xFE80#16, 0xFFF0#16⟩]
  | .clr _ => [⟨0xFE90#16, 0xFFF0#16⟩]
  | .set2 _ => [⟨0xFEA0#16, 0xFFF0#16⟩]
  | .clr2 _ => [⟨0xFEB0#16, 0xFFF0#16⟩]
  | .seti => [⟨0xFEA1#16, 0xFFFF#16⟩]
  | .clri => [⟨0xFEB1#16, 0xFFFF#16⟩]
  | .sopReserved _ _ => [⟨0xFEC0#16, 0xFFC0#16⟩]
  | .mvsRead _ _ => [⟨0xFF00#16, 0xFFC0#16⟩]
  | .mvsWrite _ _ => [⟨0xFF40#16, 0xFFC0#16⟩]
  | .smv _ _ => [⟨0xFF80#16, 0xFFC0#16⟩]
  | .nop => [⟨0xFFF0#16, 0xFFFF#16⟩]
  | .hlt => [⟨0xFFF1#16, 0xFFFF#16⟩]
  | .swi => [⟨0xFFF2#16, 0xFFFF#16⟩]
  | .reti => [⟨0xFFF3#16, 0xFFFF#16⟩]
  | .sysReserved _ => [⟨0xFFF4#16, 0xFFFC#16⟩]
  | .unrecognized _ => [⟨0xFFC0#16, 0xFFE0#16⟩, ⟨0xFFE0#16, 0xFFF0#16⟩, ⟨0xFFF8#16, 0xFFFC#16⟩, ⟨0xFFFC#16, 0xFFFE#16⟩, ⟨0xFFFE#16, 0xFFFF#16⟩]

/-- The word has the fixed bits of a row. -/
def Row.fits (r : Row) (w : Word) : Bool := w &&& r.mask == r.pattern

/-- The word of a well-formed instruction has the fixed bits of a row of that instruction. -/
def Statement (i : Instr) : Prop := i.wellFormed = true → (rowsOf i).any (fun r => r.fits (encode i)) = true

/-- Bit 0 of a register field says whether the index is odd. -/
theorem regBits_bit_zero (r : Reg) : (regBits r)[0] = isOdd r := by
  revert r; decide

/-! The fixed bits of each shape of word. -/

theorem fixed_encodeAlu (op : BitVec 3) (rd : Reg) (w : Bool) (v : BitVec 5) : encodeAlu op rd w v &&& 0xFC00#16 = encodeAlu op 0 false 0 &&& 0xFC00#16 := by
  ext i hi
  simp only [encodeAlu, BitVec.getElem_and, BitVec.getElem_append]
  interval_cases i <;> simp

theorem fixed_encodeShift (t : BitVec 3) (rd : Reg) (n : BitVec 3) : encodeShift t rd n &&& 0xFC38#16 = encodeShift t 0 0 &&& 0xFC38#16 := by
  ext i hi
  simp only [encodeShift, BitVec.getElem_and, BitVec.getElem_append]
  interval_cases i <;> simp

theorem fixed_encodeJump (c : BitVec 3) (off9 : BitVec 9) : encodeJump c off9 &&& 0xFE00#16 = encodeJump c 0 &&& 0xFE00#16 := by
  ext i hi
  simp only [encodeJump, BitVec.getElem_and, BitVec.getElem_append]
  interval_cases i <;> simp

theorem fixed_encodeSop (t rx : BitVec 4) : encodeSop t rx &&& 0xFFF0#16 = encodeSop t 0 &&& 0xFFF0#16 := by
  ext i hi
  simp only [encodeSop, BitVec.getElem_and, BitVec.getElem_append]
  interval_cases i <;> simp

theorem fixed_encodeLdsSts (d : BitVec 1) (seg : SegReg) (rd rs : Reg) : encodeLdsSts d seg rd rs &&& 0xFC00#16 = encodeLdsSts d .cs 0 0 &&& 0xFC00#16 := by
  ext i hi
  simp only [encodeLdsSts, BitVec.getElem_and, BitVec.getElem_append]
  interval_cases i <;> simp

theorem fixed_encodeMvs (d : BitVec 1) (rd : Reg) (seg : SegReg) : encodeMvs d rd seg &&& 0xFFC0#16 = encodeMvs d 0 .cs &&& 0xFFC0#16 := by
  ext i hi
  simp only [encodeMvs, BitVec.getElem_and, BitVec.getElem_append]
  interval_cases i <;> simp

theorem fixed_encodeAlu_immediate (op : BitVec 3) (rd : Reg) (w : Bool) (v : BitVec 4) :
    encodeAlu op rd w (1#1 ++ v) &&& 0xFC50#16 = encodeAlu op (if isOdd rd then 1 else 0) false 0b10000#5 &&& 0xFC50#16 := by
  ext i hi
  simp only [encodeAlu, BitVec.getElem_and, BitVec.getElem_append]
  have e : isOdd (if isOdd rd = true then 1 else 0) = isOdd rd := by cases isOdd rd <;> rfl
  interval_cases i <;> simp [regBits_bit_zero, e]

theorem fixed_encodeAlu_register (op : BitVec 3) (rd : Reg) (w : Bool) (v : BitVec 4) :
    encodeAlu op rd w (0#1 ++ v) &&& 0xFC10#16 = encodeAlu op 0 false 0 &&& 0xFC10#16 := by
  ext i hi
  simp only [encodeAlu, BitVec.getElem_and, BitVec.getElem_append]
  interval_cases i <;> simp

/-- One row: the fixed bits of the word are the row's. -/
theorem of_one_row {i : Instr} (r : Row) (h : rowsOf i = [r]) (e : encode i &&& r.mask = r.pattern) : Statement i := by
  intro _
  simp [h, Row.fits, e]

theorem halt : Statement (.halt) := by intro _; decide

theorem ldi (imm15 : BitVec 15) : Statement (.ldi imm15) := by
  refine of_one_row _ rfl ?_
  ext i hi
  simp only [encode, BitVec.getElem_and, BitVec.getElem_append]
  interval_cases i <;> simp

theorem ld (rd : Reg) (rb : Reg) (off5 : BitVec 5) : Statement (.ld rd rb off5) := by
  refine of_one_row _ rfl ?_
  ext i hi
  simp only [encode, BitVec.getElem_and, BitVec.getElem_append]
  interval_cases i <;> simp

theorem st (rd : Reg) (rb : Reg) (off5 : BitVec 5) : Statement (.st rd rb off5) := by
  refine of_one_row _ rfl ?_
  ext i hi
  simp only [encode, BitVec.getElem_and, BitVec.getElem_append]
  interval_cases i <;> simp

theorem add (rd : Reg) (w : Bool) (b : AluOperand) : Statement (.add rd w b) :=
  of_one_row _ rfl ((fixed_encodeAlu _ _ _ _).trans (by decide))

theorem sub (rd : Reg) (w : Bool) (b : AluOperand) : Statement (.sub rd w b) :=
  of_one_row _ rfl ((fixed_encodeAlu _ _ _ _).trans (by decide))

theorem and (rd : Reg) (w : Bool) (b : AluOperand) : Statement (.and rd w b) :=
  of_one_row _ rfl ((fixed_encodeAlu _ _ _ _).trans (by decide))

theorem or (rd : Reg) (w : Bool) (b : AluOperand) : Statement (.or rd w b) :=
  of_one_row _ rfl ((fixed_encodeAlu _ _ _ _).trans (by decide))

theorem xor (rd : Reg) (w : Bool) (b : AluOperand) : Statement (.xor rd w b) :=
  of_one_row _ rfl ((fixed_encodeAlu _ _ _ _).trans (by decide))

theorem mul (rd : Reg) (w : Bool) (rs : Reg) : Statement (.mul rd w rs) :=
  of_one_row _ rfl ((fixed_encodeAlu_register _ _ _ _).trans (by decide))

theorem mulImm (rd : Reg) (w : Bool) (imm4 : BitVec 4) : Statement (.mulImm rd w imm4) := by
  intro h
  replace h : isOdd rd = true := h
  have e : encode (.mulImm rd w imm4) &&& 0xFC50#16 = 0xD450#16 :=
    (fixed_encodeAlu_immediate 5 rd w imm4).trans (by simp only [h]; decide)
  simp [rowsOf, Row.fits, e]

theorem mul32 (rd : Reg) (w : Bool) (imm4 : BitVec 4) : Statement (.mul32 rd w imm4) := by
  intro h
  replace h : isOdd rd = false := by simpa [Instr.wellFormed] using h
  have e : encode (.mul32 rd w imm4) &&& 0xFC50#16 = 0xD410#16 :=
    (fixed_encodeAlu_immediate 5 rd w imm4).trans (by simp only [h]; decide)
  simp [rowsOf, Row.fits, e]

theorem div (rd : Reg) (w : Bool) (rs : Reg) : Statement (.div rd w rs) :=
  of_one_row _ rfl ((fixed_encodeAlu_register _ _ _ _).trans (by decide))

theorem divImm (rd : Reg) (w : Bool) (imm4 : BitVec 4) : Statement (.divImm rd w imm4) := by
  intro h
  replace h : isOdd rd = true := h
  have e : encode (.divImm rd w imm4) &&& 0xFC50#16 = 0xD850#16 :=
    (fixed_encodeAlu_immediate 6 rd w imm4).trans (by simp only [h]; decide)
  simp [rowsOf, Row.fits, e]

theorem div32 (rd : Reg) (w : Bool) (imm4 : BitVec 4) : Statement (.div32 rd w imm4) := by
  intro h
  replace h : isOdd rd = false := by simpa [Instr.wellFormed] using h
  have e : encode (.div32 rd w imm4) &&& 0xFC50#16 = 0xD810#16 :=
    (fixed_encodeAlu_immediate 6 rd w imm4).trans (by simp only [h]; decide)
  simp [rowsOf, Row.fits, e]

theorem sl (rd : Reg) (count : BitVec 3) : Statement (.sl rd count) :=
  of_one_row _ rfl ((fixed_encodeShift _ _ _).trans (by decide))

theorem slc (rd : Reg) (count : BitVec 3) : Statement (.slc rd count) :=
  of_one_row _ rfl ((fixed_encodeShift _ _ _).trans (by decide))

theorem sr (rd : Reg) (count : BitVec 3) : Statement (.sr rd count) :=
  of_one_row _ rfl ((fixed_encodeShift _ _ _).trans (by decide))

theorem src (rd : Reg) (count : BitVec 3) : Statement (.src rd count) :=
  of_one_row _ rfl ((fixed_encodeShift _ _ _).trans (by decide))

theorem sra (rd : Reg) (count : BitVec 3) : Statement (.sra rd count) :=
  of_one_row _ rfl ((fixed_encodeShift _ _ _).trans (by decide))

theorem sac (rd : Reg) (count : BitVec 3) : Statement (.sac rd count) :=
  of_one_row _ rfl ((fixed_encodeShift _ _ _).trans (by decide))

theorem ror (rd : Reg) (count : BitVec 3) : Statement (.ror rd count) :=
  of_one_row _ rfl ((fixed_encodeShift _ _ _).trans (by decide))

theorem roc (rd : Reg) (count : BitVec 3) : Statement (.roc rd count) :=
  of_one_row _ rfl ((fixed_encodeShift _ _ _).trans (by decide))

theorem jz (off9 : BitVec 9) : Statement (.jz off9) :=
  of_one_row _ rfl ((fixed_encodeJump _ _).trans (by decide))

theorem jnz (off9 : BitVec 9) : Statement (.jnz off9) :=
  of_one_row _ rfl ((fixed_encodeJump _ _).trans (by decide))

theorem jc (off9 : BitVec 9) : Statement (.jc off9) :=
  of_one_row _ rfl ((fixed_encodeJump _ _).trans (by decide))

theorem jnc (off9 : BitVec 9) : Statement (.jnc off9) :=
  of_one_row _ rfl ((fixed_encodeJump _ _).trans (by decide))

theorem jn (off9 : BitVec 9) : Statement (.jn off9) :=
  of_one_row _ rfl ((fixed_encodeJump _ _).trans (by decide))

theorem jnn (off9 : BitVec 9) : Statement (.jnn off9) :=
  of_one_row _ rfl ((fixed_encodeJump _ _).trans (by decide))

theorem jv (off9 : BitVec 9) : Statement (.jv off9) :=
  of_one_row _ rfl ((fixed_encodeJump _ _).trans (by decide))

theorem jnv (off9 : BitVec 9) : Statement (.jnv off9) :=
  of_one_row _ rfl ((fixed_encodeJump _ _).trans (by decide))

theorem lds (seg : SegReg) (rd : Reg) (rs : Reg) : Statement (.lds seg rd rs) :=
  of_one_row _ rfl ((fixed_encodeLdsSts _ _ _ _).trans (by decide))

theorem sts (seg : SegReg) (rd : Reg) (rs : Reg) : Statement (.sts seg rd rs) :=
  of_one_row _ rfl ((fixed_encodeLdsSts _ _ _ _).trans (by decide))

theorem mov (rd : Reg) (rs : Reg) (imm2 : BitVec 2) : Statement (.mov rd rs imm2) := by
  refine of_one_row _ rfl ?_
  ext i hi
  simp only [encode, BitVec.getElem_and, BitVec.getElem_append]
  interval_cases i <;> simp

theorem lsi (rd : Reg) (imm5 : BitVec 5) : Statement (.lsi rd imm5) := by
  refine of_one_row _ rfl ?_
  ext i hi
  simp only [encode, BitVec.getElem_and, BitVec.getElem_append]
  interval_cases i <;> simp

theorem swb (rx : Reg) : Statement (.swb rx) :=
  of_one_row _ rfl ((fixed_encodeSop _ _).trans (by decide))

theorem inv (rx : Reg) : Statement (.inv rx) :=
  of_one_row _ rfl ((fixed_encodeSop _ _).trans (by decide))

theorem neg (rx : Reg) : Statement (.neg rx) :=
  of_one_row _ rfl ((fixed_encodeSop _ _).trans (by decide))

theorem jml (rx : Reg) : Statement (.jml rx) :=
  of_one_row _ rfl ((fixed_encodeSop _ _).trans (by decide))

theorem srs (r : Reg) : Statement (.srs r) :=
  of_one_row _ rfl ((fixed_encodeSop _ _).trans (by decide))

theorem srd (r : Reg) : Statement (.srd r) :=
  of_one_row _ rfl ((fixed_encodeSop _ _).trans (by decide))

theorem ers (r : Reg) : Statement (.ers r) :=
  of_one_row _ rfl ((fixed_encodeSop _ _).trans (by decide))

theorem erd (r : Reg) : Statement (.erd r) :=
  of_one_row _ rfl ((fixed_encodeSop _ _).trans (by decide))

theorem set (mask : BitVec 4) : Statement (.set mask) :=
  of_one_row _ rfl ((fixed_encodeSop _ _).trans (by decide))

theorem clr (mask : BitVec 4) : Statement (.clr mask) :=
  of_one_row _ rfl ((fixed_encodeSop _ _).trans (by decide))

theorem set2 (mask : BitVec 4) : Statement (.set2 mask) :=
  of_one_row _ rfl ((fixed_encodeSop _ _).trans (by decide))

theorem clr2 (mask : BitVec 4) : Statement (.clr2 mask) :=
  of_one_row _ rfl ((fixed_encodeSop _ _).trans (by decide))

theorem seti : Statement (.seti) := by intro _; decide

theorem clri : Statement (.clri) := by intro _; decide

theorem sopReserved (t : BitVec 2) (rx : Reg) : Statement (.sopReserved t rx) := by
  refine of_one_row _ rfl ?_
  ext i hi
  simp only [encode, encodeSop, BitVec.getElem_and, BitVec.getElem_append]
  interval_cases i <;> simp

theorem mvsRead (rd : Reg) (seg : SegReg) : Statement (.mvsRead rd seg) :=
  of_one_row _ rfl ((fixed_encodeMvs _ _ _).trans (by decide))

theorem mvsWrite (rd : Reg) (seg : SegReg) : Statement (.mvsWrite rd seg) :=
  of_one_row _ rfl ((fixed_encodeMvs _ _ _).trans (by decide))

theorem smv (src : SmvSrc) (rd : Reg) : Statement (.smv src rd) := by
  refine of_one_row _ rfl ?_
  ext i hi
  simp only [encode, BitVec.getElem_and, BitVec.getElem_append]
  interval_cases i <;> simp

theorem nop : Statement (.nop) := by intro _; decide

theorem hlt : Statement (.hlt) := by intro _; decide

theorem swi : Statement (.swi) := by intro _; decide

theorem reti : Statement (.reti) := by intro _; decide

theorem sysReserved (op : BitVec 2) : Statement (.sysReserved op) := by
  refine of_one_row _ rfl ?_
  ext i hi
  simp only [encode, encodeSystem, BitVec.getElem_and, BitVec.getElem_append]
  interval_cases i <;> simp

theorem unrecognized (w : Word) : Statement (.unrecognized w) := by
  intro h
  have hr : isUnrecognizedWord w = true := h
  obtain ⟨n, hn, rfl⟩ : ∃ n, n < 63 ∧ w = BitVec.ofNat 16 (0xFFC0 + n) := by
    simp only [isUnrecognizedWord, Bool.or_eq_true, Bool.and_eq_true, decide_eq_true_eq] at hr
    refine ⟨w.toNat - 0xFFC0, by omega, BitVec.eq_of_toNat_eq ?_⟩
    simp only [BitVec.toNat_ofNat]
    omega
  clear h
  revert hr
  interval_cases n <;> decide

end Sys2Proof.Laws.EncodesRow
end

