-- ==== Sys2Proof/Laws/Text.lean ====
section
/-! SUPPORT. Reading back what is written: numbers, words in hexadecimal, operand lists, and the line of a mnemonic with its operands. -/

namespace Sys2Proof.Machine

/-! Digits and numbers. -/

theorem digitValue_digitChar_decimal : ∀ d : Fin 10, digitValue 10 (digitChar d.val) = some d.val := by decide

theorem digitValue_digitChar_hex : ∀ d : Fin 16, digitValue 16 (digitChar d.val) = some d.val := by decide

theorem digitsValue_append (base acc : Nat) (t u : Text) :
    digitsValue base acc (t ++ u) = (digitsValue base acc t).bind fun v => digitsValue base v u := by
  induction t generalizing acc with
  | nil => rfl
  | cons c rest ih =>
    simp only [List.cons_append, digitsValue]
    cases digitValue base c with
    | none => rfl
    | some v => exact ih _

/-- The decimal text of a number below `10 ^ fuel` is read back as that number, after nothing. -/
theorem digitsValue_decimalText (fuel n : Nat) (h : n < 10 ^ fuel) (hf : 0 < fuel) :
    digitsValue 10 0 (decimalText fuel n) = some n := by
  induction fuel generalizing n with
  | zero => omega
  | succ fuel ih =>
    unfold decimalText
    by_cases hn : n < 10
    · rw [if_pos hn]
      simp [digitsValue, digitValue_digitChar_decimal ⟨n, hn⟩]
    · rw [if_neg hn, digitsValue_append]
      have hfuel : 0 < fuel := by
        rcases Nat.eq_zero_or_pos fuel with rfl | hp
        · simp at h; omega
        · exact hp
      rw [ih (n / 10) (by rw [Nat.pow_succ] at h; omega) hfuel]
      simp [digitsValue, digitValue_digitChar_decimal ⟨n % 10, Nat.mod_lt _ (by omega)⟩]
      omega

theorem decimalText_ne_nil (fuel n : Nat) (hf : 0 < fuel) : decimalText fuel n ≠ [] := by
  cases fuel with
  | zero => omega
  | succ fuel => unfold decimalText; split <;> simp

/-- Every character of a decimal text is a decimal digit. -/
theorem mem_decimalText {fuel n : Nat} {c : Char} (h : c ∈ decimalText fuel n) : ∃ d : Fin 10, c = digitChar d.val := by
  induction fuel generalizing n with
  | zero => simp [decimalText] at h
  | succ fuel ih =>
    unfold decimalText at h
    by_cases hn : n < 10
    · rw [if_pos hn] at h
      exact ⟨⟨n, hn⟩, by simpa using h⟩
    · rw [if_neg hn] at h
      rcases List.mem_append.mp h with h' | h'
      · exact ih h'
      · exact ⟨⟨n % 10, Nat.mod_lt _ (by omega)⟩, by simpa using h'⟩

/-- A text of decimal digits alone is read as decimal. -/
theorem parseNat_of_digits {t : Text} (hne : t ≠ []) (h : ∀ c ∈ t, ∃ d : Fin 10, c = digitChar d.val) :
    parseNat t = digitsValue 10 0 t := by
  have hx : ∀ d : Fin 10, digitChar d.val ≠ 'x' := by decide
  have hd : ∀ d : Fin 10, digitChar d.val ≠ '$' := by decide
  have hhex : parseHex t = none := by
    unfold parseHex
    split
    · obtain ⟨d, hd'⟩ := h 'x' (by simp)
      exact absurd hd'.symm (hx d)
    · obtain ⟨d, hd'⟩ := h '$' (by simp)
      exact absurd hd'.symm (hd d)
    · rfl
  unfold parseNat
  rw [hhex]
  cases t with
  | nil => exact absurd rfl hne
  | cons c rest => rfl

/-- A number below 100000 is read back. -/
theorem parseNat_natText {n : Nat} (h : n < 100000) : parseNat (natText n) = some n := by
  unfold natText
  rw [parseNat_of_digits (decimalText_ne_nil 5 n (by omega)) (fun c hc => mem_decimalText hc)]
  exact digitsValue_decimalText 5 n (by simpa using h) (by omega)

/-- The four hexadecimal digits of a word are read back, after `0x`. -/
theorem parseHex_hexText (w : Word) : parseHex ('0' :: 'x' :: hexText w) = some w.toNat := by
  have hw := w.isLt
  have d3 := digitValue_digitChar_hex ⟨w.toNat / 4096, by omega⟩
  have d2 := digitValue_digitChar_hex ⟨w.toNat / 256 % 16, by omega⟩
  have d1 := digitValue_digitChar_hex ⟨w.toNat / 16 % 16, by omega⟩
  have d0 := digitValue_digitChar_hex ⟨w.toNat % 16, by omega⟩
  simp only at d3 d2 d1 d0
  simp only [parseHex, hexText, numeral, digitsValue, d3, d2, d1, d0]
  congr 1
  omega

/-- An unsigned immediate of at most 16 bits is read back. -/
theorem parseUnsigned_immText {n : Nat} (v : BitVec n) (hn : n ≤ 16) : parseUnsigned n (immText v) = some v := by
  have hlt : v.toNat < 2 ^ n := v.isLt
  have h16 : 2 ^ n ≤ 2 ^ 16 := Nat.pow_le_pow_right (by omega) hn
  unfold parseUnsigned immText
  rw [parseNat_natText (by omega)]
  simp [hlt]

/-! Texts without blanks and commas, and the lists made of them. -/

/-- A text that is one operand: not empty, without blanks and commas. -/
def IsOperand (t : Text) : Prop := t ≠ [] ∧ ∀ c ∈ t, isBlank c = false ∧ c ≠ ','

theorem isOperand_natText (n : Nat) : IsOperand (natText n) := by
  refine ⟨decimalText_ne_nil 5 n (by omega), fun c hc => ?_⟩
  obtain ⟨d, rfl⟩ := mem_decimalText hc
  exact (by decide : ∀ d : Fin 10, isBlank (digitChar d.val) = false ∧ digitChar d.val ≠ ',') d

theorem trimLeft_of_noBlank {t : Text} (h : ∀ c ∈ t, isBlank c = false) : trimLeft t = t := by
  cases t with
  | nil => rfl
  | cons c rest => simp [trimLeft, h c (by simp)]

theorem trim_of_noBlank {t : Text} (h : ∀ c ∈ t, isBlank c = false) : trim t = t := by
  unfold trim
  rw [trimLeft_of_noBlank h, trimLeft_of_noBlank (by simpa using h), List.reverse_reverse]

theorem trim_space (t : Text) : trim (' ' :: t) = trim t := rfl

theorem trim_ne_nil {t u : Text} (h : IsOperand t) : trim (t ++ u) ≠ [] := by
  obtain ⟨hne, hb⟩ := h
  cases t with
  | nil => exact absurd rfl hne
  | cons c rest =>
    have hc := (hb c (by simp)).1
    have key : ∀ v : Text, v ≠ [] → (∃ d ∈ v, isBlank d = false) → trimLeft v ≠ [] := by
      intro v
      induction v with
      | nil => intro h; exact absurd rfl h
      | cons d r ih =>
        intro _ he
        unfold trimLeft
        split
        · obtain ⟨e, he, hne⟩ := he
          rcases List.mem_cons.mp he with rfl | h'
          · simp_all
          · exact ih (by intro hr; simp [hr] at h') ⟨e, h', hne⟩
        · simp
    unfold trim
    have hl : trimLeft (c :: rest ++ u) = c :: rest ++ u := by simp [trimLeft, hc]
    rw [hl]
    intro h
    exact key _ (by simp) ⟨c, by simp, hc⟩ (List.reverse_eq_nil_iff.mp h)

/-- A text without the separator is one part. -/
theorem splitOn_of_not_mem {sep : Char} {t : Text} (h : ∀ c ∈ t, c ≠ sep) : splitOn sep t = [t] := by
  induction t with
  | nil => rfl
  | cons c rest ih =>
    have hc : (c == sep) = false := by simpa using h c (by simp)
    simp [splitOn, hc, ih (fun d hd => h d (by simp [hd]))]

/-- What stands before the first separator is the first part. -/
theorem splitOn_append {sep : Char} {t u : Text} (h : ∀ c ∈ t, c ≠ sep) : splitOn sep (t ++ sep :: u) = t :: splitOn sep u := by
  induction t with
  | nil => simp [splitOn]
  | cons c rest ih =>
    have hc : (c == sep) = false := by simpa using h c (by simp)
    simp [splitOn, hc, ih (fun d hd => h d (by simp [hd]))]

theorem splitCommas_noComma {t : Text} (h : ∀ c ∈ t, c ≠ ',') : splitCommas t = [t] := splitOn_of_not_mem h

theorem splitCommas_append {t u : Text} (h : ∀ c ∈ t, c ≠ ',') : splitCommas (t ++ ',' :: u) = t :: splitCommas u :=
  splitOn_append h

/-- The first line of a source text, and the lines after it. -/
theorem sourceLines_append {t u : Text} (h : ∀ c ∈ t, c ≠ '\n') : sourceLines (t ++ '\n' :: u) = t :: sourceLines u :=
  splitOn_append h

/-! The labels of a line. -/

/-- A text without a colon has no label. -/
theorem splitLabels_of_noColon {t : Text} (h : ∀ c ∈ t, c ≠ ':') : splitLabels t = ([], t) := by
  induction t with
  | nil => rfl
  | cons c rest ih =>
    have hc : (c == ':') = false := by simpa using h c (by simp)
    simp [splitLabels, hc, ih (fun d hd => h d (by simp [hd]))]

/-- What stands before the first colon is the first label. -/
theorem splitLabels_append {t u : Text} (h : ∀ c ∈ t, c ≠ ':') :
    splitLabels (t ++ ':' :: u) = (t :: (splitLabels u).1, (splitLabels u).2) := by
  induction t with
  | nil => simp [splitLabels]
  | cons c rest ih =>
    have hc : (c == ':') = false := by simpa using h c (by simp)
    simp [splitLabels, hc, ih (fun d hd => h d (by simp [hd]))]

/-- Nothing follows the last label of a text that ends in a colon (30_encoding.md R140). -/
theorem splitLabels_endsInColon (t : Text) : (splitLabels (t ++ [':'])).2 = [] ∧ (splitLabels (t ++ [':'])).1 ≠ [] := by
  induction t with
  | nil => simp [splitLabels]
  | cons c rest ih =>
    by_cases hc : (c == ':') = true
    · simp [splitLabels, hc, ih.1]
    · cases hs : splitLabels (rest ++ [':']) with
      | mk labels item =>
        rw [hs] at ih
        cases labels with
        | nil => exact absurd rfl ih.2
        | cons l ls => simpa [splitLabels, hc, hs] using ih.1

/-- One operand is read back. -/
theorem operandTexts_one {t : Text} (h : IsOperand t) : operandTexts (joinOperands [t]) = [t] := by
  have hb : trim t = t := trim_of_noBlank fun c hc => (h.2 c hc).1
  have hs := splitCommas_noComma fun c hc => (h.2 c hc).2
  simp only [operandTexts, joinOperands, hb, h.1, hs, if_false, List.map_cons, List.map_nil]

/-- Two operands are read back. -/
theorem operandTexts_two {t u : Text} (ht : IsOperand t) (hu : IsOperand u) : operandTexts (joinOperands [t, u]) = [t, u] := by
  have hbt : trim t = t := trim_of_noBlank fun c hc => (ht.2 c hc).1
  have hbu : trim u = u := trim_of_noBlank fun c hc => (hu.2 c hc).1
  have hs : ∀ c ∈ ' ' :: u, c ≠ ',' := by
    intro c hc
    rcases List.mem_cons.mp hc with rfl | hc
    · decide
    · exact (hu.2 c hc).2
  have e : splitCommas (t ++ ',' :: ' ' :: u) = [t, ' ' :: u] := by
    rw [splitCommas_append fun c hc => (ht.2 c hc).2, splitCommas_noComma hs]
  have hne : trim (t ++ ',' :: ' ' :: u) ≠ [] := trim_ne_nil ht
  simp only [operandTexts, joinOperands, e, hne, if_false, List.map_cons, List.map_nil, hbt, trim_space, hbu]

/-- Three operands are read back. -/
theorem operandTexts_three {t u v : Text} (ht : IsOperand t) (hu : IsOperand u) (hv : IsOperand v) :
    operandTexts (joinOperands [t, u, v]) = [t, u, v] := by
  have hbt : trim t = t := trim_of_noBlank fun c hc => (ht.2 c hc).1
  have hbu : trim u = u := trim_of_noBlank fun c hc => (hu.2 c hc).1
  have hbv : trim v = v := trim_of_noBlank fun c hc => (hv.2 c hc).1
  have hs : ∀ w : Text, IsOperand w → ∀ c ∈ ' ' :: w, c ≠ ',' := by
    intro w hw c hc
    rcases List.mem_cons.mp hc with rfl | hc
    · decide
    · exact (hw.2 c hc).2
  have e : splitCommas (' ' :: (u ++ ',' :: ' ' :: v)) = [' ' :: u, ' ' :: v] := by
    have := splitCommas_append (t := ' ' :: u) (u := ' ' :: v) (hs u hu)
    rw [List.cons_append] at this
    rw [this, splitCommas_noComma (hs v hv)]
  have e' : splitCommas (t ++ ',' :: ' ' :: (u ++ ',' :: ' ' :: v)) = [t, ' ' :: u, ' ' :: v] := by
    rw [splitCommas_append fun c hc => (ht.2 c hc).2, e]
  have hne : trim (t ++ ',' :: ' ' :: (u ++ ',' :: ' ' :: v)) ≠ [] := trim_ne_nil ht
  simp only [operandTexts, joinOperands, e', hne, if_false, List.map_cons, List.map_nil, hbt, trim_space, hbu, hbv]

/-- A mnemonic before a blank is the first token. -/
theorem splitFirstToken_append {t : Text} (h : ∀ c ∈ t, isBlank c = false) (u : Text) :
    splitFirstToken (t ++ ' ' :: u) = (t, u) := by
  induction t with
  | nil => rfl
  | cons c rest ih =>
    simp [splitFirstToken, h c (by simp), ih (fun d hd => h d (by simp [hd]))]

/-- A mnemonic alone is the first token, and nothing follows. -/
theorem splitFirstToken_alone {t : Text} (h : ∀ c ∈ t, isBlank c = false) : splitFirstToken t = (t, []) := by
  induction t with
  | nil => rfl
  | cons c rest ih =>
    simp [splitFirstToken, h c (by simp), ih (fun d hd => h d (by simp [hd]))]

/-! Register, segment and source names, and signed fields. -/

theorem isOperand_regText (r : Reg) : IsOperand (regText r) := by
  refine ⟨by simp [regText], fun c hc => ?_⟩
  rcases List.mem_cons.mp hc with rfl | hc
  · decide
  · exact (isOperand_natText r.val).2 c hc

theorem isOperand_immText {n : Nat} (v : BitVec n) : IsOperand (immText v) := isOperand_natText v.toNat

theorem parseReg_regText : ∀ r : Reg, parseReg (regText r) = some r := by decide

theorem parseSeg_segText : ∀ k : SegReg, parseSeg (segText k) = some k := by
  intro k; cases k <;> decide

theorem parseSmvSrc_smvSrcText : ∀ k : SmvSrc, parseSmvSrc (smvSrcText k) = some k := by
  intro k; cases k <;> decide

/-- An offset or short immediate is read back from its signed text. -/
theorem parseInt_intText {plus : Text} (hplus : plus = [] ∨ plus = ['+']) {i : Int} (h : i.natAbs < 100000) :
    parseInt (intText plus i) = some i := by
  have hnat := parseNat_natText h
  unfold intText
  by_cases hi : i < 0
  · rw [if_pos hi]
    simp only [parseInt, hnat, Option.map_some]
    congr 1
    omega
  · rw [if_neg hi]
    rcases hplus with rfl | rfl
    · rw [List.nil_append]
      have hne : ∀ c ∈ natText i.natAbs, c ≠ '-' ∧ c ≠ '+' := by
        intro c hc
        obtain ⟨d, rfl⟩ := mem_decimalText hc
        exact (by decide : ∀ d : Fin 10, digitChar d.val ≠ '-' ∧ digitChar d.val ≠ '+') d
      unfold parseInt
      split
      · next h1 => exact absurd rfl (hne '-' (by rw [h1]; simp)).1
      · next h1 => exact absurd rfl (hne '+' (by rw [h1]; simp)).2
      · rw [hnat, Option.map_some]
        congr 1
        omega
    · simp only [List.cons_append, List.nil_append, parseInt, hnat, Option.map_some]
      congr 1
      omega

theorem signedField_toInt {n : Nat} (v : BitVec n) : signedField n v.toInt = some v := by
  have hlo := BitVec.le_toInt v
  have hhi := BitVec.toInt_lt (x := v)
  unfold signedField
  rw [if_pos ⟨hlo, hhi⟩, BitVec.ofInt_toInt]

end Sys2Proof.Machine
end

