-- ==== Sys2Proof/Tests/Slice0.lean ====
section
/-! SUPPORT. Tests, all by evaluation: the well-formedness checks, the decoding of words written out from the formats of 30_encoding.md, single steps whose expected values are those of 95_test_vectors.md (named in each comment), assembler lines, and a witness for the hypotheses of each obligation. -/

namespace Sys2Proof.Tests

open Sys2Proof.Machine Sys2Proof.Claims

/-! Helpers. The start state is that of 95_test_vectors.md section 0: CS = 0, PC = 0x0010, everything else 0, memory `0xFFFF`. -/

/-- The start state with a PSW and some registers. -/
def base (psw : Word) (regs : List (Reg × Word)) : State :=
  regs.foldl (fun s p => s.setReg p.1 p.2)
    { State.resetWith (Vector.replicate 16 0xFFFF#16) with cs := 0, psw := psw, x := resetRegs.set 15 0x0010#16 }

/-- The start state with DS = 0x1000, SS = 0x2000, ES = 0x3000 (95_test_vectors.md 2.6). -/
def segs (psw : Word) (regs : List (Reg × Word)) : State :=
  { base psw regs with ds := 0x1000, ss := 0x2000, es := 0x3000 }

/-- A state with a pending transfer to PC 0x0014 (95_test_vectors.md V126 and on, after the jump's own step). -/
def slot (s : State) : State := { s with pend := some { targetPc := 0x0014, targetCs := none } }

/-- A state with one word of memory placed. -/
def poke (s : State) (pa : Nat) (v : Word) : State := { s with mem := s.mem.writeWord pa v }

/-- The state of a next outcome. -/
def nextOf (o : Host.Outcome State Fault Refusal) : Option State :=
  match o with
  | .next t => some t
  | .fault _ => none
  | .refused _ => none

/-- Why an outcome is refused. -/
def refusalOf (o : Host.Outcome State Fault Refusal) : Option Refusal :=
  match o with
  | .next _ => none
  | .fault _ => none
  | .refused r => some r

/-- One step over a word placed at the fetch address. -/
def run (w : Nat) (s : State) : Option State := nextOf (step (s.withFetchWord 16 w))

/-- The state after one step over a word (the start state where the step answers none). -/
def after (w : Nat) (s : State) : State := (run w s).getD s

/-- One register after one step over a word. -/
def runReg (w : Nat) (s : State) (r : Reg) : Option Word := (run w s).map (·.reg r)

/-- A PSW that was `p`, with N, Z and C given and V as the machine's own rule gives it. -/
def pswAfter (p : Word) (n z c : Bool) (op : AluClass) (a b : Word) (raw : Int) : Word :=
  pswWithFlags p n z (Config.overflowRule op a b raw) c

/-! Well-formedness: each check refuses an ill-formed term, and accepts its neighbour. -/

theorem test_wellFormed_mulImm_odd : (Instr.mulImm 2 true 3).wellFormed = false ∧ (Instr.mulImm 3 true 3).wellFormed = true := by decide
theorem test_wellFormed_divImm_odd : (Instr.divImm 14 true 3).wellFormed = false ∧ (Instr.divImm 15 true 3).wellFormed = true := by decide
theorem test_wellFormed_mul32_even : (Instr.mul32 1 true 3).wellFormed = false ∧ (Instr.mul32 0 true 3).wellFormed = true := by decide
theorem test_wellFormed_div32_even : (Instr.div32 15 false 3).wellFormed = false ∧ (Instr.div32 14 false 3).wellFormed = true := by decide
theorem test_wellFormed_set2_not_seti : (Instr.set2 1).wellFormed = false ∧ (Instr.set2 2).wellFormed = true := by decide
theorem test_wellFormed_clr2_not_clri : (Instr.clr2 1).wellFormed = false ∧ (Instr.clr2 0).wellFormed = true := by decide
theorem test_wellFormed_unrecognized : (Instr.unrecognized 0xFFF4).wellFormed = false ∧ (Instr.unrecognized 0xFFBF).wellFormed = false ∧
    (Instr.unrecognized 0xFFFF).wellFormed = false ∧ (Instr.unrecognized 0xFFC0).wellFormed = true ∧ (Instr.unrecognized 0xFFFE).wellFormed = true := by decide

/-! Decoding: a word for every constructor, its fields written out from the formats of 30_encoding.md R104 to R115 (most significant bit first). -/

/-- 30_encoding.md R101, R104. -/
theorem test_decode_halt_ldi :
    decode 0b1111111111111111#16 = .halt ∧
    decode 0b0000000000000000#16 = .ldi 0 ∧
    decode 0b0101001000110100#16 = .ldi 0x5234 := by decide

/-- 30_encoding.md R105, R109. -/
theorem test_decode_loads_stores :
    decode 0b1000001000000101#16 = .ld 1 0 5 ∧
    decode 0b1011111111111111#16 = .st 15 15 31 ∧
    decode 0b1010001001001111#16 = .st 1 2 15 ∧
    decode 0b1111001100010010#16 = .lds .es 1 2 ∧
    decode 0b1111010000010010#16 = .sts .cs 1 2 := by decide

/-- 30_encoding.md R106, R116. -/
theorem test_decode_arithmetic :
    decode 0b1100000000100001#16 = .add 0 true (.reg 1) ∧
    decode 0b1100010010110001#16 = .sub 2 true (.imm 1) ∧
    decode 0b1100100100100101#16 = .and 4 true (.reg 5) ∧
    decode 0b1100110000011111#16 = .or 0 false (.imm 15) ∧
    decode 0b1101000100100100#16 = .xor 4 true (.reg 4) := by decide

/-- 30_encoding.md R117. -/
theorem test_decode_multiply_divide :
    decode 0b1101010011100100#16 = .mul 3 true 4 ∧
    decode 0b1101010011110111#16 = .mulImm 3 true 7 ∧
    decode 0b1101010010111010#16 = .mul32 2 true 10 ∧
    decode 0b1101100001100010#16 = .div 1 true 2 ∧
    decode 0b1101101111011111#16 = .divImm 15 false 15 ∧
    decode 0b1101100010110111#16 = .div32 2 true 7 := by decide

/-- 30_encoding.md R107, R119. -/
theorem test_decode_shifts :
    decode 0b1101110001000001#16 = .sl 1 1 ∧
    decode 0b1101110001001010#16 = .slc 1 2 ∧
    decode 0b1101110001010011#16 = .sr 1 3 ∧
    decode 0b1101110001011100#16 = .src 1 4 ∧
    decode 0b1101110001100101#16 = .sra 1 5 ∧
    decode 0b1101110001101110#16 = .sac 1 6 ∧
    decode 0b1101110001110111#16 = .ror 1 7 ∧
    decode 0b1101110001111000#16 = .roc 1 0 := by decide

/-- 30_encoding.md R108, R118. -/
theorem test_decode_jumps :
    decode 0b1110000000000101#16 = .jz 5 ∧
    decode 0b1110001111111010#16 = .jnz 506 ∧
    decode 0b1110010000000001#16 = .jc 1 ∧
    decode 0b1110011000000010#16 = .jnc 2 ∧
    decode 0b1110100100000000#16 = .jn 256 ∧
    decode 0b1110101011111111#16 = .jnn 255 ∧
    decode 0b1110110000000011#16 = .jv 3 ∧
    decode 0b1110111111111111#16 = .jnv 511 := by decide

/-- 30_encoding.md R110, R111, R113, R114. -/
theorem test_decode_moves :
    decode 0b1111100011000010#16 = .mov 3 0 2 ∧
    decode 0b1111110001111111#16 = .lsi 3 0b11111 ∧
    decode 0b1111111100000101#16 = .mvsRead 1 .ds ∧
    decode 0b1111111101001000#16 = .mvsWrite 2 .cs ∧
    decode 0b1111111110100001#16 = .smv .psw 1 := by decide

/-- 30_encoding.md R112, R120. -/
theorem test_decode_sop_registers :
    decode 0b1111111000000001#16 = .swb 1 ∧
    decode 0b1111111000010010#16 = .inv 2 ∧
    decode 0b1111111000100011#16 = .neg 3 ∧
    decode 0b1111111000110100#16 = .jml 4 ∧
    decode 0b1111111001001101#16 = .srs 13 ∧
    decode 0b1111111001011100#16 = .srd 12 ∧
    decode 0b1111111001101011#16 = .ers 11 ∧
    decode 0b1111111001111010#16 = .erd 10 := by decide

/-- 30_encoding.md R112, R120, R133, R146. -/
theorem test_decode_sop_masks :
    decode 0b1111111010001111#16 = .set 15 ∧
    decode 0b1111111010010010#16 = .clr 2 ∧
    decode 0b1111111010100010#16 = .set2 2 ∧
    decode 0b1111111010111111#16 = .clr2 15 ∧
    decode 0b1111111010100001#16 = .seti ∧
    decode 0b1111111010110001#16 = .clri ∧
    decode 0b1111111011000101#16 = .sopReserved 0 5 ∧
    decode 0b1111111011111111#16 = .sopReserved 3 15 := by decide

/-- 30_encoding.md R115, R121, R132, R133. -/
theorem test_decode_system :
    decode 0b1111111111110000#16 = .nop ∧
    decode 0b1111111111110001#16 = .hlt ∧
    decode 0b1111111111110010#16 = .swi ∧
    decode 0b1111111111110011#16 = .reti ∧
    decode 0b1111111111110100#16 = .sysReserved 0 ∧
    decode 0b1111111111110111#16 = .sysReserved 3 ∧
    decode 0b1111111111000000#16 = .unrecognized 0xFFC0 ∧
    decode 0b1111111111101111#16 = .unrecognized 0xFFEF ∧
    decode 0b1111111111111110#16 = .unrecognized 0xFFFE := by decide

/-- The word of the host's table query is numbered the same way, and bits above `nbits` are 0. -/
theorem test_decodeTableWord : decodeTableWord 16 0xC021 = some (.add 0 true (.reg 1)) ∧ decodeTableWord 16 0x1C021 = some (.add 0 true (.reg 1)) := by decide

/-! One step per instruction. The V bit is the machine's open parameter, so an expected PSW names it. -/

/-- V41. -/
theorem test_ldi : (run 0x7FFF (base 0 [])).map (fun t => (t.psw, t.reg 0)) =
    some (pswAfter 0 false false false .ldi 0 0 0x7FFF, 0x7FFF) := by rfl

/-- V42. -/
theorem test_mov_carry : (run 0xF84B (base 0 [(2, 0xFFFF)])).map (fun t => (t.psw, t.reg 1)) =
    some (pswAfter 0 false false true .mov 0xFFFF 3 0x10002, 2) := by rfl

/-- V43. -/
theorem test_mov_reads_next_pc : (run 0xF87C (base 0 [])).map (fun t => (t.psw, t.reg 1)) =
    some (pswAfter 0 false false false .mov 0x0011 0 0x0011, 0x0011) := by rfl

/-- V44. -/
theorem test_lsi_negative : (run 0xFC7F (base 0 [])).map (fun t => (t.psw, t.reg 3)) =
    some (pswAfter 0 true false true .lsi 0 0 (-1), 0xFFFF) := by rfl

/-- V47: an immediate jump. -/
theorem test_lsi_pc : (run 0xFDE0 (base 0 [])).map (fun t => (t.psw, t.reg 15)) =
    some (pswAfter 0 false true false .lsi 0 0 0, 0) := by rfl

/-- V50. -/
theorem test_add_wraps : (run 0xC021 (base 0 [(0, 0xFFFF), (1, 1)])).map (fun t => (t.psw, t.reg 0)) =
    some (pswAfter 0 false true true .add 0xFFFF 1 0x10000, 0) := by rfl

/-- V53. -/
theorem test_add_flags_only : (run 0xC001 (base 0 [(0, 5), (1, 7)])).map (fun t => (t.psw, t.reg 0)) =
    some (pswAfter 0 false false false .add 5 7 12, 5) := by rfl

/-- V55. -/
theorem test_sub_borrow : (run 0xC421 (base 0 [(0, 0), (1, 1)])).map (fun t => (t.psw, t.reg 0)) =
    some (pswAfter 0 true false true .sub 0 1 (-1), 0xFFFF) := by rfl

/-- V56, with the selectors and I set to see that bits 15:4 stay. -/
theorem test_sub_compare_equal : (run 0xC401 (base 0xFFF8 [(0, 0x1234), (1, 0x1234)])).map (fun t => (t.psw, t.reg 0)) =
    some (pswAfter 0xFFF8 false true false .sub 0x1234 0x1234 0, 0x1234) := by rfl

/-- V60. -/
theorem test_and_immediate : (run 0xC83F (base 0 [(0, 0xABCD)])).map (fun t => (t.psw, t.reg 0)) =
    some (pswAfter 0 false false false .and 0xABCD 15 13, 0x000D) := by rfl

/-- V61. -/
theorem test_or : (run 0xCC21 (base 0 [(0, 0x8000), (1, 1)])).map (fun t => (t.psw, t.reg 0)) =
    some (pswAfter 0 true false false .or 0x8000 1 0x8001, 0x8001) := by rfl

/-- V62. -/
theorem test_xor : (run 0xD021 (base 0 [(0, 0xFFFF), (1, 0x00FF)])).map (fun t => (t.psw, t.reg 0)) =
    some (pswAfter 0 true false false .xor 0xFFFF 0x00FF 0xFF00, 0xFF00) := by rfl

/-- V63. -/
theorem test_mul : (run 0xD462 (base 0 [(1, 0x0100), (2, 0x0101)])).map (fun t => (t.psw, t.reg 1)) =
    some (pswAfter 0 false false true .mul 0x0100 0x0101 0x10100, 0x0100) := by rfl

/-- V64. -/
theorem test_mul_odd_immediate : (run 0xD473 (base 0 [(1, 0x5555)])).map (fun t => (t.psw, t.reg 1)) =
    some (pswAfter 0 true false false .mul 0x5555 3 0xFFFF, 0xFFFF) := by rfl

/-- V67. -/
theorem test_mul32 : (run 0xD4BF (base 0 [(2, 0xFFFF)])).map (fun t => (t.psw, t.reg 2, t.reg 3)) =
    some (pswAfter 0 true false true .mul32 0xFFFF 15 0xEFFF1, 0x000E, 0xFFF1) := by rfl

/-- V66. -/
theorem test_mul32_flags_only : (run 0xD41F (base 0 [(0, 0xFFFF), (1, 0x7777)])).map (fun t => (t.psw, t.reg 0, t.reg 1)) =
    some (pswAfter 0 true false true .mul32 0xFFFF 15 0xEFFF1, 0xFFFF, 0x7777) := by rfl

/-- V68. -/
theorem test_div_by_zero : (run 0xD862 (base 0 [(1, 0x1234), (2, 0)])).map (fun t => (t.psw, t.reg 1)) =
    some (pswAfter 0 true false false .div 0x1234 0 0xFFFF, 0xFFFF) := by rfl

/-- V69. -/
theorem test_div : (run 0xD862 (base 0 [(1, 0xFFFF), (2, 0x10)])).map (fun t => (t.psw, t.reg 1)) =
    some (pswAfter 0 false false false .div 0xFFFF 0x10 0x0FFF, 0x0FFF) := by rfl

/-- 43_alu.md R234: 0xFFFF / 15. -/
theorem test_div_odd_immediate : (run 0xD87F (base 0 [(1, 0xFFFF)])).map (fun t => (t.psw, t.reg 1)) =
    some (pswAfter 0 false false false .div 0xFFFF 15 0x1111, 0x1111) := by rfl

/-- V71. -/
theorem test_div32 : (run 0xD8B7 (base 0 [(2, 100)])).map (fun t => (t.psw, t.reg 2, t.reg 3)) =
    some (pswAfter 0 false false false .div32 100 7 14, 14, 2) := by rfl

/-- V72: the remainder is the open value. -/
theorem test_div32_by_zero : (run 0xD830 (base 0 [(0, 0x1234)])).map (fun t => (t.psw, t.reg 0, t.reg 1)) =
    some (pswAfter 0 true false false .div32 0x1234 0 0xFFFF, 0xFFFF, Config.div0Rem 0x1234 0) := by rfl

/-- V82. -/
theorem test_sl : (run 0xDC47 (base 0 [(1, 0x8001)])).map (fun t => (t.psw, t.reg 1)) =
    some (pswAfter 0 false false true .sl 0x8001 7 0x400080, 0x0080) := by rfl

/-- V85. -/
theorem test_slc : (run 0xDC4F (base 0 [(1, 0x8001)])).map (fun t => (t.psw, t.reg 1)) =
    some (pswAfter 0 false false false .slc 0x8001 7 0x400080, 0x0080) := by rfl

/-- V104. -/
theorem test_slc_zero : (run 0xDC48 (base 8 [(1, 0x8001)])).map (fun t => (t.psw, t.reg 1)) =
    some (pswAfter 8 true false true .slc 0x8001 0 0x8001, 0x8001) := by rfl

/-- V87. -/
theorem test_sr : (run 0xDC51 (base 0 [(1, 0xFFFF)])).map (fun t => (t.psw, t.reg 1)) =
    some (pswAfter 0 false false false .sr 0xFFFF 1 0x7FFF, 0x7FFF) := by rfl

/-- V90. -/
theorem test_src : (run 0xDC59 (base 0 [(1, 0x8001)])).map (fun t => (t.psw, t.reg 1)) =
    some (pswAfter 0 false false true .src 0x8001 1 0x4000, 0x4000) := by rfl

/-- V105. -/
theorem test_src_zero : (run 0xDC58 (base 8 [(1, 0)])).map (fun t => (t.psw, t.reg 1)) =
    some (pswAfter 8 false true true .src 0 0 0, 0) := by rfl

/-- V94. -/
theorem test_sra : (run 0xDC67 (base 0 [(1, 0x8001)])).map (fun t => (t.psw, t.reg 1)) =
    some (pswAfter 0 true false false .sra 0x8001 7 0xFF00, 0xFF00) := by rfl

/-- V96. -/
theorem test_sac : (run 0xDC69 (base 0 [(1, 0x8001)])).map (fun t => (t.psw, t.reg 1)) =
    some (pswAfter 0 true false true .sac 0x8001 1 0xC000, 0xC000) := by rfl

/-- V100. -/
theorem test_ror : (run 0xDC77 (base 0 [(1, 0x8001)])).map (fun t => (t.psw, t.reg 1)) =
    some (pswAfter 0 false false false .ror 0x8001 7 0x0300, 0x0300) := by rfl

/-- V108. -/
theorem test_roc : (run 0xDC79 (base 8 [(1, 0x8001)])).map (fun t => (t.psw, t.reg 1)) =
    some (pswAfter 8 true false true .roc 0x8001 1 0xC000, 0xC000) := by rfl

/-- V109. -/
theorem test_roc_seven : (run 0xDC7F (base 8 [(1, 0x8001)])).map (fun t => (t.psw, t.reg 1)) =
    some (pswAfter 8 false false false .roc 0x8001 7 0x0700, 0x0700) := by rfl

/-- V181. -/
theorem test_swb : runReg 0xFE01 (base 0 [(1, 0x00FF)]) 1 = some 0xFF00 := by decide
/-- V181: N = 1, Z = 0, C = 0. -/
theorem test_swb_flags : negativeOf (rawSwapBytes 0x00FF) = true ∧ zeroOf (rawSwapBytes 0x00FF) = false ∧ carryOf (rawSwapBytes 0x00FF) = false := by decide

/-- V182. -/
theorem test_inv : (run 0xFE11 (base 0 [(1, 0)])).map (fun t => (t.psw, t.reg 1)) =
    some (pswAfter 0 true false false .inv 0 0 0xFFFF, 0xFFFF) := by rfl

/-- V185. -/
theorem test_neg : (run 0xFE21 (base 0 [(1, 0x8000)])).map (fun t => (t.psw, t.reg 1)) =
    some (pswAfter 0 true false true .neg 0x8000 0 (-32768), 0x8000) := by rfl

/-! Loads and stores. -/

/-- X4: DS by default. -/
theorem test_ld_ds : runReg 0x8205 (poke (segs 0x08C0 [(0, 0x0010)]) 0x10015 0xBEEF) 1 = some 0xBEEF := by decide
/-- V152: SS through the second register of the dual pair. -/
theorem test_ld_ss_pair : runReg 0x8280 (poke (segs 0x04C0 [(4, 0x0010)]) 0x20010 0xCCCC) 1 = some 0xCCCC := by decide
/-- V155: ES through the second register of the pair. -/
theorem test_ld_es_pair : runReg 0x82C0 (poke (segs 0xA8C0 [(6, 0x0010)]) 0x30010 0xEEEE) 1 = some 0xEEEE := by decide
/-- V156: SS wins. -/
theorem test_ld_ss_wins : runReg 0x82A0 (poke (poke (segs 0x2940 [(5, 0x0010)]) 0x20010 0x5555) 0x30010 0xEEEE) 1 = some 0x5555 := by decide
/-- 42_load_store.md R200: the pair at R15 does not wrap to R0 (V157 with ER = 1, so that R0 selects DS; log 19). -/
theorem test_ld_pair_no_wrap : runReg 0x8200 (poke (segs 0x0FC0 [(0, 0x0010)]) 0x10010 0x1111) 1 = some 0x1111 := by decide
/-- 42_load_store.md R201: the offset wraps before the segment is added (V158 with its intended word `0x8241`; log 19). -/
theorem test_ld_offset_wraps : runReg 0x8241 (poke (segs 0x00C0 [(2, 0xFFFF)]) 0x10000 0x4242) 1 = some 0x4242 := by decide
/-- V161: out of range, the load is skipped. -/
theorem test_ld_skipped : (run 0x8240 { segs 0x00C0 [(1, 0x7777), (2, 0x0010)] with ds := 0xFFFF }).map (fun t => (t.reg 1, t.pc)) = some (0x7777, 0x0011) := by decide
/-- V159: the last word is in range, a ROM word. -/
theorem test_st_last_word : (run 0xA24F { segs 0x00C0 [(1, 0x1234), (2, 0)] with ds := 0xFFFF }).map (fun t => (t.mem.readWord 0xFFFFF, t.observed)) =
    some (0x1234, [{ pa := 0xFFFFF, value := 0x1234 }]) := by decide
/-- V160: out of range, neither stored nor reported. -/
theorem test_st_skipped : (run 0xA240 { segs 0x00C0 [(1, 0x1234), (2, 0x0010)] with ds := 0xFFFF }).map (fun t => (t.observed, t.pc)) = some ([], 0x0011) := by decide
/-- V163: the seg field ES is ignored. -/
theorem test_lds : runReg 0xF312 (poke (segs 0 [(2, 0x0100)]) 0x00100 0x1234) 1 = some 0x1234 := by decide
/-- V164. -/
theorem test_sts : (run 0xF412 (segs 0 [(1, 0x1234), (2, 0x0100)])).map (fun t => (t.mem.readWord 0x00100, t.observed)) =
    some (0x1234, [{ pa := 0x00100, value := 0x1234 }]) := by decide

/-! Jumps and the delay slot. -/

/-- V120 and V121. -/
theorem test_jz : (run 0xE005 (base 2 [])).map (·.pend) = some (some { targetPc := 0x0016, targetCs := none }) ∧ (run 0xE005 (base 0 [])).map (·.pend) = some none := by decide
/-- V124: the target wraps in the current CS. -/
theorem test_jnz : (run 0xE300 (base 0 [])).map (·.pend) = some (some { targetPc := 0xFF11, targetCs := none }) ∧ (run 0xE300 (base 2 [])).map (·.pend) = some none := by decide
/-- V137. -/
theorem test_jc : (run 0xE401 (base 8 [])).map (·.pend) = some (some { targetPc := 0x0012, targetCs := none }) ∧ (run 0xE401 (base 7 [])).map (·.pend) = some none := by decide
/-- V140. -/
theorem test_jnc : (run 0xE601 (base 7 [])).map (·.pend) = some (some { targetPc := 0x0012, targetCs := none }) ∧ (run 0xE601 (base 8 [])).map (·.pend) = some none := by decide
/-- V138. -/
theorem test_jn : (run 0xE801 (base 1 [])).map (·.pend) = some (some { targetPc := 0x0012, targetCs := none }) ∧ (run 0xE801 (base 14 [])).map (·.pend) = some none := by decide
/-- V140. -/
theorem test_jnn : (run 0xEA01 (base 14 [])).map (·.pend) = some (some { targetPc := 0x0012, targetCs := none }) ∧ (run 0xEA01 (base 1 [])).map (·.pend) = some none := by decide
/-- V139. -/
theorem test_jv : (run 0xEC01 (base 4 [])).map (·.pend) = some (some { targetPc := 0x0012, targetCs := none }) ∧ (run 0xEC01 (base 11 [])).map (·.pend) = some none := by decide
/-- V140. -/
theorem test_jnv : (run 0xEE01 (base 11 [])).map (·.pend) = some (some { targetPc := 0x0012, targetCs := none }) ∧ (run 0xEE01 (base 4 [])).map (·.pend) = some none := by decide
/-- V135: the PC half of `JML R14` is the next offset. -/
theorem test_jml_pc_pair : (run 0xFE3E (base 0 [(14, 2)])).map (·.pend) = some (some { targetPc := 0x0011, targetCs := some 0x0002 }) := by decide
/-- V136. -/
theorem test_jml_odd : refusalOf (step ((base 0 []).withFetchWord 16 0xFE31)) = some .jmlOddRegister := by decide
/-- V132: the commit overrides the slot's write of the PC. -/
theorem test_commit_overrides_pc : (run 0xC3F5 (slot (base 2 []))).map (fun t => (t.pc, t.pend)) = some (0x0014, none) := by decide
/-- V133: a jump without a CS keeps the slot's write of CS. -/
theorem test_commit_keeps_cs : (run 0xFF48 (slot (base 2 [(2, 0x0100)]))).map (fun t => (t.cs, t.pc)) = some (0x0100, 0x0014) := by decide
/-- V128. -/
theorem test_taken_in_slot : refusalOf (step ((slot (base 2 [])).withFetchWord 16 0xE007)) = some .branchInDelaySlot := by decide
/-- V130: HLT in the slot leaves the transfer uncommitted. -/
theorem test_hlt_in_slot : (run 0xFFF1 (slot (base 2 []))).map (fun t => (t.running, t.pc, t.pend)) = some (false, 0x0011, some { targetPc := 0x0014, targetCs := none }) := by decide

/-! Special operations. -/

/-- V187. -/
theorem test_srs : (run 0xFE4D (base 0x040F [])).map (·.psw) = some 0x034F := by decide
/-- V188. -/
theorem test_srd : (run 0xFE5C (base 0x000F [])).map (·.psw) = some 0x070F := by decide
/-- V189. -/
theorem test_ers : (run 0xFE6B (base 0xFFFF [])).map (·.psw) = some 0x5FFF := by decide
/-- V190. -/
theorem test_erd : (run 0xFE7A (base 0x0000 [])).map (·.psw) = some 0xD000 := by decide
/-- V191. -/
theorem test_set : (run 0xFE8F (base 0x0000 [])).map (·.psw) = some 0x000F := by decide
/-- V192. -/
theorem test_clr : (run 0xFE92 (base 0x000F [])).map (·.psw) = some 0x000D := by decide
/-- V193. -/
theorem test_set2 : (run 0xFEAF (base 0x0000 [])).map (·.psw) = some 0x00F0 := by decide
/-- V194. -/
theorem test_clr2 : (run 0xFEBF (base 0xFFFF [])).map (·.psw) = some 0xFF0F := by decide
/-- V195. -/
theorem test_seti : (run 0xFEA1 (base 0x0000 [])).map (·.psw) = some 0x0010 := by decide
/-- V196. -/
theorem test_clri : (run 0xFEB1 (base 0x0031 [])).map (·.psw) = some 0x0021 := by decide
/-- V197: nothing but the PC advance. -/
theorem test_sopReserved : run 0xFEC5 (base 5 [(5, 0x1234)]) = some (((base 5 [(5, 0x1234)]).withFetchWord 16 0xFEC5).advancePc) := by decide

/-! Segment and context moves; system operations. -/

/-- V201. -/
theorem test_mvsRead : runReg 0xFF07 (segs 0 []) 1 = some 0x3000 := by decide
/-- V203: the next fetch is in the new CS. -/
theorem test_mvsWrite_cs : (run 0xFF48 (base 0 [(2, 0x0100)])).map (fun t => (t.cs, t.pc, t.fetchAddr)) = some (0x0100, 0x0011, 0x01011) := by decide
/-- V204 to V207, S = 0. -/
theorem test_smv_normal : [0xFF81, 0xFF91, 0xFFA1, 0xFFB1].map (fun w => runReg w { base 0x0010 [(1, 0x9999)] with cs := 0x0005, pswShadow := 0x0007 } 1) =
    [some 0x0000, some 0x0007, some 0x0010, some 0x0000] := by decide
/-- V204 to V207, S = 1. -/
theorem test_smv_shadow : [0xFF81, 0xFF91, 0xFFA1, 0xFFB1].map (fun w => runReg w { base 0x0020 [(1, 0x9999)] with cs := 0x0005, pswShadow := 0x0007 } 1) =
    [some 0x0011, some 0x0020, some 0x0007, some 0x0005] := by decide
/-- V210. -/
theorem test_nop : run 0xFFF0 (base 0x000F []) = some (((base 0x000F []).withFetchWord 16 0xFFF0).advancePc) := by decide
/-- V211: the PC is advanced. -/
theorem test_hlt : (run 0xFFF1 (base 0 [])).map (fun t => (t.running, t.pc)) = some (false, 0x0011) := by decide
/-- V174: the sentinel is not consumed. -/
theorem test_halt : (run 0xFFFF (base 0 [])).map (fun t => (t.running, t.pc)) = some (false, 0x0010) := by decide
/-- V212. -/
theorem test_swi : (run 0xFFF2 { base 0x001F [] with cs := 0x0123 }).map (fun t => (t.cs, t.pc, t.psw, t.pswShadow)) = some (0x0000, 0x0004, 0x002F, 0x001F) := by decide
/-- V214: ignored in the shadow view. -/
theorem test_swi_ignored : (run 0xFFF2 { base 0x0030 [] with cs := 0x0123 }).map (fun t => (t.cs, t.pc, t.psw, t.pswShadow)) = some (0x0123, 0x0011, 0x0030, 0x0000) := by decide
/-- V215. -/
theorem test_reti : (run 0xFFF3 { base 0x0020 [] with pswShadow := 0x0011 }).map (fun t => (t.psw, t.pswShadow, t.pc)) = some (0x0000, 0x0011, 0x0011) := by decide
/-- V217. -/
theorem test_sysReserved : run 0xFFF4 (base 3 []) = some (((base 3 []).withFetchWord 16 0xFFF4).advancePc) := by decide
/-- V218. -/
theorem test_unrecognized : run 0xFFC0 (base 3 []) = some (((base 3 []).withFetchWord 16 0xFFC0).advancePc) := by decide
/-- V171: a fetch out of range halts, the PC not advanced. -/
theorem test_fetch_out_of_range : (nextOf (step { base 0 [] with cs := 0xFFFF })).map (fun t => (t.running, t.pc)) = some (false, 0x0010) := by decide
/-- V175: the first fetch after reset. -/
theorem test_reset_fetch : State.reset.fetchAddr = 0xFFFF0 := by decide

/-! Assembler and disassembler: the rows of 95_test_vectors.md X1, and the numeric edges. -/

theorem test_assemble_lines :
    assembleLine [] 0 (chars "ADD R0, R1") = some 0xC021 ∧ assembleLine [] 0 (chars "SUB R2, 1") = some 0xC4B1 ∧
    assembleLine [] 0 (chars "LSI R3, -1") = some 0xFC7F ∧ assembleLine [] 0 (chars "SETI") = some 0xFEA1 ∧
    assembleLine [] 0 (chars "LD R1, R0, 5") = some 0x8205 ∧ assembleLine [] 0 (chars "sra r4, $2") = some 0xDD22 ∧
    assembleLine [(chars "loop", 3)] 8 (chars "JNZ loop") = some 0xE3FA ∧ assembleLine [] 0 (chars "HALT") = some 0xFFFF := by decide
/-- X8: the edge of the range of LDI. -/
theorem test_assemble_ldi_range : assembleLine [] 0 (chars "LDI 32767") = some 0x7FFF ∧ assembleLine [] 0 (chars "LDI 32768") = none := by decide
theorem test_disassemble_lines :
    disassemble none 0xC021 = chars "ADD R0, R1" ∧ disassemble none 0xFC7F = chars "LSI R3, -1" ∧ disassemble none 0x7FFF = chars "LDI 32767" ∧
    disassemble none 0xE3FA = chars "JNZ -6" ∧ disassemble (some 8) 0xE3FA = chars "JNZ 0x0003" ∧
    disassemble none 0xFEA1 = chars "SETI" ∧ disassemble none 0xFFFF = chars "HALT" ∧ disassemble none 0xFFC0 = chars "???(0xFFC0)" := by decide
/-- A label before an instruction and `.word`, in both passes (30_encoding.md R140, R148). -/
theorem test_assemble_program : assemble (chars ".org 2\nloop: NOP ; again\n\n.word 0x1234, 7\nJZ loop") =
    [(2, 0xFFF0), (3, 0x1234), (4, 7), (5, 0xE1FC)] := by decide
/-- A line ending in `:` advances no cursor, also with a label before (30_encoding.md R140). -/
theorem test_assemble_label_line : parseLine (chars "a: b: ; end") = ([chars "a", chars "b"], .blank) ∧
    assemble (chars "a: b:\nJZ b") = [(0, 0xE1FF)] := by decide
/-- X1: the text with a resolved target assembles to the same word; R285: a decimal number is an offset; R144: the last target in range, and two that do not fit. -/
theorem test_assemble_targets : assembleLine [] 8 (chars "JNZ 0x0003") = some 0xE3FA ∧ assembleLine [] 0 (chars "JNC 255") = some 0xE6FF ∧
    assembleLine [] 0 (chars "JZ 0x0100") = some 0xE0FF ∧ assembleLine [] 0 (chars "JZ 0x0101") = none ∧
    assembleLine [] 0 (chars "JZ 0xFFFB") = none := by decide

/-! Witnesses: for every obligation with hypotheses, concrete values that meet them, each clause at a boundary of its range. -/

theorem witness_DecodeOfEncodeIsTheInstruction : (Instr.mul32 14 true 15).wellFormed = true ∧ (Instr.unrecognized 0xFFFE).wellFormed = true := by decide

/-- The lowest and the highest target in range, and the nearest out of it on either side. -/
theorem witness_DisassemblyReassembles_target : targetInRange 0 0x1FF ∧ ¬ targetInRange 0 0x1FE ∧ targetInRange 0xFFFE 0 ∧ ¬ targetInRange 0xFFFF 0 ∧
    decode 0xE1FE = .jz 0x1FE ∧ decode 0xE000 = .jz 0 ∧ assembleLine [] 0xFFFE (disassemble (some 0xFFFE) 0xE000) = some 0xE000 ∧
    assembleLine [] 0 (disassemble (some 0) 0xE1FE) = none := by unfold targetInRange; decide
theorem witness_DisassemblyReassembles : isUnassigned 0xFFBF = false ∧ isUnassigned 0xFFFF = false ∧ isUnassigned 0xFEBF = false ∧
    assembleLine [] 0 (chars "ROC R15, 7") = some 0xDFFF ∧ assembleLine [] 8 (disassemble (some (BitVec.ofNat 16 8)) 0xE3FA) = some 0xE3FA := by decide

/-- A number and a label as target, at both ends of the range and just beyond. -/
theorem witness_JumpTargetsResolveExactly : parseHex (chars "0x0100") = some 0x0100 ∧ parseHex (chars "0x0101") = some 0x0101 ∧
    parseHex (chars "end") = none ∧ parseInt (chars "end") = none ∧ lookupName [(chars "end", 0)] (chars "end") = some 0 ∧
    parseJump [] 0 (chars "0x0100") = some 0x0FF ∧ parseJump [] 0 (chars "0x0101") = none ∧
    parseJump [(chars "end", 0)] 255 (chars "end") = some 0x100 ∧ parseJump [(chars "end", 0)] 256 (chars "end") = none := by decide

/-- A taken JZ at address 0x0010. -/
theorem witness_DisassembledTargetIsTheEnginesTarget :
    (Instr.jz, fun p : Word => p.getLsbD 1) ∈ jumps ∧ (base 2 []).pc = 0x000F#16 + 1 ∧ (base 2 []).pend = none ∧
    exec (.jz 0x1FF) (base 2 []) = .next { base 2 [] with pend := some { targetPc := 0x000F, targetCs := none } } :=
  ⟨List.mem_cons_self, by decide, rfl, rfl⟩

/-- An instruction in range, outside and inside a delay slot. -/
theorem witness_StepRunsTheDecodedInstruction :
    ((base 0 []).withFetchWord 16 0xC021).running = true ∧ translateAddr ((base 0 []).withFetchWord 16 0xC021).cs ((base 0 []).withFetchWord 16 0xC021).pc ≤ 0xFFFFF ∧
    ((base 0 []).withFetchWord 16 0xC021).mem.readWord (translateAddr 0 0x0010) = 0xC021 ∧
    ((slot (base 0 [])).withFetchWord 16 0xC021).running = true ∧ ((slot (base 0 [])).withFetchWord 16 0xC021).pend ≠ none := by decide

/-- Halted; the first address out of range; the sentinel at the last address in range. -/
theorem witness_StepsThatExecuteNothing :
    (base 0 []).halted.running = false ∧
    ({ base 0 [] with cs := 0xFFFF } : State).running = true ∧ translateAddr ({ base 0 [] with cs := 0xFFFF } : State).cs (base 0 []).pc = 0x100000 ∧
    ({ base 0 [(15, 0x000F)] with cs := 0xFFFF } : State).running = true ∧ translateAddr 0xFFFF (base 0 [(15, 0x000F)]).pc = 0xFFFFF ∧
    (base 0 []).mem.readWord 0xFFFFF = 0xFFFF := by decide

/-- Both refusals occur: JML R15, and an even JML in a delay slot. -/
theorem witness_StepRefusalsAreExactlyTheTwo :
    step ((base 0 []).withFetchWord 16 0xFE3F) = .refused .jmlOddRegister ∧
    step ((slot (base 0 [])).withFetchWord 16 0xFE3E) = .refused .branchInDelaySlot := ⟨rfl, rfl⟩

/-- A delay-slot NOP, for a transfer that names a CS, and a delay-slot HLT. -/
theorem witness_DelaySlotEndsWithTheCommit :
    (∃ t, step (({ base 0 [] with pend := some { targetPc := 0xFFFF, targetCs := some 0xFFFF } } : State).withFetchWord 16 0xFFF0) = .next t ∧ t.running = true) ∧
    (∃ t, step ((slot (base 0 [])).withFetchWord 16 0xFFF1) = .next t ∧ t.running = false) := ⟨⟨_, rfl, rfl⟩, ⟨_, rfl, rfl⟩⟩

/-- A taken JNV at the lowest offset, and JML R14. -/
theorem witness_PendingIsSetOnlyByATakenTransfer :
    (∃ t, (base 0 []).pend = none ∧ step ((base 0 []).withFetchWord 16 0xEF00) = .next t ∧ t.pend = some { targetPc := 0xFF11, targetCs := none }) ∧
    (∃ t, step ((base 0 [(14, 2)]).withFetchWord 16 0xFE3E) = .next t ∧ t.pend = some { targetPc := 0x0011, targetCs := some 0x0002 }) :=
  ⟨⟨_, rfl, rfl, rfl⟩, ⟨_, rfl, rfl⟩⟩

/-- JML R2 (R2 = 0x0100, R3 = 0x0020), then a NOP in the slot (V134). -/
theorem witness_ExactlyOneDelaySlotInstruction :
    ∃ t u, (poke (base 0 [(2, 0x0100), (3, 0x0020)]) 0x11 0xFFF0).pend = none ∧
      step ((poke (base 0 [(2, 0x0100), (3, 0x0020)]) 0x11 0xFFF0).withFetchWord 16 0xFE32) = .next t ∧
      t.pend = some { targetPc := 0x0020, targetCs := some 0x0100 } ∧ step t = .next u ∧ u.running = true ∧ u.cs = 0x0100 ∧ u.pc = 0x0020 :=
  ⟨_, _, rfl, rfl, rfl, rfl, rfl, rfl, rfl⟩

/-- A step that runs on, and the three halts. -/
theorem witness_RunningIsClearedExactlyByTheThreeHalts :
    (∃ t, step ((base 0 []).withFetchWord 16 0xFFF0) = .next t ∧ t.running = true) ∧
    (∃ t, step ((base 0 []).withFetchWord 16 0xFFF1) = .next t ∧ t.running = false) ∧
    (∃ t, step ((base 0 []).withFetchWord 16 0xFFFF) = .next t ∧ t.running = false) ∧
    (∃ t, step { base 0 [] with cs := 0xFFFF } = .next t ∧ t.running = false) :=
  ⟨⟨_, rfl, rfl⟩, ⟨_, rfl, rfl⟩, ⟨_, rfl, rfl⟩, ⟨_, rfl, rfl⟩⟩

/-- A store, whose step changes memory. -/
theorem witness_StepKeepsMemoryCanonical :
    ((segs 0 [(1, 0x1234), (2, 0x0100)]).withFetchWord 16 0xF412).mem.wf = true ∧
    ∃ t, step ((segs 0 [(1, 0x1234), (2, 0x0100)]).withFetchWord 16 0xF412) = .next t ∧ t.mem.wf = true := ⟨rfl, _, rfl, rfl⟩

/-- A word written and written back, and the memory that never saw it. -/
theorem witness_CanonicalMemoriesWithEqualWordsAreEqual :
    ((((base 0 []).mem.writeWord 5 0x1234).writeWord 5 0xFFFF).wf = true ∧ (base 0 []).mem.wf = true ∧
    ∀ pa, pa ≤ 0xFFFFF → (((base 0 []).mem.writeWord 5 0x1234).writeWord 5 0xFFFF).readWord pa = (base 0 []).mem.readWord pa) :=
  ⟨rfl, rfl, fun _ _ => rfl⟩

/-- A taken SWI, an instruction that is none, and the run of no step. -/
theorem witness_ShadowRegistersAreWrittenByATakenSwiOnly :
    (∃ t, step ((base 0x001F []).withFetchWord 16 0xFFF2) = .next t ∧ t.pswShadow = 0x001F) ∧
    (∃ t, step ((base 0x001F []).withFetchWord 16 0xFFF0) = .next t ∧ t.pswShadow = 0) ∧ RunsTo 0 State.reset State.reset :=
  ⟨⟨_, rfl, rfl⟩, ⟨_, rfl, rfl⟩, rfl⟩

/-- The running block fetches STS, and the step answers a next state. -/
theorem witness_MemoryIsWrittenByStoresOnly :
    ((segs 0 [(1, 0x1234), (2, 0x0100)]).withFetchWord 16 0xF412).mem.wf = true ∧
    Fetches ((segs 0 [(1, 0x1234), (2, 0x0100)]).withFetchWord 16 0xF412) (.sts .cs 1 2) ∧
    ∃ t, step ((segs 0 [(1, 0x1234), (2, 0x0100)]).withFetchWord 16 0xF412) = .next t := ⟨rfl, ⟨rfl, by decide, by decide⟩, _, rfl⟩

/-- An instruction of each class the statement tells apart: NOP, ADD, SET, SRS. -/
theorem witness_PswIsWrittenOnlyByItsWriters :
    (Fetches ((base 0 []).withFetchWord 16 0xFFF0) .nop ∧ ∃ t, step ((base 0 []).withFetchWord 16 0xFFF0) = .next t) ∧
    (Fetches ((base 0 []).withFetchWord 16 0xC021) (.add 0 true (.reg 1)) ∧ ∃ t, step ((base 0 []).withFetchWord 16 0xC021) = .next t) ∧
    (Fetches ((base 0 []).withFetchWord 16 0xFE4D) (.srs 13) ∧ ∃ t, step ((base 0 []).withFetchWord 16 0xFE4D) = .next t) :=
  ⟨⟨⟨rfl, by decide, by decide⟩, _, rfl⟩, ⟨⟨rfl, by decide, by decide⟩, _, rfl⟩, ⟨⟨rfl, by decide, by decide⟩, _, rfl⟩⟩

/-- MVS ES, R1 changes ES; a taken SWI and the commit of a JML change CS. -/
theorem witness_SegmentRegistersAreWrittenOnlyByTheirWriters :
    (Fetches ((base 0 [(1, 0xABCD)]).withFetchWord 16 0xFF47) (.mvsWrite 1 .es) ∧ ∃ t, step ((base 0 [(1, 0xABCD)]).withFetchWord 16 0xFF47) = .next t ∧ t.es ≠ 0) ∧
    (∃ t, step (({ base 0x0010 [] with cs := 0x0123 } : State).withFetchWord 16 0xFFF2) = .next t ∧ t.cs ≠ 0x0123) ∧
    (∃ t, step (({ base 0 [] with pend := some { targetPc := 0, targetCs := some 0xFFFF } } : State).withFetchWord 16 0xFFF0) = .next t ∧ t.cs ≠ 0) :=
  ⟨⟨⟨rfl, by decide, by decide⟩, _, rfl, by decide⟩, ⟨_, rfl, by decide⟩, ⟨_, rfl, by decide⟩⟩

/-- MUL32 R14, which writes R14 and R15, leaves R13. -/
theorem witness_RegistersAreWrittenOnlyAsDestinations :
    Fetches ((base 0 []).withFetchWord 16 0xD7BF) (.mul32 14 true 15) ∧ (13 : Reg) ≠ 15 ∧ (13 : Reg) ∉ destinations (.mul32 14 true 15) ∧
    ∃ t, step ((base 0 []).withFetchWord 16 0xD7BF) = .next t := ⟨⟨rfl, by decide, by decide⟩, by decide, by decide, _, rfl⟩

/-- SS by the second register of the pair 14, 15; ES by the single register 15; DS where the pair 15 does not wrap to 0. -/
theorem witness_DataAddressFollowsTheSelectors :
    Selects ((0x0780 : Word).extractLsb' 6 4) ((0x0780 : Word).getLsbD 10) 15 ∧
    (¬ Selects ((0x7800 : Word).extractLsb' 6 4) ((0x7800 : Word).getLsbD 10) 15 ∧ Selects ((0x7800 : Word).extractLsb' 11 4) ((0x7800 : Word).getLsbD 15) 15) ∧
    (¬ Selects ((0xFFC0 : Word).extractLsb' 6 4) ((0xFFC0 : Word).getLsbD 10) 0 ∧ ¬ Selects ((0xFFC0 : Word).extractLsb' 11 4) ((0xFFC0 : Word).getLsbD 15) 0) := by
  unfold Selects
  decide

theorem witness_TranslationIsNotWrapped : translateAddr 0xF001 0xFFFF = 0x10000F ∧ translateAddr 0xF000 0xFFFF = 0xFFFFF ∧ translateAddr 0xFFFF 0xFFFF = 0x10FFEF := by decide

/-- The last address in range and the first out of range; memory in canonical form. -/
theorem witness_LoadEffect :
    dataAddr { segs 0x00C0 [] with ds := 0xFFFF } 2 15 = 0xFFFFF ∧ dataAddr { segs 0x00C0 [] with ds := 0xFFFF } 2 16 = 0x100000 := by decide
@[inherit_doc witness_LoadEffect]
theorem witness_StoreEffect :
    ({ segs 0x00C0 [] with ds := 0xFFFF } : State).mem.wf = true ∧
    dataAddr { segs 0x00C0 [] with ds := 0xFFFF } 2 15 = 0xFFFFF ∧ dataAddr { segs 0x00C0 [] with ds := 0xFFFF } 2 16 = 0x100000 := by decide

/-- The largest address of LDS and STS. -/
theorem witness_DirectLoadAndStoreEffect : directAddr (base 0 [(2, 0xFFFF)]) 2 = 0xFFFF ∧ (base 0 [(2, 0xFFFF)]).mem.wf = true := by decide

/-- STS over the word that the next step fetches. -/
theorem witness_StoreIsSeenByTheNextFetch :
    ((base 0 [(1, 0xFFF1), (2, 0x0011)]).withFetchWord 16 0xF412).mem.wf = true ∧
    Fetches ((base 0 [(1, 0xFFF1), (2, 0x0011)]).withFetchWord 16 0xF412) (.sts .cs 1 2) ∧
    storeOf ((base 0 [(1, 0xFFF1), (2, 0x0011)]).withFetchWord 16 0xF412).advancePc (.sts .cs 1 2) = some (0x11, 0xFFF1) ∧
    ∃ t, step ((base 0 [(1, 0xFFF1), (2, 0x0011)]).withFetchWord 16 0xF412) = .next t ∧ translateAddr t.cs t.pc = 0x11 :=
  ⟨rfl, ⟨rfl, by decide, by decide⟩, by decide, _, rfl, by decide⟩

theorem witness_WideMultiplyEffect : (0 : Reg).val % 2 = 0 ∧ (14 : Reg).val % 2 = 0 := by decide
/-- The even registers at both ends, a zero and a non-zero divisor. -/
theorem witness_DivideWithRemainderEffect : (0 : Reg).val % 2 = 0 ∧ (14 : Reg).val % 2 = 0 ∧ (15 : BitVec 4) ≠ 0 ∧ (0 : BitVec 4) = 0 := by decide

/-- JZ taken and not taken, outside a delay slot. -/
theorem witness_ConditionalJumpEffect :
    (Instr.jz, fun p : Word => p.getLsbD 1) ∈ jumps ∧ (base 0 []).psw.getLsbD 1 = false ∧ (base 2 []).psw.getLsbD 1 = true ∧ (base 2 []).pend = none :=
  ⟨List.mem_cons_self, by decide, by decide, rfl⟩
theorem witness_FarJumpEffect : (14 : Reg).val % 2 = 0 ∧ (base 0 []).pend = none ∧ (15 : Reg).val % 2 = 1 := by decide
theorem witness_TransferInADelaySlotIsRefused :
    (slot (base 0x0012 [])).pend = some { targetPc := 0x0014, targetCs := none } ∧ (slot (base 0x0012 [])).psw.getLsbD 1 = true ∧
    (14 : Reg).val % 2 = 0 ∧ swiIsTaken (slot (base 0x0012 [])).psw = true := by decide
theorem witness_HaltEffect : Fetches ((base 0 []).withFetchWord 16 0xFFF1) .hlt := ⟨rfl, by decide, by decide⟩
/-- I = 0, S = 1 with I = 1, and the taken case outside a delay slot. -/
theorem witness_SoftwareInterruptEffect :
    swiIsTaken (base 0 []).psw = false ∧ swiIsTaken (base 0x0030 []).psw = false ∧ swiIsTaken (base 0x0010 []).psw = true ∧ (base 0x0010 []).pend = none := by decide
theorem witness_TrapsDoNotNest : (∃ t, exec .swi (base 0x0010 []) = .next t) ∧ swiIsTaken (base 0x0010 []).psw = true := ⟨⟨_, rfl⟩, by decide⟩

/-- The last address below the ROM, written twice, and an address never written. -/
theorem witness_LoadProgramEffect :
    0xFFFEF < 0xFFFF0 ∧ lastWrite [(0xFFFEF, 1), (0xFFFF0, 3), (0xFFFEF, 2)] 0xFFFEF = some 2 ∧ lastWrite [(0xFFFEF, 1)] 5 = none ∧
    ((base 0 []).loadProgram [(0xFFFEF, 1), (0xFFFF0, 3), (0xFFFEF, 2)]).mem.readWord 0xFFFEF = 2 ∧
    ((base 0 []).loadProgram [(0xFFFEF, 1)]).mem.readWord 5 = 0xFFFF := by decide
/-- The last address below the ROM at reset. -/
theorem witness_ResetState : 0xFFFEF < 0xFFFF0 ∧ State.reset.mem.readWord 0xFFFEF = 0xFFFF := by decide

/-- The illustration of 70_reset_and_hazards.md R443, with three STS to physical word 0x0100 where it has NOPs in place of the three stores. (An ST selects its segment by the PSW, whose V is open, log 1.) -/
def bootRom : Vector Word 16 :=
  #v[0xFC20, 0xFF45, 0xFF46, 0xFC21, 0xFE01, 0xF411, 0xF421, 0xF411, 0xFC40, 0xFC60, 0xFE32, 0xFFF0, 0xFFFF, 0xFFFF, 0xFFFF, 0xFFFF]

/-- The state in which `bootRom` has reached its JML. -/
def bootRomAtJml : State := (runInRom 10 (State.resetWith bootRom)).getD (State.resetWith bootRom)

theorem bootRom_reaches_jml : (runInRom 10 (State.resetWith bootRom)).isSome = true ∧ bootRomAtJml.pend = none ∧ bootRomAtJml.fetch = some 0xFE32 := by decide

theorem bootRom_commits : (runInRom 2 bootRomAtJml).isSome = true := by decide

theorem bootRom_leaves_the_table : BootTable ((runInRom 2 bootRomAtJml).getD bootRomAtJml) := by constructor <;> decide

/-- There is a ROM that the spec allows. -/
theorem witness_AllowedRomReachesTheProgram : RomBoots bootRom :=
  ⟨10, bootRomAtJml, (runInRom 2 bootRomAtJml).getD bootRomAtJml, 0xFE32, 2,
    runsInRom_getD bootRom_reaches_jml.1, bootRom_reaches_jml.2.1, bootRom_reaches_jml.2.2, by decide,
    runsInRom_getD bootRom_commits, bootRom_leaves_the_table⟩

end Sys2Proof.Tests
end

section
/-! PROOFS. A step in the terms of the statements: which instruction was fetched, what it answered, and what the end of the step adds. -/

namespace Sys2Proof.Proofs

open Sys2Proof Sys2Proof.Machine Sys2Proof.Claims

theorem inRange_iff (pa : Nat) : inRange pa = true ↔ pa ≤ 0xFFFFF := by
  simp only [inRange, Config.memWords, decide_eq_true_eq]
  omega

/-- The fetch of 40_fsm.md R153: the word at the fetch address, where that address is in range. -/
theorem fetch_eq_some_iff {s : State} {w : Word} :
    s.fetch = some w ↔ translateAddr s.cs s.pc ≤ 0xFFFFF ∧ s.mem.readWord (translateAddr s.cs s.pc) = w := by
  rw [← inRange_iff, State.fetch, State.fetchAddr]
  by_cases hrange : inRange (translateAddr s.cs s.pc) = true <;> simp [hrange]

theorem fetches_iff {s : State} {i : Instr} :
    Fetches s i ↔ s.running = true ∧ ∃ w, s.fetch = some w ∧ decode w = i := by
  constructor
  · rintro ⟨hrunning, hrange, hdecode⟩
    exact ⟨hrunning, _, fetch_eq_some_iff.mpr ⟨hrange, rfl⟩, hdecode⟩
  · rintro ⟨hrunning, w, hfetch, hdecode⟩
    obtain ⟨hrange, rfl⟩ := fetch_eq_some_iff.mp hfetch
    exact ⟨hrunning, hrange, hdecode⟩

theorem fetches_unique {s : State} {i j : Instr} (hi : Fetches s i) (hj : Fetches s j) : i = j :=
  hi.decodes.symm.trans hj.decodes

/-- The two shapes of a step that answers a next state: nothing is fetched and at most `running` changes, or the fetched instruction answers and the end of the step follows. -/
theorem step_next_fetches {s t : State} (h : step s = .next t) :
    ((∀ i, ¬ Fetches s i) ∧ (t = s ∨ t = s.halted)) ∨
    (∃ i w u, Fetches s i ∧ exec i (s.enter w) = .next u ∧ t = afterInstruction s.pend u) := by
  rcases step_next_cases h with ⟨hstopped, rfl⟩ | ⟨-, hnone, rfl⟩ | ⟨w, u, hrunning, hfetch, hexec, ht⟩
  · exact .inl ⟨fun i hi => by simp [hi.running] at hstopped, .inl rfl⟩
  · refine .inl ⟨fun i hi => ?_, .inr rfl⟩
    obtain ⟨-, w, hw, -⟩ := fetches_iff.mp hi
    simp [hnone] at hw
  · refine .inr ⟨decode w, w, u, fetches_iff.mpr ⟨hrunning, w, hfetch, rfl⟩, hexec, ht.trans ?_⟩
    cases s.pend <;> rfl

/-- A run of `n + 1` steps is a step and a run of `n`. -/
theorem runsTo_succ {n : Nat} {s t : State} : RunsTo (n + 1) s t ↔ ∃ u, step s = .next u ∧ RunsTo n u t := by
  have hcore : Sys2Proof.core.step s = step s := rfl
  simp only [RunsTo, Host.Core.run, hcore]
  cases step s <;> simp

/-- Whatever every step keeps, every run keeps. -/
theorem runsTo_keeps {P : State → Prop} (hstep : ∀ s t, P s → step s = .next t → P t) {n : Nat} {s t : State}
    (h : RunsTo n s t) (hs : P s) : P t := by
  induction n generalizing s with
  | zero => cases h; exact hs
  | succ n ih =>
    obtain ⟨u, hu, hrest⟩ := runsTo_succ.mp h
    exact ih hrest (hstep s u hs hu)

end Sys2Proof.Proofs
end

section
/-! PROOFS. The shadow registers (10_state.md R40): every operation but the trap entry keeps all three, and the trap entry writes PSW' alone. -/

namespace Sys2Proof.Proofs

open Sys2Proof Sys2Proof.Machine Sys2Proof.Claims

/-- PSW', PC' and CS' are as before. -/
structure SameShadows (s t : State) : Prop where
  psw : t.pswShadow = s.pswShadow
  pc : t.pcShadow = s.pcShadow
  cs : t.csShadow = s.csShadow

namespace SameShadows

theorem refl (s : State) : SameShadows s s := ⟨rfl, rfl, rfl⟩

theorem trans {s t u : State} (h : SameShadows s t) (h' : SameShadows t u) : SameShadows s u :=
  ⟨h'.psw.trans h.psw, h'.pc.trans h.pc, h'.cs.trans h.cs⟩

theorem ite {s t u : State} {c : Prop} [Decidable c] (ht : SameShadows s t) (hu : SameShadows s u) :
    SameShadows s (if c then t else u) := by
  split
  · exact ht
  · exact hu

theorem setReg (s : State) (r : Reg) (v : Word) : SameShadows s (s.setReg r v) :=
  ⟨s.pswShadow_setReg r v, s.pcShadow_setReg r v, s.csShadow_setReg r v⟩

theorem setSeg (s : State) (k : SegReg) (v : Word) : SameShadows s (s.setSeg k v) :=
  ⟨s.pswShadow_setSeg k v, s.pcShadow_setSeg k v, s.csShadow_setSeg k v⟩

theorem withPsw (s : State) (p : Word) : SameShadows s { s with psw := p } := ⟨rfl, rfl, rfl⟩

theorem withPend (s : State) (p : Option Pending) : SameShadows s { s with pend := p } := ⟨rfl, rfl, rfl⟩

theorem store (s : State) (pa : Nat) (v : Word) : SameShadows s (s.store pa v) :=
  ⟨s.pswShadow_store pa v, s.pcShadow_store pa v, s.csShadow_store pa v⟩

theorem halted (s : State) : SameShadows s s.halted :=
  ⟨s.pswShadow_halted, s.pcShadow_halted, s.csShadow_halted⟩

theorem trapReturn (s : State) : SameShadows s s.trapReturn :=
  ⟨s.pswShadow_trapReturn, s.pcShadow_trapReturn, s.csShadow_trapReturn⟩

theorem enter (s : State) (w : Word) : SameShadows s (s.enter w) :=
  ⟨s.pswShadow_enter w, s.pcShadow_enter w, s.csShadow_enter w⟩

theorem aluResult (s : State) (op : AluClass) (rd : Reg) (w : Bool) (a b : Word) (raw : Int) :
    SameShadows s (s.aluResult op rd w a b raw) :=
  ⟨s.pswShadow_aluResult .., s.pcShadow_aluResult .., s.csShadow_aluResult ..⟩

theorem aluPair (s : State) (op : AluClass) (rd : Reg) (w : Bool) (first second a b : Word) (raw : Int) :
    SameShadows s (s.aluPair op rd w first second a b raw) :=
  ⟨s.pswShadow_aluPair .., s.pcShadow_aluPair .., s.csShadow_aluPair ..⟩

theorem applyFlagsWithCarry (s : State) (op : AluClass) (a b : Word) (raw : Int) (c : Bool) :
    SameShadows s (s.applyFlagsWithCarry op a b raw c) :=
  ⟨s.pswShadow_applyFlagsWithCarry .., s.pcShadow_applyFlagsWithCarry .., s.csShadow_applyFlagsWithCarry ..⟩

theorem afterInstruction (p : Option Pending) (s : State) :
    SameShadows s (Claims.afterInstruction p s) := by
  cases p with
  | none => exact refl s
  | some q => exact ite ⟨rfl, rfl, rfl⟩ (refl s)

end SameShadows

/-- An outcome that, where it is a next state, has the shadow registers of `s`. -/
def KeepsShadows (s : State) (o : Host.Outcome State Fault Refusal) : Prop := ∀ t, o = .next t → SameShadows s t

theorem keepsShadows_next {s t : State} (h : SameShadows s t) : KeepsShadows s (.next t) := by
  rintro _ ⟨⟩
  exact h

theorem keepsShadows_condJump (c : Cond) (off9 : BitVec 9) (s : State) : KeepsShadows s (condJump c off9 s) := by
  intro t h
  rcases condJump_next.mp h with ⟨-, rfl⟩ | ⟨-, -, rfl⟩
  · exact .refl _
  · exact .withPend s _

theorem keepsShadows_execJml (rx : Reg) (s : State) : KeepsShadows s (execJml rx s) := by
  intro t h
  obtain ⟨-, -, rfl⟩ := execJml_next.mp h
  exact .withPend s _

/-- No instruction but SWI writes a shadow register: one line for each shape of meaning. -/
theorem exec_keepsShadows {i : Instr} (hswi : i ≠ .swi) (s : State) : KeepsShadows s (exec i s) := by
  cases i with
  | swi => exact absurd rfl hswi
  | ldi | add | sub | and | or | xor | mul | mulImm | div | divImm | sl | sr | sra | ror | mov | lsi | swb | inv | neg =>
    exact keepsShadows_next (.aluResult ..)
  | mul32 | div32 => exact keepsShadows_next (.aluPair ..)
  | slc | src | sac | roc => exact keepsShadows_next (.trans (.setReg ..) (.applyFlagsWithCarry ..))
  | jz | jnz | jc | jnc | jn | jnn | jv | jnv => exact keepsShadows_condJump _ _ s
  | jml rx => exact keepsShadows_execJml rx s
  | ld => exact keepsShadows_next (.ite (.setReg ..) (.refl s))
  | st => exact keepsShadows_next (.ite (.store ..) (.refl s))
  | lds | mvsRead | smv => exact keepsShadows_next (.setReg ..)
  | sts => exact keepsShadows_next (.store ..)
  | mvsWrite => exact keepsShadows_next (.setSeg ..)
  | srs | srd | ers | erd | set | clr | set2 | clr2 | seti | clri => exact keepsShadows_next (.withPsw ..)
  | reti => exact keepsShadows_next (.trapReturn s)
  | halt | hlt => exact keepsShadows_next (.halted s)
  | nop | sopReserved | sysReserved | unrecognized => exact keepsShadows_next (.refl s)

/-- The statements' condition of a taken SWI is the machine's (48_system.md R353). -/
theorem swiTaken_eq (s : State) : s.swiTaken = swiIsTaken s.psw := rfl

/-- An instruction that is no taken SWI writes no shadow register. -/
theorem exec_sameShadows {i : Instr} {s t : State} (h : exec i s = .next t)
    (hnot : ¬ (i = .swi ∧ swiIsTaken s.psw = true)) : SameShadows s t := by
  by_cases hi : i = .swi
  · subst hi
    rcases execSwi_next.mp h with ⟨-, rfl⟩ | ⟨htaken, -, -⟩
    · exact .refl _
    · exact absurd ⟨rfl, htaken⟩ hnot
  · exact exec_keepsShadows hi s t h

/-- A SWI that is taken and answers a next state answers the trap entry. -/
theorem execSwi_taken {s t : State} (h : exec .swi s = .next t) (htaken : swiIsTaken s.psw = true) : t = s.trapEntry := by
  rcases execSwi_next.mp h with ⟨hignored, -⟩ | ⟨-, -, ht⟩
  · simp [swiTaken_eq, htaken] at hignored
  · exact ht

/-- A step whose instruction is no taken SWI keeps all three shadow registers. -/
theorem step_sameShadows {s t : State} (h : step s = .next t)
    (hnot : ¬ (Fetches s .swi ∧ swiIsTaken s.psw = true)) : SameShadows s t := by
  rcases step_next_fetches h with ⟨-, rfl | rfl⟩ | ⟨i, w, u, hi, hexec, rfl⟩
  · exact .refl _
  · exact .halted s
  · have hu : SameShadows (s.enter w) u := exec_sameShadows hexec (by
      rintro ⟨rfl, htaken⟩
      exact hnot ⟨hi, by simpa using htaken⟩)
    exact (SameShadows.enter s w).trans (hu.trans (.afterInstruction s.pend u))

/-- A step whose instruction is a taken SWI saves the whole PSW in PSW' and keeps PC' and CS'. -/
theorem step_shadows_of_taken_swi {s t : State} (h : step s = .next t) (hswi : Fetches s .swi)
    (htaken : swiIsTaken s.psw = true) :
    t.pswShadow = s.psw ∧ t.pcShadow = s.pcShadow ∧ t.csShadow = s.csShadow := by
  rcases step_next_fetches h with ⟨hnone, -⟩ | ⟨i, w, u, hi, hexec, rfl⟩
  · exact absurd hswi (hnone .swi)
  · obtain rfl : i = .swi := fetches_unique hi hswi
    obtain rfl : u = (s.enter w).trapEntry := execSwi_taken hexec (by simpa using htaken)
    have hend := SameShadows.afterInstruction s.pend (s.enter w).trapEntry
    exact ⟨by simp [hend.psw], by simp [hend.pc], by simp [hend.cs]⟩

/-- PC' and CS' are written by no step. -/
theorem step_pcShadow_csShadow {s t : State} (h : step s = .next t) :
    t.pcShadow = s.pcShadow ∧ t.csShadow = s.csShadow := by
  by_cases htrap : Fetches s .swi ∧ swiIsTaken s.psw = true
  · obtain ⟨hswi, htaken⟩ := htrap
    exact (step_shadows_of_taken_swi h hswi htaken).2
  · have hsame := step_sameShadows h htrap
    exact ⟨hsame.pc, hsame.cs⟩

/-- PC' and CS' keep for ever the values a run began with. -/
theorem runsTo_pcShadow_csShadow {n : Nat} {s t : State} (h : RunsTo n s t) :
    t.pcShadow = s.pcShadow ∧ t.csShadow = s.csShadow := by
  refine runsTo_keeps (P := fun u => u.pcShadow = s.pcShadow ∧ u.csShadow = s.csShadow)
    (fun u v ⟨hpc, hcs⟩ hstep => ?_) h ⟨rfl, rfl⟩
  obtain ⟨hpc', hcs'⟩ := step_pcShadow_csShadow hstep
  exact ⟨hpc'.trans hpc, hcs'.trans hcs⟩

/-- Settles O19: the step clause by whether the fetched instruction is a taken SWI, the run clause as an invariant of every run. -/
theorem shadowRegistersAreWrittenByATakenSwiOnly : Obligations.ShadowRegistersAreWrittenByATakenSwiOnly := by
  refine ⟨fun s t h => ?_, fun n t hrun => runsTo_pcShadow_csShadow hrun⟩
  obtain ⟨hpc, hcs⟩ := step_pcShadow_csShadow h
  refine ⟨hpc, hcs, ?_⟩
  by_cases htrap : Fetches s .swi ∧ swiIsTaken s.psw = true
  · obtain ⟨hswi, htaken⟩ := htrap
    exact .inl ⟨hswi, htaken, (step_shadows_of_taken_swi h hswi htaken).1⟩
  · exact .inr ⟨htrap, (step_sameShadows h htrap).psw⟩

end Sys2Proof.Proofs
end

section
/-! PROOFS. The shared shape of the one-destination ALU-class instructions, in the terms of the statements (43_alu.md R220 to R226), and LDI as a case of it (41_ldi_mov_lsi.md R180). -/

namespace Sys2Proof.Proofs

open Sys2Proof Sys2Proof.Machine Sys2Proof.Claims

/-- The flag law is what `aluResult` does to the PSW, whether or not the destination is written. -/
theorem aluResult_flagLaw (s : State) (op : AluClass) (rd : Reg) (w : Bool) (a b : Word) (raw : Int) :
    FlagLaw op a b raw s (s.aluResult op rd w a b raw) where
  n := by simp [negativeOf_iff]
  z := by simp [zeroOf_iff]
  v := by simp [overflowOf]
  c := by simp [carryOf]
  high := by simp

theorem aluResult_sameControl (s : State) (op : AluClass) (rd : Reg) (w : Bool) (a b : Word) (raw : Int) :
    SameControl s (s.aluResult op rd w a b raw) := by
  constructor <;> simp

theorem aluResult_sameMemory (s : State) (op : AluClass) (rd : Reg) (w : Bool) (a b : Word) (raw : Int) :
    SameMemory s (s.aluResult op rd w a b raw) := by
  constructor <;> simp

/-- An instruction that answers `aluResult` has the ALU-class outcome with the raw result reduced to a word. -/
theorem aluOutcome_aluResult (s : State) (op : AluClass) (rd : Reg) (w : Bool) (a b : Word) (raw : Int) :
    AluOutcome (.next (s.aluResult op rd w a b raw)) op rd w (mod16 raw) a b raw s :=
  ⟨_, rfl, s.reg_aluResult op rd w a b raw, aluResult_flagLaw .., aluResult_sameControl .., aluResult_sameMemory ..⟩

/-- A word with bit 15 clear is of class LDI (30_encoding.md R101). -/
theorem classOf_of_top_bit_clear {w : Word} (h : bitsAt w 15 1 = 0b0#1) : classOf w = .ldi := by
  have hsentinel : w ≠ 0xFFFF#16 := by
    rintro rfl
    exact absurd h (by decide)
  simp [classOf, hsentinel, h]

theorem decode_ldi_word (imm15 : BitVec 15) : decode (0b0#1 ++ imm15) = .ldi imm15 := by
  have htop : bitsAt (0b0#1 ++ imm15) 15 1 = 0b0#1 := BitVec.extractLsb'_append_eq_left
  have himm : bitsAt (0b0#1 ++ imm15) 0 15 = imm15 := BitVec.extractLsb'_append_eq_right
  simp only [decode, classOf_of_top_bit_clear htop, himm]

/-- LDI is the ALU-class shape with the zero-extended immediate as its raw result. -/
theorem exec_ldi_outcome (imm15 : BitVec 15) (s : State) :
    AluOutcome (exec (.ldi imm15) s) .ldi 0 true (BitVec.ofNat 16 imm15.toNat) 0 0 imm15.toNat s := by
  rw [← BitVec.ofInt_natCast]
  exact aluOutcome_aluResult s .ldi 0 true 0 0 imm15.toNat

/-- A 15-bit raw result has N = 0, C = 0 and Z = 1 iff it is 0. -/
theorem flagLaw_of_15_bits {op : AluClass} {a b : Word} {imm15 : BitVec 15} {s t : State}
    (h : FlagLaw op a b imm15.toNat s t) :
    pswN t.psw = false ∧ pswZ t.psw = decide (imm15 = 0) ∧ pswC t.psw = false := by
  have hbound : imm15.toNat < 32768 := imm15.isLt
  refine ⟨h.n.trans ?_, h.z.trans ?_, h.c.trans ?_⟩
  · exact decide_eq_false (by omega)
  · rw [decide_eq_decide]
    bv_omega
  · exact decide_eq_false (by omega)

theorem defaultOverflow_of_15_bits (op : AluClass) (a b : Word) (imm15 : BitVec 15) :
    Config.defaultOverflow op a b imm15.toNat = false := by
  have hbound : imm15.toNat < 32768 := imm15.isLt
  exact decide_eq_false (by omega)

/-- Settles O30: LDI's word decodes to it, and its effect is the ALU-class outcome whose raw result has 15 bits. -/
theorem loadImmediateEffect : Obligations.LoadImmediateEffect := by
  intro imm15 s
  obtain ⟨t, hexec, hreg, hflags, hcontrol, hmemory⟩ := exec_ldi_outcome imm15 s
  obtain ⟨hn, hz, hc⟩ := flagLaw_of_15_bits hflags
  exact ⟨decode_ldi_word imm15, defaultOverflow_of_15_bits .., t, hexec, hreg, hn, hz, hc, hflags.v, hflags.high,
    hcontrol, hmemory⟩

end Sys2Proof.Proofs
end

section
/-! PROOFS. The effects of the two data moves, a write of one register and a store, and LDS and STS as cases of them (42_load_store.md R203 to R205). -/

namespace Sys2Proof.Proofs

open Sys2Proof Sys2Proof.Machine Sys2Proof.Claims

/-! A write of one register. -/

theorem setReg_oneReg (s : State) (rd : Reg) (v : Word) : OneReg s (s.setReg rd v) rd true v := by
  intro r
  simp [State.reg_setReg]

theorem setReg_sameControl (s : State) (rd : Reg) (v : Word) : SameControl s (s.setReg rd v) := by
  constructor <;> simp

theorem setReg_sameMemory (s : State) (rd : Reg) (v : Word) : SameMemory s (s.setReg rd v) := by
  constructor <;> simp

/-- An instruction that answers `setReg` has the outcome of a move, with R15 as a destination like any other. -/
theorem moveOutcome_setReg (s : State) (rd : Reg) (v : Word) : MoveOutcome (.next (s.setReg rd v)) rd v s :=
  ⟨_, rfl, setReg_oneReg s rd v, s.psw_setReg rd v, setReg_sameControl s rd v, setReg_sameMemory s rd v⟩

/-! A store. -/

/-- In range and on canonical memory, `store` makes exactly one store (20_memory.md R78). -/
theorem store_stored {s : State} (hwf : s.mem.wf = true) {pa : Nat} (hpa : pa ≤ 0xFFFFF) (v : Word) :
    Stored pa v s (s.store pa v) where
  word := Memory.readWord_writeWord_same hwf ((inRange_iff pa).mpr hpa) v
  others _ hne := Memory.readWord_writeWord_other hwf hne v
  report := s.observed_store pa v

theorem store_sameRegs (s : State) (pa : Nat) (v : Word) : SameRegs s (s.store pa v) := s.reg_store pa v

theorem store_sameControl (s : State) (pa : Nat) (v : Word) : SameControl s (s.store pa v) := by
  constructor <;> simp

/-! LDS and STS. -/

/-- A physical address held in a register is a 16-bit one (42_load_store.md R203). -/
theorem directAddr_le (s : State) (rs : Reg) : directAddr s rs ≤ 0xFFFF :=
  Nat.le_of_lt_succ (s.reg rs).isLt

theorem exec_lds (seg : SegReg) (rd rs : Reg) (s : State) :
    exec (.lds seg rd rs) s = .next (s.setReg rd (s.mem.readWord (directAddr s rs))) := rfl

theorem exec_sts (seg : SegReg) (rd rs : Reg) (s : State) :
    exec (.sts seg rd rs) s = .next (s.store (directAddr s rs) (s.reg rd)) := rfl

/-- Settles O28: LDS is one register write, and STS one store that is in range because its address has 16 bits. -/
theorem directLoadAndStoreEffect : Obligations.DirectLoadAndStoreEffect := by
  intro seg rd rs s
  have haddr : directAddr s rs ≤ 0xFFFF := directAddr_le s rs
  refine ⟨rfl, haddr, ?_, fun hwf =>
    ⟨_, exec_sts seg rd rs s, ?_, store_sameRegs s _ _, s.psw_store .., store_sameControl ..⟩⟩
  · rw [exec_lds]
    exact moveOutcome_setReg s rd _
  · exact store_stored hwf (by omega) (s.reg rd)

end Sys2Proof.Proofs
end

section
/-! PROOFS. The effects of the ALU2 instructions (43_alu.md R226): the shape `alu2` in the terms of the statements, the word and the carry of each raw result, and ADD, SUB, AND, OR and XOR as cases of it (R227 to R231). -/

namespace Sys2Proof.Proofs

open Sys2Proof Sys2Proof.Machine Sys2Proof.Claims

/-! The common shape. -/

theorem operand_eq_operandOf (s : State) (b : AluOperand) : s.operand b = operandOf s b := by
  cases b with
  | reg rs => rfl
  | imm v => exact (BitVec.ofNat_toNat 16 v).symm

theorem aluOutcome_alu2 (op : AluClass) (rawOf : Word → Word → Int) (rd : Reg) (w : Bool) (b : AluOperand) (s : State) :
    AluOutcome (alu2 op rawOf rd w b s) op rd w (mod16 (rawOf (s.reg rd) (operandOf s b))) (s.reg rd) (operandOf s b)
      (rawOf (s.reg rd) (operandOf s b)) s := by
  rw [alu2, operand_eq_operandOf]
  exact aluOutcome_aluResult ..

/-- An ALU2 instruction's outcome with the result and the carry in closed form, from what its raw result reduces to and whether it left the 16-bit range (43_alu.md R220, R223). -/
theorem carryOutcome_alu2 {op : AluClass} {rawOf : Word → Word → Int} {rd : Reg} {w : Bool} {b : AluOperand} {s : State}
    {result : Word} {c : Bool} (hresult : mod16 (rawOf (s.reg rd) (operandOf s b)) = result)
    (hcarry : carryOf (rawOf (s.reg rd) (operandOf s b)) = c) :
    CarryOutcome (alu2 op rawOf rd w b s) op rd w result (s.reg rd) (operandOf s b)
      (rawOf (s.reg rd) (operandOf s b)) c s := by
  subst hresult hcarry
  exact aluOutcome_alu2 op rawOf rd w b s

/-! Raw results: the word each reduces to, and its carry. -/

theorem mod16_rawAdd (a b : Word) : mod16 (rawAdd a b) = a + b := by
  calc mod16 (rawAdd a b)
      = mod16 a.toNat + mod16 b.toNat := BitVec.ofInt_add ..
    _ = a + b := by rw [mod16_toNat, mod16_toNat]

theorem mod16_rawSub (a b : Word) : mod16 (rawSub a b) = a - b := by
  calc mod16 (rawSub a b)
      = mod16 a.toNat + mod16 (-b.toNat) := BitVec.ofInt_add ..
    _ = mod16 a.toNat + -mod16 b.toNat := congrArg (mod16 a.toNat + ·) BitVec.ofInt_neg
    _ = a - b := by rw [mod16_toNat, mod16_toNat, BitVec.sub_eq_add_neg]

/-- A sum is never negative, so C is the carry out (43_alu.md R227). -/
theorem carryOf_rawAdd (a b : Word) : carryOf (rawAdd a b) = decide (65535 < a.toNat + b.toNat) := by
  rw [carryOf, rawAdd, decide_eq_decide]
  omega

/-- A difference never exceeds `0xFFFF`, so C is the borrow (43_alu.md R228). -/
theorem carryOf_rawSub (a b : Word) : carryOf (rawSub a b) = decide (a.toNat < b.toNat) := by
  have ha : a.toNat < 65536 := a.isLt
  rw [carryOf, rawSub, decide_eq_decide]
  omega

/-- A raw result that is a word has C = 0 (43_alu.md R223). -/
theorem carryOf_toNat (v : Word) : carryOf (v.toNat : Int) = false := by
  have hbound : v.toNat < 65536 := v.isLt
  exact decide_eq_false (by omega)

/-- On a raw result that is a word, the default overflow rule reads the sign bit (43_alu.md R224). -/
theorem defaultOverflow_toNat (op : AluClass) (a b v : Word) : Config.defaultOverflow op a b v.toNat = v.msb := by
  rw [Config.defaultOverflow, BitVec.msb_eq_decide, decide_eq_decide]
  omega

/-- Settles O33: ADD and SUB are the ALU2 shape, with the carry of an exact sum and of an exact difference. -/
theorem addAndSubtractEffect : Obligations.AddAndSubtractEffect := by
  intro rd w b s
  constructor
  · exact carryOutcome_alu2 (rawOf := rawAdd) (mod16_rawAdd _ _) (carryOf_rawAdd _ _)
  · exact carryOutcome_alu2 (rawOf := rawSub) (mod16_rawSub _ _) (carryOf_rawSub _ _)

/-- Settles O34: AND, OR and XOR are the ALU2 shape, and their raw results are words, so C = 0 and the default V is N. -/
theorem logicEffect : Obligations.LogicEffect := by
  refine ⟨fun rd w b s => ⟨?_, ?_, ?_⟩, defaultOverflow_toNat⟩
  · exact carryOutcome_alu2 (rawOf := rawAnd) (mod16_toNat _) (carryOf_toNat _)
  · exact carryOutcome_alu2 (rawOf := rawOr) (mod16_toNat _) (carryOf_toNat _)
  · exact carryOutcome_alu2 (rawOf := rawXor) (mod16_toNat _) (carryOf_toNat _)

end Sys2Proof.Proofs
end

section
/-! PROOFS. The effect of the trap return in the terms of the statements, and RETI as it (48_system.md R354, 60_exceptions.md R405). -/

namespace Sys2Proof.Proofs

open Sys2Proof Sys2Proof.Machine Sys2Proof.Claims

/-- Writing S = 0 and I back as it was clears bit 5 alone. -/
theorem getLsbD_pswWithView_clearS (p : Word) (k : Nat) :
    (pswWithView p false (pswI p)).getLsbD k = if k = 5 then false else p.getLsbD k := by
  rw [getLsbD_pswWithView]
  by_cases hI : k = 4
  · subst hI
    rfl
  · rw [if_neg hI]

theorem getLsbD_psw_trapReturn (s : State) (k : Nat) :
    s.trapReturn.psw.getLsbD k = if k = 5 then false else s.psw.getLsbD k := by
  rw [State.psw_trapReturn, getLsbD_pswWithView_clearS]

theorem trapReturn_sameRegs (s : State) : SameRegs s s.trapReturn := s.reg_trapReturn

theorem trapReturn_sameControl (s : State) : SameControl s s.trapReturn := by
  constructor <;> simp

theorem trapReturn_sameMemory (s : State) : SameMemory s s.trapReturn := by
  constructor <;> simp

theorem exec_reti (s : State) : exec .reti s = .next s.trapReturn := rfl

theorem decode_reti_word : decode 0xFFF3#16 = .reti := by decide

/-- Settles O54: RETI's word decodes to it, and it answers the trap return, which writes the PSW only and there bit 5 only. -/
theorem returnFromInterruptEffect : Obligations.ReturnFromInterruptEffect :=
  ⟨decode_reti_word, fun s => ⟨s.trapReturn, exec_reti s, fun k _ => getLsbD_psw_trapReturn s k,
    trapReturn_sameRegs s, trapReturn_sameControl s, trapReturn_sameMemory s⟩⟩

end Sys2Proof.Proofs
end

section
/-! PROOFS. The classes of words by their prefixes (30_encoding.md R101), and the leading-ones form of the same classes (R102). -/

namespace Sys2Proof.Proofs

open Sys2Proof Sys2Proof.Machine Sys2Proof.Claims

/-- A field of a word as a number. -/
theorem bitsAt_eq_iff {w : Word} {lo len : Nat} {v : BitVec len} :
    bitsAt w lo len = v ↔ w.toNat / 2 ^ lo % 2 ^ len = v.toNat := by
  rw [← BitVec.toNat_inj, bitsAt, BitVec.extractLsb'_toNat, Nat.shiftRight_eq_div_pow]

theorem getLsbD_bitsAt (w : Word) (lo len k : Nat) : (bitsAt w lo len).getLsbD k = (decide (k < len) && w.getLsbD (lo + k)) :=
  BitVec.getLsbD_extractLsb' ..

theorem isUnrecognizedWord_iff {w : Word} :
    isUnrecognizedWord w = true ↔ (0xFFC0 ≤ w.toNat ∧ w.toNat ≤ 0xFFEF) ∨ (0xFFF8 ≤ w.toNat ∧ w.toNat ≤ 0xFFFE) := by
  simp [isUnrecognizedWord]

/-- The high bits that make a word one of a class, each class by itself and not in priority order. -/
def HasPrefix (w : Word) : WordClass → Prop
  | .halt => w = 0xFFFF#16
  | .ldi => bitsAt w 15 1 = 0b0#1
  | .ldst => bitsAt w 14 2 = 0b10#2
  | .alu2 => bitsAt w 13 3 = 0b110#3
  | .jump => bitsAt w 12 4 = 0b1110#4
  | .ldsSts => bitsAt w 11 5 = 0b11110#5
  | .mov => bitsAt w 10 6 = 0b111110#6
  | .lsi => bitsAt w 9 7 = 0b1111110#7
  | .sop => bitsAt w 8 8 = 0b11111110#8
  | .mvs => bitsAt w 7 9 = 0b111111110#9
  | .smv => bitsAt w 6 10 = 0b1111111110#10
  | .system => bitsAt w 3 13 = 0b1111111111110#13
  | .unrecognized => isUnrecognizedWord w = true

/-- The leading ones of a word are counted up to its first zero bit. -/
theorem onesFrom_of_ones_then_zero {w : Word} {m : Nat} (hzero : w.getLsbD m = false) {n : Nat}
    (hones : ∀ j, j < n → w.getLsbD (m + 1 + j) = true) : onesFrom w (m + 1 + n) = n := by
  induction n with
  | zero => simp [onesFrom, hzero]
  | succ n ih =>
    rw [← Nat.add_assoc, onesFrom, hones n (by omega), ih fun j hj => hones j (by omega), if_pos rfl, Nat.add_comm]

theorem onesFrom_of_prefix {w : Word} {m n : Nat} (h : bitsAt w m (n + 1) = BitVec.allOnes n ++ 0#1) :
    onesFrom w (m + 1 + n) = n := by
  have hbit (k : Nat) (hk : k < n + 1) : w.getLsbD (m + k) = (BitVec.allOnes n ++ 0#1).getLsbD k := by
    rw [← h, getLsbD_bitsAt, decide_eq_true hk, Bool.true_and]
  refine onesFrom_of_ones_then_zero (m := m) ((hbit 0 (by omega)).trans ?_) fun j hj => ?_
  · simp [BitVec.getElem_append]
  rw [Nat.add_assoc, hbit (1 + j) (by omega), BitVec.getLsbD_append]
  simp [hj]

/-- A word with the head of a class has that class by its leading ones; a word of no class has 10, 11, 13, 14 or 15 of them. -/
theorem classByLeadingOnes_of_hasPrefix {w : Word} {c : WordClass} (h : HasPrefix w c) : classByLeadingOnes w = c := by
  unfold classByLeadingOnes
  cases c with
  | halt => rw [show w = 0xFFFF#16 from h]; rfl
  | ldi => rw [onesFrom_of_prefix (m := 15) (n := 0) h]; rfl
  | ldst => rw [onesFrom_of_prefix (m := 14) (n := 1) h]; rfl
  | alu2 => rw [onesFrom_of_prefix (m := 13) (n := 2) h]; rfl
  | jump => rw [onesFrom_of_prefix (m := 12) (n := 3) h]; rfl
  | ldsSts => rw [onesFrom_of_prefix (m := 11) (n := 4) h]; rfl
  | mov => rw [onesFrom_of_prefix (m := 10) (n := 5) h]; rfl
  | lsi => rw [onesFrom_of_prefix (m := 9) (n := 6) h]; rfl
  | sop => rw [onesFrom_of_prefix (m := 8) (n := 7) h]; rfl
  | mvs => rw [onesFrom_of_prefix (m := 7) (n := 8) h]; rfl
  | smv => rw [onesFrom_of_prefix (m := 6) (n := 9) h]; rfl
  | system => rw [onesFrom_of_prefix (m := 3) (n := 12) h]; rfl
  | unrecognized =>
    have hrange := isUnrecognizedWord_iff.mp h
    rcases (by omega : w.toNat / 32 = 0x7FE ∨ w.toNat / 16 = 0xFFE ∨ w.toNat / 4 = 0x3FFE ∨ w.toNat / 2 = 0x7FFE ∨
      w.toNat = 0xFFFE) with hw | hw | hw | hw | hw
    · rw [onesFrom_of_prefix (m := 5) (n := 10) (bitsAt_eq_iff.mpr (by simp; omega))]; rfl
    · rw [onesFrom_of_prefix (m := 4) (n := 11) (bitsAt_eq_iff.mpr (by simp; omega))]; rfl
    · rw [onesFrom_of_prefix (m := 2) (n := 13) (bitsAt_eq_iff.mpr (by simp; omega))]; rfl
    · rw [onesFrom_of_prefix (m := 1) (n := 14) (bitsAt_eq_iff.mpr (by simp; omega))]; rfl
    · rw [onesFrom_of_prefix (m := 0) (n := 15) (bitsAt_eq_iff.mpr (by simp; omega))]; rfl

/-- A word has the head of one class at most. -/
theorem hasPrefix_unique {w : Word} {c d : WordClass} (hc : HasPrefix w c) (hd : HasPrefix w d) : c = d :=
  (classByLeadingOnes_of_hasPrefix hc).symm.trans (classByLeadingOnes_of_hasPrefix hd)

/-- A word has the head of one class at least: the classes' ranges of words leave no gap. -/
theorem exists_hasPrefix (w : Word) : ∃ c, HasPrefix w c := by
  have hw : w.toNat < 0x10000 := w.isLt
  rcases (by omega : w.toNat / 0x8000 = 0 ∨ w.toNat / 0x4000 = 2 ∨ w.toNat / 0x2000 = 6 ∨ w.toNat / 0x1000 = 14 ∨
      w.toNat / 0x800 = 30 ∨ w.toNat / 0x400 = 62 ∨ w.toNat / 0x200 = 126 ∨ w.toNat / 0x100 = 254 ∨
      w.toNat / 0x80 = 510 ∨ w.toNat / 0x40 = 1022 ∨ w.toNat / 8 = 8190 ∨ w.toNat = 0xFFFF ∨
      0xFFC0 ≤ w.toNat ∧ w.toNat ≤ 0xFFEF ∨ 0xFFF8 ≤ w.toNat ∧ w.toNat ≤ 0xFFFE)
    with h | h | h | h | h | h | h | h | h | h | h | h | h
  · exact ⟨.ldi, bitsAt_eq_iff.mpr (by simp; omega)⟩
  · exact ⟨.ldst, bitsAt_eq_iff.mpr (by simp; omega)⟩
  · exact ⟨.alu2, bitsAt_eq_iff.mpr (by simp; omega)⟩
  · exact ⟨.jump, bitsAt_eq_iff.mpr (by simp; omega)⟩
  · exact ⟨.ldsSts, bitsAt_eq_iff.mpr (by simp; omega)⟩
  · exact ⟨.mov, bitsAt_eq_iff.mpr (by simp; omega)⟩
  · exact ⟨.lsi, bitsAt_eq_iff.mpr (by simp; omega)⟩
  · exact ⟨.sop, bitsAt_eq_iff.mpr (by simp; omega)⟩
  · exact ⟨.mvs, bitsAt_eq_iff.mpr (by simp; omega)⟩
  · exact ⟨.smv, bitsAt_eq_iff.mpr (by simp; omega)⟩
  · exact ⟨.system, bitsAt_eq_iff.mpr (by simp; omega)⟩
  · exact ⟨.halt, BitVec.eq_of_toNat_eq h⟩
  · exact ⟨.unrecognized, isUnrecognizedWord_iff.mpr h⟩

/-- The priority order of 30_encoding.md R101 gives a word a class whose head it has: it tries every other class before `unrecognized`. -/
theorem hasPrefix_classOf (w : Word) : HasPrefix w (classOf w) := by
  have step {p : Prop} [Decidable p] {c d : WordClass} (hc : p → HasPrefix w c) (hd : ¬ p → HasPrefix w d) :
      HasPrefix w (if p then c else d) := iteInduction hc hd
  refine step id fun halt => step id fun ldi => step id fun ldst => step id fun alu2 => step id fun jump =>
    step id fun ldsSts => step id fun mov => step id fun lsi => step id fun sop => step id fun mvs =>
    step id fun smv => step id fun system => ?_
  obtain ⟨c, hc⟩ := exists_hasPrefix w
  cases c with
  | unrecognized => exact hc
  | halt => exact absurd hc halt
  | ldi => exact absurd hc ldi
  | ldst => exact absurd hc ldst
  | alu2 => exact absurd hc alu2
  | jump => exact absurd hc jump
  | ldsSts => exact absurd hc ldsSts
  | mov => exact absurd hc mov
  | lsi => exact absurd hc lsi
  | sop => exact absurd hc sop
  | mvs => exact absurd hc mvs
  | smv => exact absurd hc smv
  | system => exact absurd hc system

/-- The class of a word is the one whose head it has, so the priority order decides nothing (30_encoding.md R101). -/
theorem classOf_eq_iff {w : Word} {c : WordClass} : classOf w = c ↔ HasPrefix w c :=
  ⟨fun h => h ▸ hasPrefix_classOf w, hasPrefix_unique (hasPrefix_classOf w)⟩

/-- Settles O3: both forms give a word the class whose head it has. -/
theorem leadingOnesGiveTheSameClass : Obligations.LeadingOnesGiveTheSameClass := fun w =>
  (classByLeadingOnes_of_hasPrefix (hasPrefix_classOf w)).symm

end Sys2Proof.Proofs
end

section
/-! PROOFS. Every word is what its own fields encode (30_encoding.md R104 to R115), and with it that decoding drops no bit. -/

namespace Sys2Proof.Proofs

open Sys2Proof Sys2Proof.Machine Sys2Proof.Claims

/-! Fields written back. -/

/-- Two adjacent fields of a word are one field. -/
theorem bitsAt_append_bitsAt (w : Word) {hi lo m n : Nat} (h : hi = lo + n) :
    bitsAt w hi m ++ bitsAt w lo n = bitsAt w lo (m + n) :=
  BitVec.extractLsb'_append_extractLsb'_eq_extractLsb' h

theorem bitsAt_all (w : Word) : bitsAt w 0 16 = w := BitVec.extractLsb'_eq_self

theorem regBits_regAt (w : Word) (lo : Nat) : regBits (regAt w lo) = bitsAt w lo 4 := by
  simp [regBits, regAt]

theorem ofBool_flagAt (w : Word) (k : Nat) : BitVec.ofBool (flagAt w k) = bitsAt w k 1 := by
  unfold flagAt
  generalize bitsAt w k 1 = b
  revert b; decide

theorem segCode_segOfCode : ∀ c : BitVec 2, segCode (segOfCode c) = c := by decide

theorem smvSrcCode_smvSrcOfCode : ∀ c : BitVec 2, smvSrcCode (smvSrcOfCode c) = c := by decide

/-- A one-bit field read as a Boolean is the bit. -/
theorem flagAt_eq_true_iff {w : Word} {k : Nat} : flagAt w k = true ↔ bitsAt w k 1 = 1#1 := beq_iff_eq

theorem bitsAt_of_not_flagAt {w : Word} {k : Nat} (h : ¬ flagAt w k = true) : bitsAt w k 1 = 0#1 := by
  rw [← ofBool_flagAt, Bool.eq_false_of_not_eq_true h]; rfl

theorem aluOperandBits_aluOperandAt (w : Word) : aluOperandBits (aluOperandAt w) = bitsAt w 0 5 := by
  unfold aluOperandAt
  split
  case isTrue himm =>
    calc 1#1 ++ bitsAt w 0 4
        = bitsAt w 4 1 ++ bitsAt w 0 4 := by rw [flagAt_eq_true_iff.mp himm]
      _ = bitsAt w 0 5 := bitsAt_append_bitsAt w rfl
  case isFalse hreg =>
    calc 0#1 ++ regBits (regAt w 0)
        = bitsAt w 4 1 ++ bitsAt w 0 4 := by rw [bitsAt_of_not_flagAt hreg, regBits_regAt]
      _ = bitsAt w 0 5 := bitsAt_append_bitsAt w rfl

/-! The formats with a word's own fields. -/

theorem encodeAlu_fields {w : Word} (h : HasPrefix w .alu2) :
    encodeAlu (bitsAt w 10 3) (regAt w 6) (flagAt w 5) (bitsAt w 0 5) = w := by
  have hprefix : bitsAt w 13 3 = 0b110#3 := h
  rw [encodeAlu, ← hprefix, regBits_regAt, ofBool_flagAt]
  simp (disch := omega) only [bitsAt_append_bitsAt]
  exact bitsAt_all w

theorem encodeShift_fields {w : Word} (h : HasPrefix w .alu2) (hshift : bitsAt w 10 3 = 7#3) :
    encodeShift (bitsAt w 3 3) (regAt w 6) (bitsAt w 0 3) = w := by
  have hprefix : bitsAt w 13 3 = 0b110#3 := h
  rw [encodeShift, ← hprefix, ← hshift, regBits_regAt]
  simp (disch := omega) only [bitsAt_append_bitsAt]
  exact bitsAt_all w

theorem encodeJump_fields {w : Word} (h : HasPrefix w .jump) : encodeJump (bitsAt w 9 3) (bitsAt w 0 9) = w := by
  have hprefix : bitsAt w 12 4 = 0b1110#4 := h
  rw [encodeJump, ← hprefix]
  simp (disch := omega) only [bitsAt_append_bitsAt]
  exact bitsAt_all w

theorem encodeSop_fields {w : Word} (h : HasPrefix w .sop) : encodeSop (bitsAt w 4 4) (bitsAt w 0 4) = w := by
  have hprefix : bitsAt w 8 8 = 0b11111110#8 := h
  rw [encodeSop, ← hprefix]
  simp (disch := omega) only [bitsAt_append_bitsAt]
  exact bitsAt_all w

theorem encodeLdsSts_fields {w : Word} (h : HasPrefix w .ldsSts) :
    encodeLdsSts (bitsAt w 10 1) (segOfCode (bitsAt w 8 2)) (regAt w 4) (regAt w 0) = w := by
  have hprefix : bitsAt w 11 5 = 0b11110#5 := h
  rw [encodeLdsSts, ← hprefix, segCode_segOfCode, regBits_regAt, regBits_regAt]
  simp (disch := omega) only [bitsAt_append_bitsAt]
  exact bitsAt_all w

theorem encodeMvs_fields {w : Word} (h : HasPrefix w .mvs) :
    encodeMvs (bitsAt w 6 1) (regAt w 2) (segOfCode (bitsAt w 0 2)) = w := by
  have hprefix : bitsAt w 7 9 = 0b111111110#9 := h
  rw [encodeMvs, ← hprefix, segCode_segOfCode, regBits_regAt]
  simp (disch := omega) only [bitsAt_append_bitsAt]
  exact bitsAt_all w

theorem encodeSystem_fields {w : Word} (h : HasPrefix w .system) : encodeSystem (bitsAt w 0 3) = w := by
  have hprefix : bitsAt w 3 13 = 0b1111111111110#13 := h
  rw [encodeSystem, ← hprefix]
  simp (disch := omega) only [bitsAt_append_bitsAt]
  exact bitsAt_all w

theorem encode_ldi_fields {w : Word} (h : HasPrefix w .ldi) : encode (.ldi (bitsAt w 0 15)) = w := by
  have hprefix : bitsAt w 15 1 = 0b0#1 := h
  rw [encode, ← hprefix]
  simp (disch := omega) only [bitsAt_append_bitsAt]
  exact bitsAt_all w

theorem encode_mov_fields {w : Word} (h : HasPrefix w .mov) :
    encode (.mov (regAt w 6) (regAt w 2) (bitsAt w 0 2)) = w := by
  have hprefix : bitsAt w 10 6 = 0b111110#6 := h
  rw [encode, ← hprefix, regBits_regAt, regBits_regAt]
  simp (disch := omega) only [bitsAt_append_bitsAt]
  exact bitsAt_all w

theorem encode_lsi_fields {w : Word} (h : HasPrefix w .lsi) : encode (.lsi (regAt w 5) (bitsAt w 0 5)) = w := by
  have hprefix : bitsAt w 9 7 = 0b1111110#7 := h
  rw [encode, ← hprefix, regBits_regAt]
  simp (disch := omega) only [bitsAt_append_bitsAt]
  exact bitsAt_all w

theorem encode_smv_fields {w : Word} (h : HasPrefix w .smv) :
    encode (.smv (smvSrcOfCode (bitsAt w 4 2)) (regAt w 0)) = w := by
  have hprefix : bitsAt w 6 10 = 0b1111111110#10 := h
  rw [encode, ← hprefix, smvSrcCode_smvSrcOfCode, regBits_regAt]
  simp (disch := omega) only [bitsAt_append_bitsAt]
  exact bitsAt_all w

/-! The decoder of each class, on a word of that class. -/

/-- A decoded instruction is well-formed and its word is the word it was decoded from. -/
def DecodesBack (i : Instr) (w : Word) : Prop := i.wellFormed = true ∧ encode i = w

/-- The code that a `match` on a field has found is the field. -/
theorem eq_ofFin_of_toFin_eq {n : Nat} {v : BitVec n} {k : Fin (2 ^ n)} (h : v.toFin = k) : v = BitVec.ofFin k :=
  BitVec.toFin_inj.mp h

theorem isOdd_regAt (w : Word) (lo : Nat) : isOdd (regAt w lo) = flagAt w lo := by
  have hfield : (bitsAt w lo 4).toNat % 2 = (bitsAt w lo 1).toNat := by
    simp only [bitsAt, BitVec.extractLsb'_toNat]
    omega
  rw [Bool.eq_iff_iff, flagAt_eq_true_iff, ← BitVec.toNat_inj, ← hfield]
  exact beq_iff_eq

theorem encodeAlu_operand {w : Word} (h : HasPrefix w .alu2) {op : Fin (2 ^ 3)} (hop : (bitsAt w 10 3).toFin = op) :
    encodeAlu (BitVec.ofFin op) (regAt w 6) (flagAt w 5) (aluOperandBits (aluOperandAt w)) = w := by
  rw [← eq_ofFin_of_toFin_eq hop, aluOperandBits_aluOperandAt, encodeAlu_fields h]

theorem decodesBack_decodeMul {w : Word} (h : HasPrefix w .alu2) (hop : (bitsAt w 10 3).toFin = 5) :
    DecodesBack (decodeMul w) w := by
  have hword := encodeAlu_operand h hop
  unfold decodeMul
  split_ifs with himm hodd
  · rw [aluOperandAt, if_pos himm] at hword
    exact ⟨(isOdd_regAt w 6).trans hodd, hword⟩
  · rw [aluOperandAt, if_pos himm] at hword
    exact ⟨by simp [Instr.wellFormed, isOdd_regAt, hodd], hword⟩
  · rw [aluOperandAt, if_neg himm] at hword
    exact ⟨rfl, hword⟩

theorem decodesBack_decodeDiv {w : Word} (h : HasPrefix w .alu2) (hop : (bitsAt w 10 3).toFin = 6) :
    DecodesBack (decodeDiv w) w := by
  have hword := encodeAlu_operand h hop
  unfold decodeDiv
  split_ifs with himm hodd
  · rw [aluOperandAt, if_pos himm] at hword
    exact ⟨(isOdd_regAt w 6).trans hodd, hword⟩
  · rw [aluOperandAt, if_pos himm] at hword
    exact ⟨by simp [Instr.wellFormed, isOdd_regAt, hodd], hword⟩
  · rw [aluOperandAt, if_neg himm] at hword
    exact ⟨rfl, hword⟩

theorem decodesBack_decodeShift {w : Word} (h : HasPrefix w .alu2) (hop : (bitsAt w 10 3).toFin = 7) :
    DecodesBack (decodeShift w) w := by
  have hword {type : Fin (2 ^ 3)} (htype : (bitsAt w 3 3).toFin = type) :
      encodeShift (BitVec.ofFin type) (regAt w 6) (bitsAt w 0 3) = w := by
    rw [← eq_ofFin_of_toFin_eq htype, encodeShift_fields h (eq_ofFin_of_toFin_eq hop)]
  unfold decodeShift
  split
  all_goals exact ⟨rfl, hword ‹_›⟩

theorem decodesBack_decodeAlu2 {w : Word} (h : HasPrefix w .alu2) : DecodesBack (decodeAlu2 w) w := by
  unfold decodeAlu2
  split
  case h_6 hop => exact decodesBack_decodeMul h hop
  case h_7 hop => exact decodesBack_decodeDiv h hop
  case h_8 hop => exact decodesBack_decodeShift h hop
  all_goals exact ⟨rfl, encodeAlu_operand h ‹_›⟩

theorem decodesBack_decodeJump {w : Word} (h : HasPrefix w .jump) : DecodesBack (decodeJump w) w := by
  have hword {cond : Fin (2 ^ 3)} (hcond : (bitsAt w 9 3).toFin = cond) :
      encodeJump (BitVec.ofFin cond) (bitsAt w 0 9) = w := by
    rw [← eq_ofFin_of_toFin_eq hcond, encodeJump_fields h]
  unfold decodeJump
  split
  all_goals exact ⟨rfl, hword ‹_›⟩

theorem decodesBack_decodeLdSt {w : Word} (h : HasPrefix w .ldst) : DecodesBack (decodeLdSt w) w := by
  have hprefix : bitsAt w 14 2 = 0b10#2 := h
  unfold decodeLdSt
  split_ifs with hd
  · refine ⟨rfl, ?_⟩
    rw [encode, ← hprefix, ← flagAt_eq_true_iff.mp hd, regBits_regAt, regBits_regAt]
    simp (disch := omega) only [bitsAt_append_bitsAt]
    exact bitsAt_all w
  · refine ⟨rfl, ?_⟩
    rw [encode, ← hprefix, ← bitsAt_of_not_flagAt hd, regBits_regAt, regBits_regAt]
    simp (disch := omega) only [bitsAt_append_bitsAt]
    exact bitsAt_all w

theorem decodesBack_decodeLdsSts {w : Word} (h : HasPrefix w .ldsSts) : DecodesBack (decodeLdsSts w) w := by
  have hword := encodeLdsSts_fields h
  unfold decodeLdsSts
  split_ifs with hd
  · rw [flagAt_eq_true_iff.mp hd] at hword
    exact ⟨rfl, hword⟩
  · rw [bitsAt_of_not_flagAt hd] at hword
    exact ⟨rfl, hword⟩

theorem decodesBack_decodeMvs {w : Word} (h : HasPrefix w .mvs) : DecodesBack (decodeMvs w) w := by
  have hword := encodeMvs_fields h
  unfold decodeMvs
  split_ifs with hd
  · rw [flagAt_eq_true_iff.mp hd] at hword
    exact ⟨rfl, hword⟩
  · rw [bitsAt_of_not_flagAt hd] at hword
    exact ⟨rfl, hword⟩

/-- The low bits of a field are a field. -/
theorem extractLsb'_bitsAt (w : Word) (lo : Nat) {len len' : Nat} (h : len' ≤ len) :
    (bitsAt w lo len).extractLsb' 0 len' = bitsAt w lo len' := by
  apply BitVec.eq_of_toNat_eq
  simp only [bitsAt, BitVec.extractLsb'_toNat, Nat.shiftRight_zero]
  exact Nat.mod_mod_of_dvd _ (Nat.pow_dvd_pow 2 h)

theorem twelve_le_of_no_other : ∀ k : Fin (2 ^ 4), k ≠ 0 → k ≠ 1 → k ≠ 2 → k ≠ 3 → k ≠ 4 → k ≠ 5 → k ≠ 6 → k ≠ 7 →
    k ≠ 8 → k ≠ 9 → k ≠ 10 → k ≠ 11 → 12 ≤ k := by
  intro k
  fin_cases k <;> simp

/-- The codes 12 to 15 of a four-bit field have their two high bits set. -/
theorem append_low_of_sopReserved : ∀ v : BitVec 4, 12 ≤ v.toFin → 0b11#2 ++ v.extractLsb' 0 2 = v := by decide

/-- The codes 4 to 7 of a three-bit field have their high bit set. -/
theorem append_low_of_sysReserved : ∀ v : BitVec 3, 4 ≤ v.toFin → 1#1 ++ v.extractLsb' 0 2 = v := by decide

theorem decodesBack_sopReserved {w : Word} (h : HasPrefix w .sop) (htype : 12 ≤ (bitsAt w 4 4).toFin) :
    DecodesBack (.sopReserved (bitsAt w 4 2) (bitsAt w 0 4)) w := by
  refine ⟨rfl, ?_⟩
  rw [encode, ← extractLsb'_bitsAt w 4 (show 2 ≤ 4 by omega), append_low_of_sopReserved _ htype, encodeSop_fields h]

theorem decodesBack_sysReserved {w : Word} (h : HasPrefix w .system) (hop : 4 ≤ (bitsAt w 0 3).toFin) :
    DecodesBack (.sysReserved (bitsAt w 0 2)) w := by
  refine ⟨rfl, ?_⟩
  rw [encode, ← extractLsb'_bitsAt w 0 (show 2 ≤ 3 by omega), append_low_of_sysReserved _ hop, encodeSystem_fields h]

theorem decodesBack_decodeSop {w : Word} (h : HasPrefix w .sop) : DecodesBack (decodeSop w) w := by
  have hword {type : Fin (2 ^ 4)} (htype : (bitsAt w 4 4).toFin = type) :
      encodeSop (BitVec.ofFin type) (bitsAt w 0 4) = w := by
    rw [← eq_ofFin_of_toFin_eq htype, encodeSop_fields h]
  have hreg {type : Fin (2 ^ 4)} (htype : (bitsAt w 4 4).toFin = type) :
      encodeSop (BitVec.ofFin type) (regBits (regAt w 0)) = w := by
    rw [regBits_regAt, hword htype]
  unfold decodeSop
  split
  case h_9 htype | h_10 htype => exact ⟨rfl, hword htype⟩
  case h_11 htype | h_12 htype =>
    have hmask := hword htype
    split_ifs with hone
    · rw [hone] at hmask
      exact ⟨rfl, hmask⟩
    · exact ⟨bne_iff_ne.mpr hone, hmask⟩
  case h_13 => exact decodesBack_sopReserved h (by apply twelve_le_of_no_other <;> assumption)
  all_goals exact ⟨rfl, hreg ‹_›⟩

theorem decodesBack_decodeSystem {w : Word} (h : HasPrefix w .system) : DecodesBack (decodeSystem w) w := by
  have hword {op : Fin (2 ^ 3)} (hop : (bitsAt w 0 3).toFin = op) : encodeSystem (BitVec.ofFin op) = w := by
    rw [← eq_ofFin_of_toFin_eq hop, encodeSystem_fields h]
  unfold decodeSystem
  split
  case h_5 hop | h_6 hop | h_7 hop | h_8 hop => exact decodesBack_sysReserved h (le_of_le_of_eq (by decide) hop.symm)
  all_goals exact ⟨rfl, hword ‹_›⟩

/-- Settles O2: a word decodes by its class, whose format joins the fields to the word. -/
theorem encodeOfDecodeIsTheWord : Obligations.EncodeOfDecodeIsTheWord := by
  intro w
  have h := hasPrefix_classOf w
  unfold decode
  generalize classOf w = c at h
  cases c with
  | halt => exact ⟨rfl, h.symm⟩
  | ldi => exact ⟨rfl, encode_ldi_fields h⟩
  | ldst => exact decodesBack_decodeLdSt h
  | alu2 => exact decodesBack_decodeAlu2 h
  | jump => exact decodesBack_decodeJump h
  | ldsSts => exact decodesBack_decodeLdsSts h
  | mov => exact ⟨rfl, encode_mov_fields h⟩
  | lsi => exact ⟨rfl, encode_lsi_fields h⟩
  | sop => exact decodesBack_decodeSop h
  | mvs => exact decodesBack_decodeMvs h
  | smv => exact ⟨rfl, encode_smv_fields h⟩
  | system => exact decodesBack_decodeSystem h
  | unrecognized => exact ⟨h, rfl⟩

end Sys2Proof.Proofs
end

section
/-! PROOFS. Every format gives its fields back (30_encoding.md R104 to R115), and with it that a well-formed instruction is what its own word decodes to. -/

namespace Sys2Proof.Proofs

open Sys2Proof Sys2Proof.Machine Sys2Proof.Claims

/-! Reading a field of joined parts. -/

/-- A field that lies in the high part of two joined parts. -/
theorem extractLsb'_append_high {m n lo len : Nat} (x : BitVec m) (y : BitVec n) (h : n ≤ lo) :
    (x ++ y).extractLsb' lo len = x.extractLsb' (lo - n) len := BitVec.extractLsb'_append_eq_of_le h

/-- A field that lies in the low part of two joined parts. -/
theorem extractLsb'_append_low {m n lo len : Nat} (x : BitVec m) (y : BitVec n) (h : lo + len ≤ n) :
    (x ++ y).extractLsb' lo len = y.extractLsb' lo len := BitVec.extractLsb'_append_eq_of_add_le h

@[simp] theorem toFin_regBits : ∀ r : Reg, (regBits r).toFin = r := by decide

@[simp] theorem ofBool_beq_one : ∀ w : Bool, (BitVec.ofBool w == 1#1) = w := by decide

@[simp] theorem segOfCode_segCode (k : SegReg) : segOfCode (segCode k) = k := by cases k <;> rfl

@[simp] theorem smvSrcOfCode_smvSrcCode (k : SmvSrc) : smvSrcOfCode (smvSrcCode k) = k := by cases k <;> rfl

/-! The formats: the class of each and the fields it gives back. -/

theorem bitsAt_encodeAlu (op : BitVec 3) (rd : Reg) (w : Bool) (v : BitVec 5) (lo len : Nat) :
    bitsAt (encodeAlu op rd w v) lo len = (0b110#3 ++ op ++ regBits rd ++ BitVec.ofBool w ++ v).extractLsb' lo len := rfl

theorem decode_encodeAlu (op : BitVec 3) (rd : Reg) (w : Bool) (v : BitVec 5) :
    decode (encodeAlu op rd w v) = decodeAlu2 (encodeAlu op rd w v) := by
  have hprefix : HasPrefix (encodeAlu op rd w v) .alu2 := by
    simp (disch := omega) only [HasPrefix, bitsAt_encodeAlu, extractLsb'_append_high, Nat.reduceSub, BitVec.extractLsb'_eq_self]
  rw [decode, classOf_eq_iff.mpr hprefix]

@[simp] theorem fields_encodeAlu (op : BitVec 3) (rd : Reg) (w : Bool) (v : BitVec 5) :
    bitsAt (encodeAlu op rd w v) 10 3 = op ∧ regAt (encodeAlu op rd w v) 6 = rd ∧ flagAt (encodeAlu op rd w v) 5 = w := by
  simp (disch := omega) only [regAt, flagAt, bitsAt_encodeAlu, extractLsb'_append_high, extractLsb'_append_low, Nat.reduceSub,
    BitVec.extractLsb'_eq_self, toFin_regBits, ofBool_beq_one, and_self]

@[simp] theorem fields_encodeAlu_reg (op : BitVec 3) (rd : Reg) (w : Bool) (rs : Reg) :
    flagAt (encodeAlu op rd w (0#1 ++ regBits rs)) 4 = false ∧ regAt (encodeAlu op rd w (0#1 ++ regBits rs)) 0 = rs := by
  simp (disch := omega) only [regAt, flagAt, bitsAt_encodeAlu, extractLsb'_append_high, extractLsb'_append_low, Nat.reduceSub,
    BitVec.extractLsb'_eq_self, toFin_regBits, and_true]
  rfl

@[simp] theorem fields_encodeAlu_imm (op : BitVec 3) (rd : Reg) (w : Bool) (v : BitVec 4) :
    flagAt (encodeAlu op rd w (1#1 ++ v)) 4 = true ∧ bitsAt (encodeAlu op rd w (1#1 ++ v)) 0 4 = v := by
  simp (disch := omega) only [flagAt, bitsAt_encodeAlu, extractLsb'_append_high, extractLsb'_append_low, Nat.reduceSub,
    BitVec.extractLsb'_eq_self, and_true]
  rfl

theorem aluOperandAt_encodeAlu (op : BitVec 3) (rd : Reg) (w : Bool) (b : AluOperand) :
    aluOperandAt (encodeAlu op rd w (aluOperandBits b)) = b := by
  cases b <;> simp [aluOperandAt, aluOperandBits]

/-- Bit 6 of an ALU2 word is bit 0 of Rd, which tells the forms of MUL and DIV apart (30_encoding.md R117). -/
theorem flagAt_encodeAlu_odd (op : BitVec 3) (rd : Reg) (w : Bool) (v : BitVec 5) :
    flagAt (encodeAlu op rd w v) 6 = isOdd rd := by
  rw [← isOdd_regAt, (fields_encodeAlu op rd w v).2.1]

theorem bitsAt_encodeShift (type : BitVec 3) (rd : Reg) (n : BitVec 3) (lo len : Nat) :
    bitsAt (encodeShift type rd n) lo len = (0b110#3 ++ 0b111#3 ++ regBits rd ++ type ++ n).extractLsb' lo len := rfl

theorem decode_encodeShift (type : BitVec 3) (rd : Reg) (n : BitVec 3) :
    decode (encodeShift type rd n) = decodeAlu2 (encodeShift type rd n) := by
  have hprefix : HasPrefix (encodeShift type rd n) .alu2 := by
    simp (disch := omega) only [HasPrefix, bitsAt_encodeShift, extractLsb'_append_high, Nat.reduceSub, BitVec.extractLsb'_eq_self]
  rw [decode, classOf_eq_iff.mpr hprefix]

@[simp] theorem fields_encodeShift (type : BitVec 3) (rd : Reg) (n : BitVec 3) :
    bitsAt (encodeShift type rd n) 10 3 = 0b111#3 ∧ regAt (encodeShift type rd n) 6 = rd ∧
    bitsAt (encodeShift type rd n) 3 3 = type ∧ bitsAt (encodeShift type rd n) 0 3 = n := by
  simp (disch := omega) only [regAt, bitsAt_encodeShift, extractLsb'_append_high, extractLsb'_append_low, Nat.reduceSub,
    BitVec.extractLsb'_eq_self, toFin_regBits, and_self]

theorem bitsAt_encodeJump (cond : BitVec 3) (off9 : BitVec 9) (lo len : Nat) :
    bitsAt (encodeJump cond off9) lo len = (0b1110#4 ++ cond ++ off9).extractLsb' lo len := rfl

theorem decode_encodeJump (cond : BitVec 3) (off9 : BitVec 9) :
    decode (encodeJump cond off9) = decodeJump (encodeJump cond off9) := by
  have hprefix : HasPrefix (encodeJump cond off9) .jump := by
    simp (disch := omega) only [HasPrefix, bitsAt_encodeJump, extractLsb'_append_high, Nat.reduceSub, BitVec.extractLsb'_eq_self]
  rw [decode, classOf_eq_iff.mpr hprefix]

@[simp] theorem fields_encodeJump (cond : BitVec 3) (off9 : BitVec 9) :
    bitsAt (encodeJump cond off9) 9 3 = cond ∧ bitsAt (encodeJump cond off9) 0 9 = off9 := by
  simp (disch := omega) only [bitsAt_encodeJump, extractLsb'_append_high, extractLsb'_append_low, Nat.reduceSub,
    BitVec.extractLsb'_eq_self, and_self]

theorem bitsAt_encodeSop (type rx : BitVec 4) (lo len : Nat) :
    bitsAt (encodeSop type rx) lo len = (0b11111110#8 ++ type ++ rx).extractLsb' lo len := rfl

theorem decode_encodeSop (type rx : BitVec 4) :
    decode (encodeSop type rx) = decodeSop (encodeSop type rx) := by
  have hprefix : HasPrefix (encodeSop type rx) .sop := by
    simp (disch := omega) only [HasPrefix, bitsAt_encodeSop, extractLsb'_append_high, Nat.reduceSub, BitVec.extractLsb'_eq_self]
  rw [decode, classOf_eq_iff.mpr hprefix]

@[simp] theorem fields_encodeSop (type rx : BitVec 4) :
    bitsAt (encodeSop type rx) 4 4 = type ∧ bitsAt (encodeSop type rx) 0 4 = rx := by
  simp (disch := omega) only [bitsAt_encodeSop, extractLsb'_append_high, extractLsb'_append_low, Nat.reduceSub,
    BitVec.extractLsb'_eq_self, and_self]

theorem bitsAt_encodeLdsSts (d : BitVec 1) (seg : SegReg) (rd rs : Reg) (lo len : Nat) :
    bitsAt (encodeLdsSts d seg rd rs) lo len = (0b11110#5 ++ d ++ segCode seg ++ regBits rd ++ regBits rs).extractLsb' lo len := rfl

theorem decode_encodeLdsSts (d : BitVec 1) (seg : SegReg) (rd rs : Reg) :
    decode (encodeLdsSts d seg rd rs) = decodeLdsSts (encodeLdsSts d seg rd rs) := by
  have hprefix : HasPrefix (encodeLdsSts d seg rd rs) .ldsSts := by
    simp (disch := omega) only [HasPrefix, bitsAt_encodeLdsSts, extractLsb'_append_high, Nat.reduceSub, BitVec.extractLsb'_eq_self]
  rw [decode, classOf_eq_iff.mpr hprefix]

@[simp] theorem fields_encodeLdsSts (d : BitVec 1) (seg : SegReg) (rd rs : Reg) :
    bitsAt (encodeLdsSts d seg rd rs) 10 1 = d ∧ bitsAt (encodeLdsSts d seg rd rs) 8 2 = segCode seg ∧
    regAt (encodeLdsSts d seg rd rs) 4 = rd ∧ regAt (encodeLdsSts d seg rd rs) 0 = rs := by
  simp (disch := omega) only [regAt, bitsAt_encodeLdsSts, extractLsb'_append_high, extractLsb'_append_low, Nat.reduceSub,
    BitVec.extractLsb'_eq_self, toFin_regBits, and_self]

theorem bitsAt_encodeMvs (d : BitVec 1) (rd : Reg) (seg : SegReg) (lo len : Nat) :
    bitsAt (encodeMvs d rd seg) lo len = (0b111111110#9 ++ d ++ regBits rd ++ segCode seg).extractLsb' lo len := rfl

theorem decode_encodeMvs (d : BitVec 1) (rd : Reg) (seg : SegReg) :
    decode (encodeMvs d rd seg) = decodeMvs (encodeMvs d rd seg) := by
  have hprefix : HasPrefix (encodeMvs d rd seg) .mvs := by
    simp (disch := omega) only [HasPrefix, bitsAt_encodeMvs, extractLsb'_append_high, Nat.reduceSub, BitVec.extractLsb'_eq_self]
  rw [decode, classOf_eq_iff.mpr hprefix]

@[simp] theorem fields_encodeMvs (d : BitVec 1) (rd : Reg) (seg : SegReg) :
    bitsAt (encodeMvs d rd seg) 6 1 = d ∧ regAt (encodeMvs d rd seg) 2 = rd ∧
    bitsAt (encodeMvs d rd seg) 0 2 = segCode seg := by
  simp (disch := omega) only [regAt, bitsAt_encodeMvs, extractLsb'_append_high, extractLsb'_append_low, Nat.reduceSub,
    BitVec.extractLsb'_eq_self, toFin_regBits, and_self]

/-- LD/ST: `10 | d | Rd | Rb | off5`, the format of both (30_encoding.md R105). -/
def encodeLdSt (d : BitVec 1) (rd rb : Reg) (off5 : BitVec 5) : Word :=
  0b10#2 ++ d ++ regBits rd ++ regBits rb ++ off5

theorem encode_ld (rd rb : Reg) (off5 : BitVec 5) : encode (.ld rd rb off5) = encodeLdSt 0#1 rd rb off5 := rfl

theorem encode_st (rd rb : Reg) (off5 : BitVec 5) : encode (.st rd rb off5) = encodeLdSt 1#1 rd rb off5 := rfl

theorem bitsAt_encodeLdSt (d : BitVec 1) (rd rb : Reg) (off5 : BitVec 5) (lo len : Nat) :
    bitsAt (encodeLdSt d rd rb off5) lo len = (0b10#2 ++ d ++ regBits rd ++ regBits rb ++ off5).extractLsb' lo len := rfl

theorem decode_encodeLdSt (d : BitVec 1) (rd rb : Reg) (off5 : BitVec 5) :
    decode (encodeLdSt d rd rb off5) = decodeLdSt (encodeLdSt d rd rb off5) := by
  have hprefix : HasPrefix (encodeLdSt d rd rb off5) .ldst := by
    simp (disch := omega) only [HasPrefix, bitsAt_encodeLdSt, extractLsb'_append_high, Nat.reduceSub, BitVec.extractLsb'_eq_self]
  rw [decode, classOf_eq_iff.mpr hprefix]

@[simp] theorem fields_encodeLdSt (d : BitVec 1) (rd rb : Reg) (off5 : BitVec 5) :
    bitsAt (encodeLdSt d rd rb off5) 13 1 = d ∧ regAt (encodeLdSt d rd rb off5) 9 = rd ∧
    regAt (encodeLdSt d rd rb off5) 5 = rb ∧ bitsAt (encodeLdSt d rd rb off5) 0 5 = off5 := by
  simp (disch := omega) only [regAt, bitsAt_encodeLdSt, extractLsb'_append_high, extractLsb'_append_low, Nat.reduceSub,
    BitVec.extractLsb'_eq_self, toFin_regBits, and_self]

/-! Instructions with a format of their own. -/

theorem decode_mov_word (rd rs : Reg) (imm2 : BitVec 2) : decode (encode (.mov rd rs imm2)) = .mov rd rs imm2 := by
  have hbits (lo len : Nat) : bitsAt (encode (.mov rd rs imm2)) lo len =
      (0b111110#6 ++ regBits rd ++ regBits rs ++ imm2).extractLsb' lo len := rfl
  have hprefix : HasPrefix (encode (.mov rd rs imm2)) .mov := by
    simp (disch := omega) only [HasPrefix, hbits, extractLsb'_append_high, Nat.reduceSub, BitVec.extractLsb'_eq_self]
  rw [decode, classOf_eq_iff.mpr hprefix]
  simp (disch := omega) only [regAt, hbits, extractLsb'_append_high, extractLsb'_append_low, Nat.reduceSub,
    BitVec.extractLsb'_eq_self, toFin_regBits]

theorem decode_lsi_word (rd : Reg) (imm5 : BitVec 5) : decode (encode (.lsi rd imm5)) = .lsi rd imm5 := by
  have hbits (lo len : Nat) : bitsAt (encode (.lsi rd imm5)) lo len =
      (0b1111110#7 ++ regBits rd ++ imm5).extractLsb' lo len := rfl
  have hprefix : HasPrefix (encode (.lsi rd imm5)) .lsi := by
    simp (disch := omega) only [HasPrefix, hbits, extractLsb'_append_high, Nat.reduceSub, BitVec.extractLsb'_eq_self]
  rw [decode, classOf_eq_iff.mpr hprefix]
  simp (disch := omega) only [regAt, hbits, extractLsb'_append_high, extractLsb'_append_low, Nat.reduceSub,
    BitVec.extractLsb'_eq_self, toFin_regBits]

theorem decode_smv_word (src : SmvSrc) (rd : Reg) : decode (encode (.smv src rd)) = .smv src rd := by
  have hbits (lo len : Nat) : bitsAt (encode (.smv src rd)) lo len =
      (0b1111111110#10 ++ smvSrcCode src ++ regBits rd).extractLsb' lo len := rfl
  have hprefix : HasPrefix (encode (.smv src rd)) .smv := by
    simp (disch := omega) only [HasPrefix, hbits, extractLsb'_append_high, Nat.reduceSub, BitVec.extractLsb'_eq_self]
  rw [decode, classOf_eq_iff.mpr hprefix]
  simp (disch := omega) only [regAt, hbits, extractLsb'_append_high, extractLsb'_append_low, Nat.reduceSub,
    BitVec.extractLsb'_eq_self, toFin_regBits, smvSrcOfCode_smvSrcCode]

/-! The reserved codes and the words of no class. -/

theorem bitVec2_cases : ∀ t : BitVec 2, t = 0 ∨ t = 1 ∨ t = 2 ∨ t = 3 := by decide

theorem decode_sopReserved_word (t : BitVec 2) (rx : BitVec 4) : decode (encode (.sopReserved t rx)) = .sopReserved t rx := by
  have ht : bitsAt (encodeSop (0b11#2 ++ t) rx) 4 2 = t := by
    rw [← extractLsb'_bitsAt _ 4 (show 2 ≤ 4 by omega), (fields_encodeSop ..).1]
    exact BitVec.extractLsb'_append_eq_right
  simp only [encode, decode_encodeSop, decodeSop, fields_encodeSop, ht]
  rcases bitVec2_cases t with rfl | rfl | rfl | rfl <;> rfl

theorem decode_unrecognized_word {w : Word} (h : isUnrecognizedWord w = true) : decode w = .unrecognized w := by
  have hprefix : HasPrefix w .unrecognized := h
  rw [decode, classOf_eq_iff.mpr hprefix]

theorem regAt_encodeSop (type : BitVec 4) (rx : Reg) : regAt (encodeSop type (regBits rx)) 0 = rx := by
  rw [regAt, (fields_encodeSop type (regBits rx)).2, toFin_regBits]

/-- Settles O1: the class of the instruction's word picks its decoder, and the format gives the fields back. -/
theorem decodeOfEncodeIsTheInstruction : Obligations.DecodeOfEncodeIsTheInstruction := by
  intro i hwf
  cases i with
  | ldi imm15 => exact decode_ldi_word imm15
  | ld | st => simp [encode_ld, encode_st, decode_encodeLdSt, decodeLdSt, flagAt]
  | add | sub | and | or | xor => simp [encode, decode_encodeAlu, decodeAlu2, aluOperandAt_encodeAlu]
  | mul => simp [encode, decode_encodeAlu, decodeAlu2, decodeMul]
  | div => simp [encode, decode_encodeAlu, decodeAlu2, decodeDiv]
  | mulImm rd | mul32 rd =>
    simp only [Instr.wellFormed, Bool.not_eq_true'] at hwf
    simp [encode, decode_encodeAlu, decodeAlu2, decodeMul, flagAt_encodeAlu_odd, hwf]
  | divImm rd | div32 rd =>
    simp only [Instr.wellFormed, Bool.not_eq_true'] at hwf
    simp [encode, decode_encodeAlu, decodeAlu2, decodeDiv, flagAt_encodeAlu_odd, hwf]
  | sl | slc | sr | src | sra | sac | ror | roc => simp [encode, decode_encodeShift, decodeAlu2, decodeShift]
  | jz | jnz | jc | jnc | jn | jnn | jv | jnv => simp [encode, decode_encodeJump, decodeJump]
  | lds | sts => simp [encode, decode_encodeLdsSts, decodeLdsSts, flagAt]
  | mov => exact decode_mov_word ..
  | lsi => exact decode_lsi_word ..
  | swb | neg | jml | srs | srd | ers | erd => simp [encode, decode_encodeSop, decodeSop, regAt_encodeSop]
  | inv =>
    simp only [encode, decode_encodeSop, decodeSop, fields_encodeSop, regAt_encodeSop]
    rfl
  | set | clr => simp [encode, decode_encodeSop, decodeSop]
  | set2 | clr2 =>
    simp only [Instr.wellFormed, bne_iff_ne] at hwf
    simp [encode, decode_encodeSop, decodeSop, hwf]
  | sopReserved => exact decode_sopReserved_word ..
  | mvsRead | mvsWrite => simp [encode, decode_encodeMvs, decodeMvs, flagAt]
  | smv => exact decode_smv_word ..
  | sysReserved op => revert op; decide
  | unrecognized => exact decode_unrecognized_word hwf
  | halt | seti | clri | nop | hlt | swi | reti => decide

/-- Settles O4, one closed evaluation of the decoder for each word. -/
theorem writtenOutWordsDecode : Obligations.WrittenOutWordsDecode := by
  unfold Obligations.WrittenOutWordsDecode
  decide

end Sys2Proof.Proofs
end

section
/-! PROOFS. The control transfers: the eight conditional jumps and JML (45_jump.md R280 to R290), SWI with its return (48_system.md R353, R354), and the halts. -/

namespace Sys2Proof.Proofs

open Sys2Proof Sys2Proof.Machine Sys2Proof.Claims

/-! Conditional jumps. -/

/-- The machine's meaning of each jump of the statements' list: one `condJump`, whose condition is the list's. -/
theorem exec_jump {j : (BitVec 9 → Instr) × (Word → Bool)} (hj : j ∈ jumps) :
    ∃ c : Cond, (∀ p, c.holds p = j.2 p) ∧ ∀ off9 s, exec (j.1 off9) s = condJump c off9 s := by
  simp only [jumps, List.mem_cons, List.not_mem_nil, or_false] at hj
  rcases hj with rfl | rfl | rfl | rfl | rfl | rfl | rfl | rfl
  · exact ⟨.zSet, fun _ => rfl, fun _ _ => rfl⟩
  · exact ⟨.zClear, fun _ => rfl, fun _ _ => rfl⟩
  · exact ⟨.cSet, fun _ => rfl, fun _ _ => rfl⟩
  · exact ⟨.cClear, fun _ => rfl, fun _ _ => rfl⟩
  · exact ⟨.nSet, fun _ => rfl, fun _ _ => rfl⟩
  · exact ⟨.nClear, fun _ => rfl, fun _ _ => rfl⟩
  · exact ⟨.vSet, fun _ => rfl, fun _ _ => rfl⟩
  · exact ⟨.vClear, fun _ => rfl, fun _ _ => rfl⟩

/-- The machine's target is the statements': the sum is reduced modulo 2^16 (92_eei_decisions.md D29). -/
theorem jumpTarget_eq (s : State) (off9 : BitVec 9) : jumpTarget s off9 = targetOf s.pc off9 := by
  calc s.pc + BitVec.ofInt 16 off9.toInt
      = BitVec.ofInt 16 s.pc.toNat + BitVec.ofInt 16 off9.toInt := by rw [BitVec.ofInt_natCast, BitVec.ofNat_toNat, BitVec.setWidth_eq]
    _ = BitVec.ofInt 16 (s.pc.toNat + off9.toInt) := (BitVec.ofInt_add ..).symm

/-- The transfer a conditional jump makes when it is taken: within the current CS (45_jump.md R281). -/
def jumpTransfer (s : State) (off9 : BitVec 9) : Pending := { targetPc := targetOf s.pc off9, targetCs := none }

theorem exec_jump_not_taken {j : (BitVec 9 → Instr) × (Word → Bool)} (hj : j ∈ jumps) {s : State}
    (h : j.2 s.psw = false) (off9 : BitVec 9) : exec (j.1 off9) s = .next s := by
  obtain ⟨c, hc, hexec⟩ := exec_jump hj
  simp [hexec, condJump, hc, h]

theorem exec_jump_taken {j : (BitVec 9 → Instr) × (Word → Bool)} (hj : j ∈ jumps) {s : State}
    (h : j.2 s.psw = true) (off9 : BitVec 9) : exec (j.1 off9) s = s.delayedTransfer (jumpTransfer s off9) := by
  obtain ⟨c, hc, hexec⟩ := exec_jump hj
  simp [hexec, condJump, hc, h, jumpTransfer, jumpTarget_eq]

theorem delayedTransfer_of_pend_none {s : State} (h : s.pend = none) (p : Pending) :
    s.delayedTransfer p = .next { s with pend := some p } := delayedTransfer_next.mpr ⟨h, rfl⟩

theorem delayedTransfer_of_pend_some {s : State} {q : Pending} (h : s.pend = some q) (p : Pending) :
    s.delayedTransfer p = .refused .branchInDelaySlot := by
  rw [State.delayedTransfer, h]

/-- Settles O43: a jump is a `condJump`, which is a delayed transfer exactly where its condition holds. -/
theorem conditionalJumpEffect : Obligations.ConditionalJumpEffect := by
  intro j hj off9 s
  refine ⟨fun hnot => exec_jump_not_taken hj hnot off9, fun htaken hpend => ?_⟩
  rw [exec_jump_taken hj htaken off9, delayedTransfer_of_pend_none hpend]
  rfl

/-! JML. -/

theorem isOdd_eq_true_iff {r : Reg} : isOdd r = true ↔ r.val % 2 = 1 := beq_iff_eq

theorem isOdd_eq_false_iff {r : Reg} : isOdd r = false ↔ r.val % 2 = 0 := by
  rw [← Bool.not_eq_true, isOdd_eq_true_iff]
  omega

/-- The transfer of JML: CS from the register, the PC from the next one (45_jump.md R290). -/
def farTransfer (s : State) (rx : Reg) : Pending := { targetPc := s.reg (rx + 1), targetCs := some (s.reg rx) }

theorem exec_jml_odd {rx : Reg} (h : rx.val % 2 = 1) (s : State) : exec (.jml rx) s = .refused .jmlOddRegister := by
  rw [exec, execJml, if_pos (isOdd_eq_true_iff.mpr h)]

theorem exec_jml_even {rx : Reg} (h : rx.val % 2 = 0) (s : State) :
    exec (.jml rx) s = s.delayedTransfer (farTransfer s rx) := by
  rw [exec, execJml, isOdd_eq_false_iff.mpr h]
  rfl

/-- Settles O44: an odd register is refused, and an even one makes a delayed transfer. -/
theorem farJumpEffect : Obligations.FarJumpEffect := by
  refine fun rx s => ⟨fun heven hpend => ?_, fun hodd => exec_jml_odd hodd s⟩
  rw [exec_jml_even heven, delayedTransfer_of_pend_none hpend]
  rfl

/-! SWI. -/

theorem exec_swi_ignored {s : State} (h : swiIsTaken s.psw = false) : exec .swi s = .next s :=
  execSwi_next.mpr (.inl ⟨h, rfl⟩)

theorem exec_swi_taken {s : State} (h : swiIsTaken s.psw = true) (hpend : s.pend = none) : exec .swi s = .next s.trapEntry :=
  execSwi_next.mpr (.inr ⟨h, hpend, rfl⟩)

theorem exec_swi_in_slot {s : State} {p : Pending} (h : swiIsTaken s.psw = true) (hpend : s.pend = some p) :
    exec .swi s = .refused .branchInDelaySlot := by
  rw [exec, execSwi, if_pos (by rw [swiTaken_eq, h]), State.takeTrap, hpend]

theorem trapEntry_sameControl (s : State) :
    SameControl { s with cs := s.trapEntry.cs, pswShadow := s.trapEntry.pswShadow } s.trapEntry := by
  constructor <;> simp

theorem trapEntry_sameMemory (s : State) : SameMemory s s.trapEntry := by
  constructor <;> simp

/-- Settles O53: SWI is ignored, or it is the trap entry, which writes R15, CS, the view bits of the PSW and PSW' only. -/
theorem softwareInterruptEffect : Obligations.SoftwareInterruptEffect := by
  refine fun s => ⟨exec_swi_ignored, fun htaken hpend => ⟨s.trapEntry, exec_swi_taken htaken hpend, rfl, fun k _ => ?_, rfl,
    fun r => ?_, trapEntry_sameControl s, trapEntry_sameMemory s⟩⟩
  · rw [State.psw_trapEntry, getLsbD_pswWithView]
  · simp [State.reg_trapEntry, pcReg]

theorem swiIsTaken_pswWithView (p : Word) (sv iv : Bool) : swiIsTaken (pswWithView p sv iv) = (iv && !sv) := by
  calc swiIsTaken (pswWithView p sv iv)
      = (pswI (pswWithView p sv iv) && !pswS (pswWithView p sv iv)) := rfl
    _ = (iv && !sv) := by rw [pswI_pswWithView, pswS_pswWithView]

/-- With S set, as the trap entry leaves it, a SWI is ignored. -/
theorem swiIsTaken_trapEntry (s : State) : swiIsTaken s.trapEntry.psw = false :=
  swiIsTaken_pswWithView s.psw true false

/-- RETI clears S and leaves I cleared, so a SWI right after it is ignored too. -/
theorem swiIsTaken_trapReturn_trapEntry (s : State) : swiIsTaken s.trapEntry.trapReturn.psw = false := by
  rw [State.psw_trapReturn, swiIsTaken_pswWithView, State.psw_trapEntry, pswI_pswWithView, Bool.false_and]

/-- Settles O55: after the trap entry S is set, after the return I is still clear. -/
theorem trapsDoNotNest : Obligations.TrapsDoNotNest := by
  intro s t hexec htaken
  obtain rfl := execSwi_taken hexec htaken
  exact ⟨exec_swi_ignored (swiIsTaken_trapEntry s), s.trapEntry.trapReturn, exec_reti _,
    exec_swi_ignored (swiIsTaken_trapReturn_trapEntry s)⟩

/-- Settles O45: each of the ten instructions is a delayed transfer or the trap, and a delay slot refuses both. -/
theorem transferInADelaySlotIsRefused : Obligations.TransferInADelaySlotIsRefused := by
  refine fun s p hpend => ⟨fun j hj off9 htaken => ?_, fun rx heven => ?_, fun htaken => exec_swi_in_slot htaken hpend⟩
  · rw [exec_jump_taken hj htaken, delayedTransfer_of_pend_some hpend]
  · rw [exec_jml_even heven, delayedTransfer_of_pend_some hpend]

/-! No-operations. -/

/-- Settles O51: the meaning of each answers its own state. -/
theorem noOperationEffect : Obligations.NoOperationEffect := fun _ _ _ _ _ => ⟨rfl, rfl, rfl, rfl⟩

end Sys2Proof.Proofs
end

section
/-! PROOFS. What an instruction can do, said once: the eight shapes of a next state, from which the frames of a step follow (40_fsm.md R156, and the meanings of chapters 41 to 48). -/

namespace Sys2Proof.Proofs

open Sys2Proof Sys2Proof.Machine Sys2Proof.Claims

/-! Writes of general registers. -/

/-- `t` is `s` with another register file, which differs at most in the registers `rs`. -/
def WritesRegs (rs : List Reg) (s t : State) : Prop := (∃ x, t = { s with x := x }) ∧ ∀ r, r ∉ rs → t.reg r = s.reg r

namespace WritesRegs

theorem refl (rs : List Reg) (s : State) : WritesRegs rs s s := ⟨⟨s.x, rfl⟩, fun _ _ => rfl⟩

theorem setReg {rs : List Reg} {s t : State} (h : WritesRegs rs s t) {r : Reg} (hr : r ∈ rs) (v : Word) :
    WritesRegs rs s (t.setReg r v) := by
  obtain ⟨⟨x, rfl⟩, hregs⟩ := h
  refine ⟨⟨x.set r v, rfl⟩, fun q hq => ?_⟩
  rw [State.reg_setReg_other _ v (ne_of_mem_of_not_mem hr hq).symm, hregs q hq]

end WritesRegs

/-! The shapes. -/

/-- The transfer that an instruction makes pending: a taken jump's or an even JML's (40_fsm.md R158). -/
def MakesTransfer (s : State) (i : Instr) (p : Pending) : Prop :=
  (∃ j ∈ jumps, ∃ off9, i = j.1 off9 ∧ j.2 s.psw = true ∧ p = jumpTransfer s off9) ∨
  (∃ rx : Reg, i = .jml rx ∧ rx.val % 2 = 0 ∧ p = farTransfer s rx)

/-- The next states that an instruction can answer in the state `s`. -/
inductive Effect (i : Instr) (s : State) : State → Prop
  /-- An ALU-class instruction: its destinations, then the flags. -/
  | alu {t : State} (op : AluClass) (a b : Word) (raw : Int) (c : Bool) (halu : isAluClass i = true)
      (hregs : WritesRegs (destinations i) s t) : Effect i s (t.applyFlagsWithCarry op a b raw c)
  /-- A data move into a register, or nothing at all. -/
  | regs {t : State} (halu : isAluClass i = false) (hstore : storeOf s i = none)
      (hregs : WritesRegs (destinations i) s t) : Effect i s t
  | store {pa : Nat} {v : Word} (hstore : storeOf s i = some (pa, v)) : Effect i s (s.store pa v)
  | seg {rd : Reg} {k : SegReg} (hi : i = .mvsWrite rd k) : Effect i s (s.setSeg k (s.reg rd))
  /-- SET and CLR, which write the flags as PSW bits. -/
  | flagBits {p : Word} (hi : writesFlagBits i = true) : Effect i s { s with psw := p }
  /-- The other writers of the PSW, which leave the flags. -/
  | pswBits {p : Word} (hi : writesPswBits i = true) (hlow : p.extractLsb' 0 4 = s.psw.extractLsb' 0 4) :
      Effect i s { s with psw := p }
  | transfer {p : Pending} (hpend : s.pend = none) (hp : MakesTransfer s i p) : Effect i s { s with pend := some p }
  | halt (hi : i = .halt ∨ i = .hlt) : Effect i s s.halted
  | trap (hi : i = .swi) (htaken : swiIsTaken s.psw = true) (hpend : s.pend = none) : Effect i s s.trapEntry

/-! Each shape of meaning has its effect. -/

/-- An outcome whose next state, if it is one, is an effect of the instruction. -/
def HasEffect (i : Instr) (s : State) (o : Host.Outcome State Fault Refusal) : Prop := ∀ t, o = .next t → Effect i s t

theorem hasEffect_next {i : Instr} {s t : State} (h : Effect i s t) : HasEffect i s (.next t) := by
  rintro _ ⟨⟩
  exact h

theorem effect_aluResult {i : Instr} (halu : isAluClass i = true) {rd : Reg} (hrd : rd ∈ destinations i) (s : State)
    (op : AluClass) (w : Bool) (a b : Word) (raw : Int) : Effect i s (s.aluResult op rd w a b raw) := by
  cases w with
  | true => exact .alu op a b raw _ halu ((WritesRegs.refl ..).setReg hrd _)
  | false => exact .alu op a b raw _ halu (.refl ..)

theorem effect_aluPair {i : Instr} (halu : isAluClass i = true) {rd : Reg} (hi : destinations i = [rd, rd + 1]) (s : State)
    (op : AluClass) (w : Bool) (first second a b : Word) (raw : Int) :
    Effect i s (s.aluPair op rd w first second a b raw) := by
  have hfirst : rd ∈ destinations i := by simp [hi]
  have hsecond : pairReg rd ∈ destinations i := by simp [hi, pairReg]
  cases w with
  | true => exact .alu op a b raw _ halu (((WritesRegs.refl ..).setReg hfirst _).setReg hsecond _)
  | false => exact .alu op a b raw _ halu (.refl ..)

theorem effect_carryShift {i : Instr} (halu : isAluClass i = true) {rd : Reg} (hrd : rd ∈ destinations i) (s : State)
    (op : AluClass) (v a b : Word) (raw : Int) (c : Bool) : Effect i s ((s.setReg rd v).applyFlagsWithCarry op a b raw c) :=
  .alu op a b raw c halu ((WritesRegs.refl ..).setReg hrd _)

theorem effect_setReg {i : Instr} {s : State} (halu : isAluClass i = false) (hstore : storeOf s i = none) {rd : Reg}
    (hrd : rd ∈ destinations i) (v : Word) : Effect i s (s.setReg rd v) :=
  .regs halu hstore ((WritesRegs.refl ..).setReg hrd _)

theorem effect_refl {i : Instr} {s : State} (halu : isAluClass i = false) (hstore : storeOf s i = none) : Effect i s s :=
  .regs halu hstore (.refl ..)

theorem hasEffect_delayedTransfer {i : Instr} {s : State} {p : Pending} (hp : MakesTransfer s i p) :
    HasEffect i s (s.delayedTransfer p) := by
  intro t h
  obtain ⟨hpend, rfl⟩ := delayedTransfer_next.mp h
  exact .transfer hpend hp

theorem hasEffect_jump {j : (BitVec 9 → Instr) × (Word → Bool)} (hj : j ∈ jumps) (off9 : BitVec 9) {s : State}
    (halu : isAluClass (j.1 off9) = false) (hstore : storeOf s (j.1 off9) = none) :
    HasEffect (j.1 off9) s (exec (j.1 off9) s) := by
  cases hcond : j.2 s.psw with
  | true =>
    rw [exec_jump_taken hj hcond]
    exact hasEffect_delayedTransfer (.inl ⟨j, hj, off9, rfl, hcond, rfl⟩)
  | false =>
    rw [exec_jump_not_taken hj hcond]
    exact hasEffect_next (effect_refl halu hstore)

theorem hasEffect_jml (rx : Reg) (s : State) : HasEffect (.jml rx) s (exec (.jml rx) s) := by
  by_cases hodd : rx.val % 2 = 1
  · rw [exec_jml_odd hodd]
    rintro t ⟨⟩
  · have heven : rx.val % 2 = 0 := by omega
    rw [exec_jml_even heven]
    exact hasEffect_delayedTransfer (.inr ⟨rx, rfl, heven, rfl⟩)

theorem hasEffect_swi (s : State) : HasEffect .swi s (exec .swi s) := by
  intro t h
  rcases execSwi_next.mp h with ⟨-, rfl⟩ | ⟨htaken, hpend, rfl⟩
  · exact effect_refl rfl rfl
  · exact .trap rfl htaken hpend

theorem hasEffect_ld (rd rb : Reg) (off5 : BitVec 5) (s : State) : HasEffect (.ld rd rb off5) s (exec (.ld rd rb off5) s) := by
  refine hasEffect_next ?_
  split
  · exact effect_setReg rfl rfl (.head _) _
  · exact effect_refl rfl rfl

theorem hasEffect_st (rd rb : Reg) (off5 : BitVec 5) (s : State) : HasEffect (.st rd rb off5) s (exec (.st rd rb off5) s) := by
  refine hasEffect_next ?_
  split
  next hrange => exact .store (if_pos ((inRange_iff _).mp hrange))
  next hrange => exact effect_refl rfl (if_neg fun hle => hrange ((inRange_iff _).mpr hle))

/-- What no writer of the high PSW bits touches: bits 3:0, field by field. -/
theorem low_eq_of_getLsbD {p q : Word} (h : ∀ k, k < 4 → p.getLsbD k = q.getLsbD k) :
    p.extractLsb' 0 4 = q.extractLsb' 0 4 := by
  apply BitVec.eq_of_getLsbD_eq
  intro k hk
  simp [BitVec.getLsbD_extractLsb', h k hk]

theorem low_pswWithStack (p : Word) (r : Reg) (dual : Bool) : (pswWithStack p r dual).extractLsb' 0 4 = p.extractLsb' 0 4 :=
  low_eq_of_getLsbD fun k hk => by rw [getLsbD_pswWithStack, if_pos (by omega)]

theorem low_pswWithExtra (p : Word) (r : Reg) (dual : Bool) : (pswWithExtra p r dual).extractLsb' 0 4 = p.extractLsb' 0 4 :=
  low_eq_of_getLsbD fun k hk => by rw [getLsbD_pswWithExtra, if_pos (by omega)]

theorem low_pswSetHigh (p : Word) (m : BitVec 4) : (pswSetHigh p m).extractLsb' 0 4 = p.extractLsb' 0 4 :=
  low_eq_of_getLsbD fun k hk => by simp [getLsbD_pswSetHigh, show ¬ 4 ≤ k by omega]

theorem low_pswClearHigh (p : Word) (m : BitVec 4) : (pswClearHigh p m).extractLsb' 0 4 = p.extractLsb' 0 4 :=
  low_eq_of_getLsbD fun k hk => by simp [getLsbD_pswClearHigh, show ¬ 4 ≤ k by omega]

theorem low_pswWithView (p : Word) (sv iv : Bool) : (pswWithView p sv iv).extractLsb' 0 4 = p.extractLsb' 0 4 :=
  low_eq_of_getLsbD fun k hk => by rw [getLsbD_pswWithView, if_neg (by omega), if_neg (by omega)]

/-- Every next state of an instruction is one of its effects: one line for each shape of meaning. -/
theorem exec_hasEffect (i : Instr) (s : State) : HasEffect i s (exec i s) := by
  cases i with
  | ldi | add | sub | and | or | xor | mul | mulImm | div | divImm | sl | sr | sra | ror | mov | lsi | swb | inv | neg =>
    exact hasEffect_next (effect_aluResult rfl (.head _) ..)
  | mul32 | div32 => exact hasEffect_next (effect_aluPair rfl rfl ..)
  | slc | src | sac | roc => exact hasEffect_next (effect_carryShift rfl (.head _) ..)
  | ld rd rb off5 => exact hasEffect_ld rd rb off5 s
  | lds | mvsRead | smv => exact hasEffect_next (effect_setReg rfl rfl (.head _) _)
  | st rd rb off5 => exact hasEffect_st rd rb off5 s
  | sts => exact hasEffect_next (.store rfl)
  | mvsWrite => exact hasEffect_next (.seg rfl)
  | set | clr => exact hasEffect_next (.flagBits rfl)
  | srs | srd => exact hasEffect_next (.pswBits rfl (low_pswWithStack ..))
  | ers | erd => exact hasEffect_next (.pswBits rfl (low_pswWithExtra ..))
  | set2 | seti => exact hasEffect_next (.pswBits rfl (low_pswSetHigh ..))
  | clr2 | clri => exact hasEffect_next (.pswBits rfl (low_pswClearHigh ..))
  | reti => exact hasEffect_next (.pswBits rfl (low_pswWithView ..))
  | jz off9 => exact hasEffect_jump (.head _) off9 rfl rfl
  | jnz off9 => exact hasEffect_jump (.tail _ <| .head _) off9 rfl rfl
  | jc off9 => exact hasEffect_jump (.tail _ <| .tail _ <| .head _) off9 rfl rfl
  | jnc off9 => exact hasEffect_jump (.tail _ <| .tail _ <| .tail _ <| .head _) off9 rfl rfl
  | jn off9 => exact hasEffect_jump (.tail _ <| .tail _ <| .tail _ <| .tail _ <| .head _) off9 rfl rfl
  | jnn off9 => exact hasEffect_jump (.tail _ <| .tail _ <| .tail _ <| .tail _ <| .tail _ <| .head _) off9 rfl rfl
  | jv off9 => exact hasEffect_jump (.tail _ <| .tail _ <| .tail _ <| .tail _ <| .tail _ <| .tail _ <| .head _) off9 rfl rfl
  | jnv off9 =>
    exact hasEffect_jump (.tail _ <| .tail _ <| .tail _ <| .tail _ <| .tail _ <| .tail _ <| .tail _ <| .head _) off9 rfl rfl
  | jml rx => exact hasEffect_jml rx s
  | swi => exact hasEffect_swi s
  | halt => exact hasEffect_next (.halt (.inl rfl))
  | hlt => exact hasEffect_next (.halt (.inr rfl))
  | nop | sopReserved | sysReserved | unrecognized => exact hasEffect_next (effect_refl rfl rfl)

end Sys2Proof.Proofs
end

section
/-! PROOFS. The step (40_fsm.md R152 to R166): the fetched instruction's outcome followed by the commit, when it is refused, and what it does to `running` and the pending transfer. -/

namespace Sys2Proof.Proofs

open Sys2Proof Sys2Proof.Machine Sys2Proof.Claims

/-! The step as the outcome of its instruction. -/

theorem finishStep_eq_afterOutcome (p : Option Pending) (o : Host.Outcome State Fault Refusal) :
    finishStep p o = afterOutcome p o := by
  cases o with
  | next t => cases p <;> rfl
  | fault f => rfl
  | refused r => rfl

theorem step_of_not_running {s : State} (h : s.running = false) : step s = .next s := by
  simp [step, h]

theorem fetch_eq_none_iff {s : State} : s.fetch = none ↔ 0xFFFFF < translateAddr s.cs s.pc := by
  rw [← Nat.not_le, ← inRange_iff, State.fetch, State.fetchAddr]
  by_cases hrange : inRange (translateAddr s.cs s.pc) = true <;> simp [hrange]

theorem step_of_fetch_none {s : State} (h : s.running = true) (hfetch : s.fetch = none) : step s = .next s.halted := by
  simp [step, h, hfetch]

theorem step_of_fetch {s : State} {w : Word} (h : s.running = true) (hfetch : s.fetch = some w) :
    step s = afterOutcome s.pend (exec (decode w) (s.enter w)) := by
  rw [← finishStep_eq_afterOutcome]
  simp [step, h, hfetch]

/-- Settles O8: the model's step, with its end in the statement's words. -/
theorem stepRunsTheDecodedInstruction : Obligations.StepRunsTheDecodedInstruction := fun _ _ hrunning hrange hword =>
  step_of_fetch hrunning (fetch_eq_some_iff.mpr ⟨hrange, hword⟩)

/-- The end of a step: the instruction's state, or in a delay slot that did not halt the commit (40_fsm.md R159). -/
theorem afterInstruction_cases (p : Option Pending) (t : State) :
    afterInstruction p t = t ∨ ∃ q, p = some q ∧ t.running = true ∧ afterInstruction p t = t.commit q := by
  cases p with
  | none => exact .inl rfl
  | some q =>
    cases hrunning : t.running with
    | true => exact .inr ⟨q, rfl, rfl, if_pos hrunning⟩
    | false => exact .inl (if_neg (by simp [hrunning]))

/-- An instruction that halts is followed by no commit (40_fsm.md R162). -/
theorem afterInstruction_of_not_running {p : Option Pending} {t : State} (h : t.running = false) :
    afterInstruction p t = t := by
  rcases afterInstruction_cases p t with h' | ⟨q, -, hrunning, -⟩
  · exact h'
  · simp [h] at hrunning

@[simp] theorem running_afterInstruction (p : Option Pending) (t : State) : (afterInstruction p t).running = t.running := by
  rcases afterInstruction_cases p t with h | ⟨q, -, -, h⟩ <;> simp [h]

/-! The sentinel. -/

/-- The sentinel alone decodes to HALT, because decoding drops no bit. -/
theorem decode_eq_halt_iff {w : Word} : decode w = .halt ↔ w = 0xFFFF#16 := by
  constructor
  · intro h
    rw [← (encodeOfDecodeIsTheWord w).2, h]
    rfl
  · rintro rfl
    decide

/-- Every instruction but HALT runs with the PC advanced (40_fsm.md R155). -/
theorem enter_eq_advancePc {w : Word} (h : decode w ≠ .halt) (s : State) : s.enter w = s.advancePc :=
  enter_other s (mt decode_eq_halt_iff.mpr h)

theorem exec_halt (s : State) : exec .halt s = .next s.halted := rfl

theorem exec_hlt (s : State) : exec .hlt s = .next s.halted := rfl

/-- Settles O9: the three steps that execute nothing, of which the sentinel's runs HALT without the PC advance. -/
theorem stepsThatExecuteNothing : Obligations.StepsThatExecuteNothing := by
  refine ⟨fun s h => step_of_not_running h, fun s hrunning hrange => ?_, fun s hrunning hrange hword => ?_⟩
  · exact step_of_fetch_none hrunning (fetch_eq_none_iff.mpr hrange)
  · rw [step_of_fetch hrunning (fetch_eq_some_iff.mpr ⟨hrange, hword⟩), enter_sentinel, decode_eq_halt_iff.mpr rfl, exec_halt,
      afterOutcome, afterInstruction_of_not_running s.running_halted]
    rfl

/-- A step that fetches HLT ends after the PC advance, uncommitted. -/
theorem step_hlt {s : State} (h : Fetches s .hlt) : step s = .next s.advancePc.halted := by
  obtain ⟨hrunning, w, hfetch, hdecode⟩ := fetches_iff.mp h
  have hw : decode w ≠ .halt := by simp [hdecode]
  rw [step_of_fetch hrunning hfetch, enter_eq_advancePc hw, hdecode, exec_hlt, afterOutcome,
    afterInstruction_of_not_running (State.running_halted _)]

/-- Settles O52. -/
theorem haltEffect : Obligations.HaltEffect := ⟨fun s => ⟨exec_halt s, exec_hlt s⟩, fun _ h => step_hlt h⟩

/-! Refusals. -/

/-- An instruction that makes no control transfer has a next state in every state. -/
theorem transfer_or_total (i : Instr) :
    (∃ j ∈ jumps, ∃ off9, i = j.1 off9) ∨ (∃ rx, i = .jml rx) ∨ i = .swi ∨ ∀ s, ∃ t, exec i s = .next t := by
  cases i with
  | jz off9 => exact .inl ⟨_, .head _, off9, rfl⟩
  | jnz off9 => exact .inl ⟨_, .tail _ <| .head _, off9, rfl⟩
  | jc off9 => exact .inl ⟨_, .tail _ <| .tail _ <| .head _, off9, rfl⟩
  | jnc off9 => exact .inl ⟨_, .tail _ <| .tail _ <| .tail _ <| .head _, off9, rfl⟩
  | jn off9 => exact .inl ⟨_, .tail _ <| .tail _ <| .tail _ <| .tail _ <| .head _, off9, rfl⟩
  | jnn off9 => exact .inl ⟨_, .tail _ <| .tail _ <| .tail _ <| .tail _ <| .tail _ <| .head _, off9, rfl⟩
  | jv off9 => exact .inl ⟨_, .tail _ <| .tail _ <| .tail _ <| .tail _ <| .tail _ <| .tail _ <| .head _, off9, rfl⟩
  | jnv off9 =>
    exact .inl ⟨_, .tail _ <| .tail _ <| .tail _ <| .tail _ <| .tail _ <| .tail _ <| .tail _ <| .head _, off9, rfl⟩
  | jml rx => exact .inr (.inl ⟨rx, rfl⟩)
  | swi => exact .inr (.inr (.inl rfl))
  | _ => exact .inr (.inr (.inr fun _ => ⟨_, rfl⟩))

theorem jump_ne {j : (BitVec 9 → Instr) × (Word → Bool)} (hj : j ∈ jumps) (off9 : BitVec 9) :
    j.1 off9 ≠ .halt ∧ ∀ rx, j.1 off9 ≠ .jml rx := by
  simp only [jumps, List.mem_cons, List.not_mem_nil, or_false] at hj
  rcases hj with rfl | rfl | rfl | rfl | rfl | rfl | rfl | rfl <;> simp

/-- The two reasons for a refusal: JML with an odd register, in a delay slot or not, and a taken transfer in a delay slot (40_fsm.md R161, 45_jump.md R290). -/
def RefusedFor (pend : Option Pending) (psw : Word) (i : Instr) (r : Refusal) : Prop :=
  (r = .jmlOddRegister ∧ ∃ rx : Reg, i = .jml rx ∧ rx.val % 2 = 1) ∨
  (r = .branchInDelaySlot ∧ pend ≠ none ∧ IsTakenTransfer psw i ∧ ∀ rx : Reg, i = .jml rx → rx.val % 2 = 0)

theorem exec_of_refusedFor {s : State} {i : Instr} {r : Refusal} (h : RefusedFor s.pend s.psw i r) :
    exec i s = .refused r := by
  rcases h with ⟨rfl, rx, rfl, hodd⟩ | ⟨rfl, hpend, htaken, heven⟩
  · exact exec_jml_odd hodd s
  · obtain ⟨p, hp⟩ := Option.ne_none_iff_exists'.mp hpend
    obtain ⟨hjumps, hjml, hswi⟩ := transferInADelaySlotIsRefused s p hp
    rcases htaken with ⟨j, hj, off9, rfl, hcond⟩ | ⟨rx, rfl⟩ | ⟨rfl, hcond⟩
    · exact hjumps j hj off9 hcond
    · exact hjml rx (heven rx rfl)
    · exact hswi hcond

/-- A delayed transfer is refused exactly in a delay slot. -/
theorem delayedTransfer_cases (s : State) (p : Pending) :
    (∃ t, s.delayedTransfer p = .next t) ∨ (s.pend ≠ none ∧ s.delayedTransfer p = .refused .branchInDelaySlot) := by
  cases hpend : s.pend with
  | none => exact .inl ⟨_, delayedTransfer_of_pend_none hpend p⟩
  | some q => exact .inr ⟨by simp, delayedTransfer_of_pend_some hpend p⟩

/-- An instruction has a next state, or it is refused for one of the two reasons. -/
theorem exec_cases (i : Instr) (s : State) :
    (∃ t, exec i s = .next t) ∨ ∃ r, exec i s = .refused r ∧ RefusedFor s.pend s.psw i r := by
  rcases transfer_or_total i with ⟨j, hj, off9, rfl⟩ | ⟨rx, rfl⟩ | rfl | htotal
  · cases hcond : j.2 s.psw with
    | false => exact .inl ⟨s, exec_jump_not_taken hj hcond off9⟩
    | true =>
      rw [exec_jump_taken hj hcond]
      refine (delayedTransfer_cases s _).imp_right fun ⟨hpend, h⟩ => ⟨_, h, .inr ⟨rfl, hpend, .inl ⟨j, hj, off9, rfl, hcond⟩, ?_⟩⟩
      exact fun rx h => absurd h ((jump_ne hj off9).2 rx)
  · by_cases hodd : rx.val % 2 = 1
    · exact .inr ⟨_, exec_jml_odd hodd s, .inl ⟨rfl, rx, rfl, hodd⟩⟩
    · have heven : rx.val % 2 = 0 := by omega
      rw [exec_jml_even heven]
      refine (delayedTransfer_cases s _).imp_right fun ⟨hpend, h⟩ => ⟨_, h, .inr ⟨rfl, hpend, .inr (.inl ⟨rx, rfl⟩), ?_⟩⟩
      rintro _ ⟨⟩
      exact heven
  · cases hcond : swiIsTaken s.psw with
    | false => exact .inl ⟨s, exec_swi_ignored hcond⟩
    | true =>
      cases hpend : s.pend with
      | none => exact .inl ⟨_, exec_swi_taken hcond hpend⟩
      | some p => exact .inr ⟨_, exec_swi_in_slot hcond hpend, .inr ⟨rfl, by simp, .inr (.inr ⟨rfl, hcond⟩), by simp⟩⟩
  · exact .inl (htotal s)

theorem exec_eq_refused_iff {i : Instr} {s : State} {r : Refusal} :
    exec i s = .refused r ↔ RefusedFor s.pend s.psw i r := by
  refine ⟨fun h => ?_, exec_of_refusedFor⟩
  rcases exec_cases i s with ⟨t, ht⟩ | ⟨r', hr', hfor⟩
  · simp [ht] at h
  · obtain rfl : r' = r := by simpa [hr'] using h
    exact hfor

theorem afterOutcome_eq_refused_iff {p : Option Pending} {o : Host.Outcome State Fault Refusal} {r : Refusal} :
    afterOutcome p o = .refused r ↔ o = .refused r := by
  cases o <;> simp [afterOutcome]

/-- A step is refused exactly where its instruction is. -/
theorem step_eq_refused_iff {s : State} {r : Refusal} :
    step s = .refused r ↔ ∃ i, Fetches s i ∧ RefusedFor s.pend s.psw i r := by
  cases hrunning : s.running with
  | false =>
    rw [step_of_not_running hrunning]
    refine ⟨fun h => (by cases h), fun ⟨i, hi, _⟩ => ?_⟩
    simp [hi.running] at hrunning
  | true =>
    cases hfetch : s.fetch with
    | none =>
      rw [step_of_fetch_none hrunning hfetch]
      refine ⟨fun h => (by cases h), fun ⟨i, hi, _⟩ => ?_⟩
      obtain ⟨-, w, hw, -⟩ := fetches_iff.mp hi
      simp [hfetch] at hw
    | some w =>
      have hw : Fetches s (decode w) := fetches_iff.mpr ⟨hrunning, w, hfetch, rfl⟩
      rw [step_of_fetch hrunning hfetch, afterOutcome_eq_refused_iff, exec_eq_refused_iff, State.pend_enter, State.psw_enter]
      refine ⟨fun h => ⟨_, hw, h⟩, fun ⟨i, hi, h⟩ => ?_⟩
      rwa [fetches_unique hw hi]

/-- Settles O10. -/
theorem stepRefusalsAreExactlyTheTwo : Obligations.StepRefusalsAreExactlyTheTwo := fun _ _ => step_eq_refused_iff

/-- Settles O11: an instruction has a next state or is refused, and the end of the step adds no fault. -/
theorem stepNeverFaults : Obligations.StepNeverFaults := by
  intro s f h
  cases hrunning : s.running with
  | false => simp [step_of_not_running hrunning] at h
  | true =>
    cases hfetch : s.fetch with
    | none => simp [step_of_fetch_none hrunning hfetch] at h
    | some w =>
      rw [step_of_fetch hrunning hfetch] at h
      rcases exec_cases (decode w) (s.enter w) with ⟨t, ht⟩ | ⟨r, hr, -⟩
      · simp [ht, afterOutcome] at h
      · simp [hr, afterOutcome] at h

/-! The next state of a step. -/

/-- A step from a state that fetches `i` answers an effect of `i`, then the end of the step. -/
theorem step_effect {s t : State} {i : Instr} (h : step s = .next t) (hi : Fetches s i) :
    ∃ w u, s.fetch = some w ∧ decode w = i ∧ exec i (s.enter w) = .next u ∧ Effect i (s.enter w) u ∧
      t = afterInstruction s.pend u := by
  obtain ⟨hrunning, w, hfetch, rfl⟩ := fetches_iff.mp hi
  rw [step_of_fetch hrunning hfetch] at h
  cases hexec : exec (decode w) (s.enter w) with
  | next u =>
    obtain rfl : afterInstruction s.pend u = t := by simpa [hexec, afterOutcome] using h
    exact ⟨w, u, hfetch, rfl, hexec, exec_hasEffect _ _ u hexec, rfl⟩
  | fault f => simp [hexec, afterOutcome] at h
  | refused r => simp [hexec, afterOutcome] at h

/-- A running block either fetches an instruction or, out of range, halts. -/
theorem fetches_or_halts {s t : State} (hrunning : s.running = true) (h : step s = .next t) :
    (∃ i, Fetches s i) ∨ (s.fetch = none ∧ t = s.halted) := by
  cases hfetch : s.fetch with
  | none => 
    rw [step_of_fetch_none hrunning hfetch] at h
    cases h
    exact .inr ⟨rfl, rfl⟩
  | some w => exact .inl ⟨_, fetches_iff.mpr ⟨hrunning, w, hfetch, rfl⟩⟩

/-! What an effect does to `running` and the pending transfer. -/

/-- HALT and HLT stop the block, and no other instruction does. -/
theorem exec_running {i : Instr} {s u : State} (h : exec i s = .next u) (hrunning : s.running = true) :
    u.running = false ↔ i = .halt ∨ i = .hlt := by
  by_cases hi : i = .halt ∨ i = .hlt
  · have hu : u = s.halted := by rcases hi with rfl | rfl <;> exact (by simpa [exec_halt, exec_hlt] using h.symm)
    simp [hi, hu]
  · suffices u.running = true by simp [hi, this]
    cases exec_hasEffect i s u h with
    | alu op a b raw c halu hregs | regs halu hstore hregs =>
      obtain ⟨⟨x, rfl⟩, -⟩ := hregs
      exact hrunning
    | halt hhalt => exact absurd hhalt hi
    | store | flagBits | pswBits | transfer | trap => exact hrunning
    | seg => simpa using hrunning

/-- An instruction keeps the pending transfer, or it makes one outside a delay slot and changes nothing else. -/
theorem effect_pend {i : Instr} {s u : State} (h : Effect i s u) :
    u.pend = s.pend ∨ (s.pend = none ∧ ∃ p, MakesTransfer s i p ∧ u = { s with pend := some p }) := by
  cases h with
  | alu op a b raw c halu hregs | regs halu hstore hregs =>
    obtain ⟨⟨x, rfl⟩, -⟩ := hregs
    exact .inl rfl
  | transfer hpend hp => exact .inr ⟨hpend, _, hp, rfl⟩
  | store | flagBits | pswBits | halt | trap => exact .inl rfl
  | seg => exact .inl (State.pend_setSeg ..)

/-- Settles O12: in a delay slot no instruction makes a transfer, so the one pending is committed or, after a halt, still there. -/
theorem delaySlotEndsWithTheCommit : Obligations.DelaySlotEndsWithTheCommit := by
  intro s t p hrunning hpend h
  rcases fetches_or_halts hrunning h with ⟨i, hi⟩ | ⟨-, rfl⟩
  · obtain ⟨w, u, -, -, -, heffect, rfl⟩ := step_effect h hi
    have hu : u.pend = some p := by
      rcases effect_pend heffect with hkept | ⟨hnone, -⟩
      · simpa [hpend] using hkept
      · simp [hpend] at hnone
    rw [running_afterInstruction, hpend]
    refine ⟨fun hu => ?_, fun hstopped => ?_⟩
    · have hcommit : afterInstruction (some p) u = u.commit p := if_pos hu
      rw [hcommit]
      exact ⟨State.pc_commit u p, fun c hc => by simp [hc], State.pend_commit u p⟩
    · rw [afterInstruction_of_not_running hstopped, hu]
  · exact ⟨fun h => by simp at h, fun _ => hpend⟩

/-- No instruction that makes a transfer is HALT. -/
theorem ne_halt_of_makesTransfer {s : State} {i : Instr} {p : Pending} (h : MakesTransfer s i p) : i ≠ .halt := by
  rcases h with ⟨j, hj, off9, rfl, -⟩ | ⟨rx, rfl, -⟩
  · exact (jump_ne hj off9).1
  · simp

/-- Settles O13: outside a delay slot the step ends with the instruction, whose only way to make a transfer pending is to make it its own. -/
theorem pendingIsSetOnlyByATakenTransfer : Obligations.PendingIsSetOnlyByATakenTransfer := by
  intro s t p hnone h hp
  have hrunning : s.running = true := by
    by_contra hstopped
    rw [step_of_not_running (by simpa using hstopped)] at h
    cases h
    simp [hnone] at hp
  rcases fetches_or_halts hrunning h with ⟨i, hi⟩ | ⟨-, rfl⟩
  · obtain ⟨w, u, -, hdecode, -, heffect, rfl⟩ := step_effect h hi
    rw [hnone] at hp ⊢
    rcases effect_pend heffect with hkept | ⟨-, q, hq, rfl⟩
    · simp [afterInstruction, hkept, hnone] at hp
    · obtain rfl : q = p := Option.some.inj hp
      rw [enter_eq_advancePc (by rw [hdecode]; exact ne_halt_of_makesTransfer hq)] at hq ⊢
      refine ⟨i, hi, s.pc_advancePc, rfl, hq.imp ?_ id⟩
      rintro ⟨j, hj, off9, rfl, hcond, rfl⟩
      exact ⟨j, hj, off9, rfl, hcond, by rw [jumpTransfer, State.pc_advancePc]⟩
  · simp [hnone] at hp

/-- Settles O14: the step of the transfer by O13, the step of its delay slot by O12. -/
theorem exactlyOneDelaySlotInstruction : Obligations.ExactlyOneDelaySlotInstruction := by
  intro s t u p hnone hst hp htu hu
  obtain ⟨i, -, hpc, hcs, -⟩ := pendingIsSetOnlyByATakenTransfer s t p hnone hst hp
  have ht : t.running = true := by
    by_contra hstopped
    rw [step_of_not_running (by simpa using hstopped)] at htu
    cases htu
    exact hstopped hu
  obtain ⟨hpc', hcs', hpend'⟩ := (delaySlotEndsWithTheCommit t u p ht hp htu).1 hu
  exact ⟨ht, by rw [hpc, hcs], hpc', hcs', hpend'⟩

theorem fetches_halt_iff {s : State} (hrunning : s.running = true) :
    Fetches s .halt ↔ translateAddr s.cs s.pc ≤ 0xFFFFF ∧ s.mem.readWord (translateAddr s.cs s.pc) = 0xFFFF#16 :=
  ⟨fun h => ⟨h.inRange, decode_eq_halt_iff.mp h.decodes⟩, fun ⟨hrange, hword⟩ => ⟨hrunning, hrange, decode_eq_halt_iff.mpr hword⟩⟩

/-- A running block stops exactly at a fetch out of range, the sentinel and HLT (40_fsm.md R152 to R154, 48_system.md R352). -/
theorem step_running {s t : State} (h : step s = .next t) (hrunning : s.running = true) :
    t.running = false ↔ 0xFFFFF < translateAddr s.cs s.pc ∨ Fetches s .halt ∨ Fetches s .hlt := by
  rcases fetches_or_halts hrunning h with ⟨i, hi⟩ | ⟨hfetch, rfl⟩
  · obtain ⟨w, u, -, -, hexec, -, rfl⟩ := step_effect h hi
    have hfetched (k : Instr) : Fetches s k ↔ i = k := ⟨fetches_unique hi, fun hk => hk ▸ hi⟩
    have hrange : ¬ 0xFFFFF < translateAddr s.cs s.pc := Nat.not_lt.mpr hi.inRange
    rw [running_afterInstruction, exec_running hexec (by rw [State.running_enter, hrunning]), hfetched, hfetched]
    simp [hrange]
  · simp [fetch_eq_none_iff.mp hfetch]

/-- Settles O15: what a halted and a running step do, and the three halts as the ways to stop. -/
theorem runningIsClearedExactlyByTheThreeHalts : Obligations.RunningIsClearedExactlyByTheThreeHalts := by
  refine ⟨fun s t h => ⟨fun hstopped => ?_, fun hrunning => ?_, fun hrunning => ?_, by rw [h]; rfl⟩, fun s => rfl⟩
  · rw [step_of_not_running hstopped] at h
    cases h
    rfl
  · rw [step_running h hrunning, fetches_halt_iff hrunning]
  · rcases fetches_or_halts hrunning h with ⟨i, hi⟩ | ⟨hfetch, -⟩
    · obtain ⟨w, u, hfetch, -, hexec, -, ht⟩ := step_effect h hi
      obtain ⟨-, rfl⟩ := fetch_eq_some_iff.mp hfetch
      exact .inr ⟨i, u, hi, hexec, ht⟩
    · exact .inl (fetch_eq_none_iff.mp hfetch)

end Sys2Proof.Proofs
end

section
/-! PROOFS. The frames of a step: who writes memory, the PSW, the segment registers and the general registers (10_state.md R30 to R42, 20_memory.md R74, R78). -/

namespace Sys2Proof.Proofs

open Sys2Proof Sys2Proof.Machine Sys2Proof.Claims

/-! What the end of a step leaves. -/

section
variable (p : Option Pending) (t : State)

@[simp] theorem mem_afterInstruction : (afterInstruction p t).mem = t.mem := by
  rcases afterInstruction_cases p t with h | ⟨q, -, -, h⟩ <;> simp [h]
@[simp] theorem observed_afterInstruction : (afterInstruction p t).observed = t.observed := by
  rcases afterInstruction_cases p t with h | ⟨q, -, -, h⟩ <;> simp [h]
@[simp] theorem psw_afterInstruction : (afterInstruction p t).psw = t.psw := by
  rcases afterInstruction_cases p t with h | ⟨q, -, -, h⟩ <;> simp [h]
@[simp] theorem ds_afterInstruction : (afterInstruction p t).ds = t.ds := by
  rcases afterInstruction_cases p t with h | ⟨q, -, -, h⟩ <;> simp [h]
@[simp] theorem ss_afterInstruction : (afterInstruction p t).ss = t.ss := by
  rcases afterInstruction_cases p t with h | ⟨q, -, -, h⟩ <;> simp [h]
@[simp] theorem es_afterInstruction : (afterInstruction p t).es = t.es := by
  rcases afterInstruction_cases p t with h | ⟨q, -, -, h⟩ <;> simp [h]
theorem reg_afterInstruction {r : Reg} (hr : r ≠ 15) : (afterInstruction p t).reg r = t.reg r := by
  rcases afterInstruction_cases p t with h | ⟨q, -, -, h⟩ <;> simp [h, pcReg, hr]

end

theorem reg_enter {r : Reg} (hr : r ≠ 15) (s : State) (w : Word) : (s.enter w).reg r = s.reg r := by
  unfold State.enter
  split
  · rfl
  · rw [State.reg_advancePc, if_neg hr]

/-! Memory. -/

theorem storeOf_eq_none_of_isAluClass {i : Instr} (h : isAluClass i = true) (s : State) : storeOf s i = none := by
  cases i with
  | st | sts => cases h
  | _ => rfl

theorem storeOf_eq_none_of_writesFlagBits {i : Instr} (h : writesFlagBits i = true) (s : State) : storeOf s i = none := by
  cases i with
  | st | sts => cases h
  | _ => rfl

theorem storeOf_eq_none_of_writesPswBits {i : Instr} (h : writesPswBits i = true) (s : State) : storeOf s i = none := by
  cases i with
  | st | sts => cases h
  | _ => rfl

theorem storeOf_jump {j : (BitVec 9 → Instr) × (Word → Bool)} (hj : j ∈ jumps) (off9 : BitVec 9) (s : State) :
    storeOf s (j.1 off9) = none := by
  simp only [jumps, List.mem_cons, List.not_mem_nil, or_false] at hj
  rcases hj with rfl | rfl | rfl | rfl | rfl | rfl | rfl | rfl <;> rfl

theorem storeOf_eq_none_of_makesTransfer {i : Instr} {s : State} {p : Pending} (h : MakesTransfer s i p) : storeOf s i = none := by
  rcases h with ⟨j, hj, off9, rfl, -⟩ | ⟨rx, rfl, -⟩
  · exact storeOf_jump hj off9 s
  · rfl

/-- An instruction without a store leaves memory and the reports; one with a store is `State.store`. -/
theorem effect_store {i : Instr} {s u : State} (h : Effect i s u) :
    (storeOf s i = none ∧ u.mem = s.mem ∧ u.observed = s.observed) ∨
    ∃ pa v, storeOf s i = some (pa, v) ∧ u = s.store pa v := by
  cases h with
  | alu op a b raw c halu hregs =>
    obtain ⟨⟨x, rfl⟩, -⟩ := hregs
    exact .inl ⟨storeOf_eq_none_of_isAluClass halu s, rfl, rfl⟩
  | regs halu hstore hregs =>
    obtain ⟨⟨x, rfl⟩, -⟩ := hregs
    exact .inl ⟨hstore, rfl, rfl⟩
  | store hstore => exact .inr ⟨_, _, hstore, rfl⟩
  | seg hi => exact .inl ⟨by rw [hi]; rfl, State.mem_setSeg .., State.observed_setSeg ..⟩
  | flagBits hi => exact .inl ⟨storeOf_eq_none_of_writesFlagBits hi s, rfl, rfl⟩
  | pswBits hi => exact .inl ⟨storeOf_eq_none_of_writesPswBits hi s, rfl, rfl⟩
  | transfer hpend hp => exact .inl ⟨storeOf_eq_none_of_makesTransfer hp, rfl, rfl⟩
  | halt hi => exact .inl ⟨by rcases hi with rfl | rfl <;> rfl, rfl, rfl⟩
  | trap hi => exact .inl ⟨by rw [hi]; rfl, rfl, rfl⟩

theorem mem_wf_of_effect {i : Instr} {s u : State} (h : Effect i s u) (hwf : s.mem.wf = true) : u.mem.wf = true := by
  rcases effect_store h with ⟨-, hmem, -⟩ | ⟨pa, v, -, rfl⟩
  · rwa [hmem]
  · exact Memory.wf_writeWord hwf pa v

/-- Settles O16: an instruction's only write of memory is a store, which keeps the canonical form. -/
theorem stepKeepsMemoryCanonical : Obligations.StepKeepsMemoryCanonical := by
  intro s t hwf h
  rcases step_next_fetches h with ⟨-, rfl | rfl⟩ | ⟨i, w, u, -, hexec, rfl⟩
  · exact hwf
  · exact hwf
  · rw [mem_afterInstruction]
    exact mem_wf_of_effect (exec_hasEffect i _ u hexec) (by rwa [State.mem_enter])

/-- The store of an instruction as it executes, of which HALT, that alone runs without the PC advance, makes none. -/
theorem storeOf_enter {w : Word} {i : Instr} (h : decode w = i) (s : State) : storeOf (s.enter w) i = storeOf s.advancePc i := by
  by_cases hhalt : i = .halt
  · rw [hhalt]
    rfl
  · rw [enter_eq_advancePc (by rwa [h])]

/-- An instruction stores in range only. -/
theorem storeOf_le {s : State} {i : Instr} {pa : Nat} {v : Word} (h : storeOf s i = some (pa, v)) : pa ≤ 0xFFFFF := by
  cases i with
  | st rd rb off5 =>
    simp only [storeOf, Option.ite_none_right_eq_some, Option.some.injEq, Prod.mk.injEq] at h
    obtain ⟨hrange, rfl, -⟩ := h
    exact hrange
  | sts seg rd rs =>
    simp only [storeOf, Option.some.injEq, Prod.mk.injEq] at h
    obtain ⟨rfl, -⟩ := h
    exact (directAddr_le s rs).trans (by omega)
  | _ => simp [storeOf] at h

/-- A step that stores has made exactly that store. -/
theorem step_stored {s t : State} {i : Instr} {pa : Nat} {v : Word} (hwf : s.mem.wf = true) (hi : Fetches s i)
    (hstore : storeOf s.advancePc i = some (pa, v)) (h : step s = .next t) : Stored pa v s t := by
  obtain ⟨w, u, -, hdecode, -, heffect, rfl⟩ := step_effect h hi
  rcases effect_store heffect with ⟨hnone, -⟩ | ⟨pa', v', hsome, rfl⟩
  · simp [storeOf_enter hdecode, hstore] at hnone
  · rw [storeOf_enter hdecode, hstore] at hsome
    cases hsome
    obtain ⟨hword, hothers, hreport⟩ := store_stored (s := s.enter w) (by rwa [State.mem_enter]) (storeOf_le hstore) v
    exact ⟨by rw [mem_afterInstruction, hword], fun q hq => by rw [mem_afterInstruction, hothers q hq, State.mem_enter],
      by rw [observed_afterInstruction, hreport, State.observed_enter]⟩

/-- A step that does not store leaves memory and tells the observer nothing. -/
theorem step_sameMemory {s t : State} {i : Instr} (hi : Fetches s i) (hstore : storeOf s.advancePc i = none)
    (h : step s = .next t) : SameMemory s t := by
  obtain ⟨w, u, -, hdecode, -, heffect, rfl⟩ := step_effect h hi
  rcases effect_store heffect with ⟨-, hmem, hobs⟩ | ⟨pa, v, hsome, rfl⟩
  · exact ⟨fun pa => by simp [hmem], by simp [hobs]⟩
  · simp [storeOf_enter hdecode, hstore] at hsome

/-- Settles O20: the instruction's store, if it has one, is the only change of memory and the only report. -/
theorem memoryIsWrittenByStoresOnly : Obligations.MemoryIsWrittenByStoresOnly := by
  intro s t i hwf hi h
  cases hstore : storeOf s.advancePc i with
  | none => exact step_sameMemory hi hstore h
  | some store => exact step_stored hwf hi hstore h

/-- Settles O29: the word at the next fetch address is the stored one, and a store's address is in range. -/
theorem storeIsSeenByTheNextFetch : Obligations.StoreIsSeenByTheNextFetch := by
  intro s t i pa v hwf hi hstore h haddr
  subst haddr
  exact fetch_eq_some_iff.mpr ⟨storeOf_le hstore, (step_stored hwf hi hstore h).word⟩

/-! The PSW. -/

theorem isAluClass_of_writesFlagBits {i : Instr} (h : writesFlagBits i = true) : isAluClass i = false := by
  cases i with
  | set | clr => rfl
  | _ => cases h

theorem isAluClass_of_writesPswBits {i : Instr} (h : writesPswBits i = true) : isAluClass i = false := by
  cases i with
  | set2 | clr2 | seti | clri | srs | srd | ers | erd | swi | reti => rfl
  | _ => cases h

/-- The ways an instruction can leave the PSW. -/
theorem effect_psw {i : Instr} {s u : State} (h : Effect i s u) :
    u.psw = s.psw ∨
    (isAluClass i = true ∧ u.psw.extractLsb' 4 12 = s.psw.extractLsb' 4 12) ∨
    (isAluClass i = false ∧ writesFlagBits i = true) ∨
    (isAluClass i = false ∧ writesPswBits i = true ∧ u.psw.extractLsb' 0 4 = s.psw.extractLsb' 0 4) := by
  cases h with
  | alu op a b raw c halu hregs =>
    obtain ⟨⟨x, rfl⟩, -⟩ := hregs
    exact .inr (.inl ⟨halu, by simp⟩)
  | regs halu hstore hregs =>
    obtain ⟨⟨x, rfl⟩, -⟩ := hregs
    exact .inl rfl
  | store | transfer | halt => exact .inl rfl
  | seg => exact .inl (State.psw_setSeg ..)
  | flagBits hi => exact .inr (.inr (.inl ⟨isAluClass_of_writesFlagBits hi, hi⟩))
  | pswBits hi hlow => exact .inr (.inr (.inr ⟨isAluClass_of_writesPswBits hi, hi, hlow⟩))
  | trap hi => exact .inr (.inr (.inr ⟨by rw [hi]; rfl, by rw [hi]; rfl, low_pswWithView ..⟩))

/-- Settles O21: each clause rules out all ways to leave the PSW but those that keep its bits. -/
theorem pswIsWrittenOnlyByItsWriters : Obligations.PswIsWrittenOnlyByItsWriters := by
  intro s t i hi h
  obtain ⟨w, u, -, -, -, heffect, rfl⟩ := step_effect h hi
  rw [psw_afterInstruction, ← State.psw_enter s w]
  rcases effect_psw heffect with hsame | ⟨halu, hhigh⟩ | ⟨halu, hflag⟩ | ⟨halu, hbits, hlow⟩
  · exact ⟨fun _ _ _ => hsame, fun _ => by rw [hsame], fun _ _ => by rw [hsame]⟩
  · exact ⟨fun h => by simp [h] at halu, fun _ => hhigh, fun h => by simp [h] at halu⟩
  · exact ⟨fun _ h => by simp [h] at hflag, fun h => by simp [h] at halu, fun _ h => by simp [h] at hflag⟩
  · exact ⟨fun _ _ h => by simp [h] at hbits, fun h => by simp [h] at halu, fun _ _ => hlow⟩

/-! The segment registers. -/

/-- An instruction keeps every segment register, or it is the MVS that writes one, or the taken SWI that clears CS. -/
theorem effect_seg {i : Instr} {s u : State} (h : Effect i s u) :
    (∀ k, u.seg k = s.seg k) ∨ (∃ rd k, i = .mvsWrite rd k ∧ u = s.setSeg k (s.reg rd)) ∨
    (i = .swi ∧ swiIsTaken s.psw = true ∧ u = s.trapEntry) := by
  cases h with
  | alu op a b raw c halu hregs | regs halu hstore hregs =>
    obtain ⟨⟨x, rfl⟩, -⟩ := hregs
    exact .inl fun k => by cases k <;> rfl
  | store | flagBits | pswBits | transfer | halt => exact .inl fun k => by cases k <;> rfl
  | seg hi => exact .inr (.inl ⟨_, _, hi, rfl⟩)
  | trap hi htaken => exact .inr (.inr ⟨hi, htaken, rfl⟩)

/-- The segment register that differs after an instruction is the one an MVS names, or CS after a taken SWI. -/
theorem effect_seg_changed {i : Instr} {s u : State} (h : Effect i s u) {k : SegReg} (hk : u.seg k ≠ s.seg k) :
    (∃ rd, i = .mvsWrite rd k) ∨ (k = .cs ∧ i = .swi ∧ swiIsTaken s.psw = true) := by
  rcases effect_seg h with hsame | ⟨rd, j, rfl, rfl⟩ | ⟨rfl, htaken, rfl⟩
  · exact absurd (hsame k) hk
  · rw [State.seg_setSeg] at hk
    obtain rfl : k = j := by
      by_contra hne
      exact hk (if_neg hne)
    exact .inl ⟨rd, rfl⟩
  · cases k with
    | cs => exact .inr ⟨rfl, rfl, htaken⟩
    | ds | ss | es => exact absurd rfl hk

/-- The end of a step changes CS only to the CS of the transfer it commits. -/
theorem cs_afterInstruction (p : Option Pending) (u : State) :
    (afterInstruction p u).cs = u.cs ∨ ∃ q c, p = some q ∧ q.targetCs = some c ∧ (afterInstruction p u).cs = c := by
  rcases afterInstruction_cases p u with h | ⟨q, hq, -, h⟩
  · exact .inl (by rw [h])
  · rw [h, State.cs_commit]
    cases hc : q.targetCs with
    | none => exact .inl rfl
    | some c => exact .inr ⟨q, c, hq, hc, rfl⟩

/-- Settles O22: what the instruction changed is MVS's or the trap's, and what the end of the step changed is the committed CS. -/
theorem segmentRegistersAreWrittenOnlyByTheirWriters : Obligations.SegmentRegistersAreWrittenOnlyByTheirWriters := by
  intro s t i hi h
  obtain ⟨w, u, -, -, -, heffect, rfl⟩ := step_effect h hi
  rw [ds_afterInstruction, ss_afterInstruction, es_afterInstruction]
  refine ⟨fun hds => ?_, fun hss => ?_, fun hes => ?_, fun hcs => ?_⟩
  · simpa using effect_seg_changed heffect (k := .ds) (by simpa [State.seg] using hds)
  · simpa using effect_seg_changed heffect (k := .ss) (by simpa [State.seg] using hss)
  · simpa using effect_seg_changed heffect (k := .es) (by simpa [State.seg] using hes)
  · rcases cs_afterInstruction s.pend u with hsame | hcommit
    · rw [hsame] at hcs
      rcases effect_seg_changed heffect (k := .cs) (by simpa [State.seg] using hcs) with hmvs | ⟨-, hswi, htaken⟩
      · exact .inl hmvs
      · exact .inr (.inl ⟨hswi, by simpa using htaken⟩)
    · exact .inr (.inr hcommit)

/-! The general registers. -/

/-- An instruction writes its destinations and, as a taken SWI, R15. -/
theorem effect_reg {i : Instr} {s u : State} (h : Effect i s u) {r : Reg} (hr : r ∉ destinations i) (hpc : r ≠ 15) :
    u.reg r = s.reg r := by
  cases h with
  | alu op a b raw c halu hregs | regs halu hstore hregs => exact hregs.2 r hr
  | store | flagBits | pswBits | transfer | halt => rfl
  | seg => exact State.reg_setSeg ..
  | trap => rw [State.reg_trapEntry, if_neg hpc]

/-- Settles O23: the PC advance and the commit write R15 only, and the instruction its destinations. -/
theorem registersAreWrittenOnlyAsDestinations : Obligations.RegistersAreWrittenOnlyAsDestinations := by
  intro s t i r hi h hpc hr
  obtain ⟨w, u, -, -, -, heffect, rfl⟩ := step_effect h hi
  rw [reg_afterInstruction _ _ hpc, effect_reg heffect hr hpc, reg_enter hpc]

end Sys2Proof.Proofs
end

section
/-! PROOFS. The words of memory: below the ROM region two cells each, in it the ROM's words; reset, the host's load and the boot of an allowed ROM (20_memory.md R70 to R79, 70_reset_and_hazards.md R440 to R442). -/

namespace Sys2Proof.Proofs

open Sys2Proof Sys2Proof.Machine Sys2Proof.Claims

/-! Words of the two regions. -/

theorem topIndex_below {pa : Nat} (h : pa < 0xFFFF0) : topIndex pa = none := by
  have hbase : Config.romBase = 0xFFFF0 := rfl
  rw [topIndex, dif_neg (by omega)]

theorem topIndex_rom (k : Fin 16) : topIndex (0xFFFF0 + k.val) = some k := by
  have hbase : Config.romBase = 0xFFFF0 := rfl
  rw [topIndex, dif_pos (by omega)]
  simp

theorem readWord_below (m : Memory) {pa : Nat} (h : pa < 0xFFFF0) :
    m.readWord pa = readCell m.cells (2 * pa + 1) ++ readCell m.cells (2 * pa) := by
  rw [Memory.readWord, topIndex_below h]

theorem readWord_rom (m : Memory) (k : Fin 16) : m.readWord (0xFFFF0 + k.val) = m.top[k] := by
  rw [Memory.readWord, topIndex_rom k]

/-! Canonical memories. -/

/-- A listed key reads as something else than an unlisted one. -/
theorem readCell_head_ne {hi lo k : Nat} {v : Byte} {rest : List Host.Cell} (h : cellsWf hi lo ((k, v) :: rest) = true) :
    readCell ((k, v) :: rest) k ≠ unlistedByte := by
  simp only [cellsWf, Bool.and_eq_true, decide_eq_true_eq] at h
  simpa [readCell] using h.1.2

/-- A well-formed list does not read as a list whose first key is greater. -/
theorem not_head_lt {hi lo lo' k k' : Nat} {v v' : Byte} {l l' : List Host.Cell} (h : cellsWf hi lo ((k, v) :: l) = true)
    (h' : cellsWf hi lo' ((k', v') :: l') = true) (hread : ∀ q, readCell ((k, v) :: l) q = readCell ((k', v') :: l') q) :
    ¬ k < k' := by
  intro hlt
  refine readCell_head_ne h ((hread k).trans ?_)
  simp only [cellsWf, Bool.and_eq_true, decide_eq_true_eq] at h'
  exact readCell_below (lo := k') (hi := hi) (by simp [cellsWf, h']) hlt

/-- Well-formed lists that read alike are the same list. -/
theorem cells_eq_of_readCell_eq {hi lo lo' : Nat} {l l' : List Host.Cell} (h : cellsWf hi lo l = true)
    (h' : cellsWf hi lo' l' = true) (hread : ∀ k, readCell l k = readCell l' k) : l = l' := by
  induction l generalizing lo lo' l' with
  | nil => 
    cases l' with
    | nil => rfl
    | cons c rest => exact absurd (hread c.1).symm (readCell_head_ne h')
  | cons c rest ih =>
    obtain ⟨k, v⟩ := c
    cases l' with
    | nil => exact absurd (hread k) (readCell_head_ne h)
    | cons c' rest' => 
      obtain ⟨k', v'⟩ := c'
      obtain rfl : k = k' := by
        have hle := not_head_lt h h' hread
        have hge := not_head_lt h' h fun q => (hread q).symm
        omega
      obtain rfl : v = v' := by simpa [readCell] using hread k
      simp only [cellsWf, Bool.and_eq_true] at h h'
      refine congrArg _ (ih h.2 h'.2 fun q => ?_)
      by_cases hq : q = k
      · rw [readCell_below h.2 (by omega), readCell_below h'.2 (by omega)]
      · simpa [readCell, hq] using hread q

/-- Equal words have equal bytes. -/
theorem append_byte_inj {a b c d : Byte} (h : a ++ b = c ++ d) : a = c ∧ b = d := by
  constructor
  · calc a = (a ++ b).extractLsb' 8 8 := BitVec.extractLsb'_append_eq_left.symm
      _ = (c ++ d).extractLsb' 8 8 := by rw [h]
      _ = c := BitVec.extractLsb'_append_eq_left
  · calc b = (a ++ b).extractLsb' 0 8 := BitVec.extractLsb'_append_eq_right.symm
      _ = (c ++ d).extractLsb' 0 8 := by rw [h]
      _ = d := BitVec.extractLsb'_append_eq_right

/-- The bytes of the words below the ROM region are all the cells there are. -/
theorem readCell_eq_of_readWord_eq {m n : Memory} (hm : m.wf = true) (hn : n.wf = true)
    (h : ∀ pa, pa < 0xFFFF0 → m.readWord pa = n.readWord pa) (k : Nat) : readCell m.cells k = readCell n.cells k := by
  by_cases hk : k < 2 * 0xFFFF0
  · have hword := h (k / 2) (by omega)
    rw [readWord_below m (by omega), readWord_below n (by omega)] at hword
    obtain ⟨hodd, heven⟩ := append_byte_inj hword
    rcases Nat.mod_two_eq_zero_or_one k with hmod | hmod
    · rwa [show 2 * (k / 2) = k by omega] at heven
    · rwa [show 2 * (k / 2) + 1 = k by omega] at hodd
  · have hbase : 2 * Config.romBase ≤ k := Nat.not_lt.mp hk
    rw [readCell_above hm hbase, readCell_above hn hbase]

/-- Settles O18: the words fix the cells below the ROM region and the ROM's words. -/
theorem canonicalMemoriesWithEqualWordsAreEqual : Obligations.CanonicalMemoriesWithEqualWordsAreEqual := by
  intro m n hm hn h
  have hcells : m.cells = n.cells :=
    cells_eq_of_readCell_eq hm hn (readCell_eq_of_readWord_eq hm hn fun pa hpa => h pa (by omega))
  have htop : m.top = n.top := by
    refine Vector.ext fun i hi => ?_
    have hword := h (0xFFFF0 + i) (by omega)
    rwa [readWord_rom m ⟨i, hi⟩, readWord_rom n ⟨i, hi⟩] at hword
  cases m
  cases n
  simp_all

/-! Reset. -/

/-- Settles O17: no cell is listed at reset. -/
theorem resetMemoryIsCanonical : Obligations.ResetMemoryIsCanonical := fun rom =>
  ⟨Memory.wf_blank rom, State.wf_mem_reset⟩

theorem readWord_blank_below (rom : Vector Word 16) {pa : Nat} (h : pa < 0xFFFF0) :
    (Memory.blank rom).readWord pa = 0xFFFF#16 := by
  rw [readWord_below _ h]
  exact (by decide : (unlistedByte ++ unlistedByte : Word) = 0xFFFF#16)

theorem getElem_romImage (k : Fin 16) : romImage[k] = Config.autoloadRom k := by
  simp [romImage]

theorem reg_reset : ∀ r, State.reset.reg r = 0x0000#16 := by
  have hregs : ∀ r : Reg, resetRegs[r] = 0x0000#16 := by decide
  exact hregs

/-- Settles O56. -/
theorem resetState : Obligations.ResetState :=
  ⟨reg_reset, rfl, rfl, rfl, rfl, rfl, rfl, rfl, rfl, rfl, rfl, rfl, fun _ hpa => readWord_blank_below romImage hpa,
    fun k => (readWord_rom _ k).trans (getElem_romImage k), rfl⟩

/-! The host's load. -/

theorem readWord_loadWord {m : Memory} (hwf : m.wf = true) (w : Nat × Word) {pa : Nat} (hpa : pa ≤ 0xFFFFF) :
    (m.loadWord w).readWord pa = if w.1 = pa then w.2 else m.readWord pa := by
  rw [Memory.loadWord]
  by_cases heq : w.1 = pa
  · subst heq
    have hin := (inRange_iff _).mpr hpa
    rw [if_pos hin, if_pos rfl, Memory.readWord_writeWord_same hwf hin]
  · rw [if_neg heq]
    split
    · exact Memory.readWord_writeWord_other hwf (Ne.symm heq) w.2
    · rfl

theorem lastWrite_append (writes : List (Nat × Word)) (w : Nat × Word) (pa : Nat) :
    lastWrite (writes ++ [w]) pa = if w.1 = pa then some w.2 else lastWrite writes pa := by
  simp only [lastWrite, List.reverse_append, List.reverse_cons, List.reverse_nil, List.nil_append, List.cons_append,
    List.find?_cons]
  by_cases h : w.1 = pa
  · simp [h]
  · simp [h, beq_false_of_ne h]

/-- After the writes, a word is the last one written to it, or what it was. -/
theorem readWord_foldl_loadWord {m : Memory} (hwf : m.wf = true) (writes : List (Nat × Word)) {pa : Nat} (hpa : pa ≤ 0xFFFFF) :
    (writes.foldl Memory.loadWord m).readWord pa = (lastWrite writes pa).getD (m.readWord pa) := by
  induction writes using List.reverseRecOn with
  | nil => rfl
  | append_singleton writes w ih =>
    rw [List.foldl_append, List.foldl_cons, List.foldl_nil, readWord_loadWord (Memory.wf_foldl_loadWord writes hwf) w hpa, ih,
      lastWrite_append]
    split <;> rfl

theorem readWord_load_below (rom : Vector Word 16) (writes : List (Nat × Word)) {pa : Nat} (h : pa < 0xFFFF0) :
    (Memory.load rom writes).readWord pa = (lastWrite writes pa).getD 0xFFFF#16 := by
  rw [readWord_below _ h, ← readWord_blank_below (Vector.replicate 16 Config.resetWord) h,
    ← readWord_foldl_loadWord (Memory.wf_blank _) writes (by omega), readWord_below _ h]
  rfl

theorem readWord_load_rom (rom : Vector Word 16) (writes : List (Nat × Word)) (k : Fin 16) :
    (Memory.load rom writes).readWord (0xFFFF0 + k.val) = rom[k] := readWord_rom _ k

theorem loadProgramWith_sameControl (rom : Vector Word 16) (s : State) (writes : List (Nat × Word)) :
    SameControl s (s.loadProgramWith rom writes) := by
  constructor <;> rfl

/-- Settles O57: the fold over the writes for the words below the ROM, the ROM put back for the others. -/
theorem loadProgramEffect : Obligations.LoadProgramEffect := by
  refine ⟨fun rom s writes => ⟨fun pa hpa => readWord_load_below rom writes hpa, readWord_load_rom rom writes, fun _ => rfl, rfl,
    loadProgramWith_sameControl rom s writes, rfl⟩, fun s writes => ⟨rfl, fun k => ?_⟩⟩
  exact (readWord_load_rom romImage writes k).trans (getElem_romImage k)

/-! The boot of an allowed ROM. -/

/-- A step leaves memory and the reports, or it writes one word and reports it. -/
theorem step_memory {s t : State} (h : step s = .next t) :
    (t.mem = s.mem ∧ t.observed = s.observed) ∨
    ∃ pa v, t.mem = s.mem.writeWord pa v ∧ t.observed = s.observed ++ [{ pa := pa, value := v }] := by
  rcases step_next_fetches h with ⟨-, rfl | rfl⟩ | ⟨i, w, u, -, hexec, rfl⟩
  · exact .inl ⟨rfl, rfl⟩
  · exact .inl ⟨rfl, rfl⟩
  · rw [mem_afterInstruction, observed_afterInstruction, ← State.mem_enter s w, ← State.observed_enter s w]
    rcases effect_store (exec_hasEffect i _ u hexec) with ⟨-, hmem, hobs⟩ | ⟨pa, v, -, rfl⟩
    · exact .inl ⟨hmem, hobs⟩
    · exact .inr ⟨pa, v, rfl, rfl⟩

/-- Memory is canonical, and every word that was not reported as stored reads as in `m`. -/
def UnreportedAsIn (m : Memory) (s : State) : Prop :=
  s.mem.wf = true ∧ ∀ pa, (∀ r ∈ s.observed, r.pa ≠ pa) → s.mem.readWord pa = m.readWord pa

theorem step_unreportedAsIn {m : Memory} {s t : State} (hs : UnreportedAsIn m s) (h : step s = .next t) : UnreportedAsIn m t := by
  obtain ⟨hwf, hwords⟩ := hs
  refine ⟨stepKeepsMemoryCanonical s t hwf h, fun pa hpa => ?_⟩
  rcases step_memory h with ⟨hmem, hobs⟩ | ⟨pa', v, hmem, hobs⟩
  · rw [hmem]
    exact hwords pa (hobs ▸ hpa)
  · rw [hobs] at hpa
    have hne : pa ≠ pa' := (hpa ⟨pa', v⟩ (by simp)).symm
    rw [hmem, Memory.readWord_writeWord_other hwf hne]
    exact hwords pa fun r hr => hpa r (List.mem_append_left _ hr)

/-- The machine with an allowed ROM runs as every machine of this step. -/
theorem machine_run_of_runsTo {rom : AutoloadRom} {n : Nat} {s t : State} (h : RunsTo n s t) : rom.machine.run n s = .next t := by
  induction n generalizing s with
  | zero => exact h
  | succ n ih =>
    obtain ⟨u, hu, hrest⟩ := runsTo_succ.mp h
    have hstep : rom.machine.step s = .next u := hu
    simp only [Host.Core.run, hstep]
    exact ih hrest

/-- Settles O58: the ROM's run to its JML and the two steps that commit it, with the unreported words as an invariant of the run. -/
theorem allowedRomReachesTheProgram : Obligations.AllowedRomReachesTheProgram := by
  intro rom
  obtain ⟨n, u, t, w, rx, hrun, -, -, -, hcommit, htable⟩ := rom.boots
  have hboot : RunsInRom (n + 2) rom.reset t := hrun.trans hcommit
  have hwords : UnreportedAsIn rom.reset.mem t :=
    hboot.keeps (fun _ _ => step_unreportedAsIn) ⟨Memory.wf_blank _, fun _ _ => rfl⟩
  refine ⟨n + 2, t, machine_run_of_runsTo hboot.runsTo, htable, ?_, hwords.2⟩
  rw [State.fetchAddr, htable.cs, htable.pc]
  rfl

end Sys2Proof.Proofs
end

section
/-! PROOFS. Data addresses (42_load_store.md R200, R201, 20_memory.md R71, R72), LD and ST, and the moves of the segment and context registers (47_segment_context.md). -/

namespace Sys2Proof.Proofs

open Sys2Proof Sys2Proof.Machine Sys2Proof.Claims

/-! Addresses. -/

/-- Settles O25: a segment and an offset have 16 bits each. -/
theorem translationIsNotWrapped : Obligations.TranslationIsNotWrapped := by
  intro segval off
  have hseg : segval.toNat < 65536 := segval.isLt
  have hoff : off.toNat < 65536 := off.isLt
  rw [inRange_iff, translateAddr]
  exact ⟨rfl, by omega, Iff.rfl, by omega⟩

theorem stackMatch_iff {p : Word} {rb : Reg} :
    stackMatch p rb = true ↔ Selects (p.extractLsb' 6 4) (p.getLsbD 10) rb := by
  simp [stackMatch, Selects, pswSR, pswDS]

theorem extraMatch_iff {p : Word} {rb : Reg} :
    extraMatch p rb = true ↔ Selects (p.extractLsb' 11 4) (p.getLsbD 15) rb := by
  simp [extraMatch, Selects, pswER, pswDE]

/-- The offset sum of an LD or ST wraps at 16 bits (30_encoding.md R125). -/
theorem toNat_add_zext (v : Word) (off5 : BitVec 5) : (v + zext off5).toNat = (v.toNat + off5.toNat) % 65536 := by
  rw [BitVec.toNat_add, zext, BitVec.toNat_setWidth_of_le (by omega)]

theorem dataAddr_eq (s : State) (rb : Reg) (off5 : BitVec 5) :
    dataAddr s rb off5 = (s.seg (dataSeg s.psw rb)).toNat * 16 + ((s.reg rb).toNat + off5.toNat) % 65536 := by
  rw [dataAddr, translateAddr, toNat_add_zext]

/-- Settles O24: the three clauses are the branches of the segment's choice. -/
theorem dataAddressFollowsTheSelectors : Obligations.DataAddressFollowsTheSelectors := by
  intro s rb off5
  rw [dataAddr_eq, dataSeg, ← stackMatch_iff, ← extraMatch_iff]
  refine ⟨fun hstack => ?_, fun hstack hextra => ?_, fun hstack hextra => ?_⟩
  · rw [if_pos hstack]
    rfl
  · rw [if_neg hstack, if_pos hextra]
    rfl
  · rw [if_neg hstack, if_neg hextra]
    rfl

/-! LD and ST. -/

theorem inRange_false_of_lt {pa : Nat} (h : 0xFFFFF < pa) : ¬ inRange pa = true := fun hin =>
  absurd ((inRange_iff pa).mp hin) (by omega)

/-- Settles O26: in range LD is one register write, out of range nothing. -/
theorem loadEffect : Obligations.LoadEffect := by
  refine fun rd rb off5 s => ⟨fun hrange => ?_, fun hrange => ?_⟩
  · rw [exec, execLd, if_pos ((inRange_iff _).mpr hrange)]
    exact moveOutcome_setReg s rd _
  · rw [exec, execLd, if_neg (inRange_false_of_lt hrange)]

/-- Settles O27: in range ST is one store, out of range nothing. -/
theorem storeEffect : Obligations.StoreEffect := by
  refine fun rd rb off5 s hwf => ⟨fun hrange => ?_, fun hrange => ?_⟩
  · rw [exec, execSt, if_pos ((inRange_iff _).mpr hrange)]
    exact ⟨_, rfl, store_stored hwf hrange _, store_sameRegs s _ _, s.psw_store .., store_sameControl ..⟩
  · rw [exec, execSt, if_neg (inRange_false_of_lt hrange)]

/-! MVS and SMV. -/

theorem setSeg_sameControl (s : State) (k : SegReg) (v : Word) :
    SameControl { s with cs := (s.setSeg k v).cs, ds := (s.setSeg k v).ds, ss := (s.setSeg k v).ss, es := (s.setSeg k v).es }
      (s.setSeg k v) := by
  constructor <;> simp

theorem setSeg_sameMemory (s : State) (k : SegReg) (v : Word) : SameMemory s (s.setSeg k v) := by
  constructor <;> simp

/-- Settles O49: MVS read is one register write, MVS write changes the one segment register it names. -/
theorem segmentMoveEffect : Obligations.SegmentMoveEffect := by
  intro rd k s
  refine ⟨?_, s.setSeg k (s.reg rd), rfl, ?_, ?_, ?_, ?_, s.reg_setSeg k _, s.psw_setSeg k _, setSeg_sameControl .., setSeg_sameMemory ..⟩
  · cases k <;> exact moveOutcome_setReg s rd _
  all_goals cases k <;> rfl

/-- SMV is one register write. -/
theorem moveOutcome_smv (src : SmvSrc) (rd : Reg) (s : State) : MoveOutcome (exec (.smv src rd) s) rd (smvValue s src) s :=
  moveOutcome_setReg s rd _

/-- What SMV reads, by S: the live register or the shadow register of each source, the other way round for PSW (47_segment_context.md R332). -/
theorem smvValue_eq (s : State) :
    smvValue s .apc = (if s.psw.getLsbD 5 then s.reg 15 else s.pcShadow) ∧
    smvValue s .apsw = (if s.psw.getLsbD 5 then s.psw else s.pswShadow) ∧
    smvValue s .psw = (if s.psw.getLsbD 5 then s.pswShadow else s.psw) ∧
    smvValue s .acs = (if s.psw.getLsbD 5 then s.cs else s.csShadow) := by
  unfold smvValue pswS
  cases s.psw.getLsbD 5 with
  | false => exact ⟨rfl, rfl, rfl, rfl⟩
  | true => exact ⟨rfl, rfl, rfl, rfl⟩

/-- Settles O50: SMV writes the value it reads to one register. -/
theorem contextMoveEffect : Obligations.ContextMoveEffect := by
  intro rd s
  obtain ⟨hapc, hapsw, hpsw, hacs⟩ := smvValue_eq s
  rw [← hapc, ← hapsw, ← hpsw, ← hacs]
  exact ⟨moveOutcome_smv .., moveOutcome_smv .., moveOutcome_smv .., moveOutcome_smv ..⟩

end Sys2Proof.Proofs
end

section
/-! PROOFS. The ALU-class instructions whose effect is a closed form of their raw result: MOV, LSI, MUL, DIV and their 32-bit forms (41_ldi_mov_lsi.md, 43_alu.md R232 to R235), SWB, INV and NEG (46_sop.md R300 to R302). -/

namespace Sys2Proof.Proofs

open Sys2Proof Sys2Proof.Machine Sys2Proof.Claims

/-- The outcome of `aluResult` with the result and the raw result in closed form. -/
theorem aluOutcome_of_raw_eq {s : State} {op : AluClass} {rd : Reg} {w : Bool} {a b result : Word} {raw raw' : Int}
    (hraw : raw = raw') (hresult : mod16 raw' = result) :
    AluOutcome (.next (s.aluResult op rd w a b raw)) op rd w result a b raw' s := by
  subst hraw hresult
  exact aluOutcome_aluResult ..

/-! Words from immediates and raw results. -/

theorem zext_eq {n : Nat} (v : BitVec n) : zext v = BitVec.ofNat 16 v.toNat := (BitVec.ofNat_toNat 16 v).symm

theorem toNat_zext {n : Nat} (v : BitVec n) (hn : n ≤ 16) : (zext v).toNat = v.toNat := BitVec.toNat_setWidth_of_le hn

theorem mod16_add (m n : Int) : mod16 (m + n) = mod16 m + mod16 n := BitVec.ofInt_add ..

theorem mod16_natCast (n : Nat) : mod16 n = BitVec.ofNat 16 n := BitVec.ofInt_natCast ..

theorem mod16_mul (m n : Int) : mod16 (m * n) = mod16 m * mod16 n := BitVec.ofInt_mul ..

/-! MOV and LSI. -/

/-- Settles O31: the sum of a word and an immediate, reduced. -/
theorem moveEffect : Obligations.MoveEffect := by
  intro rd rs imm2 s
  rw [exec, execMov, zext_eq]
  refine aluOutcome_of_raw_eq rfl ?_
  rw [mod16_add, mod16_toNat, mod16_natCast]

/-- Settles O32: the sign extension is the reduction of the signed immediate. -/
theorem loadShortImmediateEffect : Obligations.LoadShortImmediateEffect := fun _ _ _ => aluOutcome_of_raw_eq rfl rfl

/-! MUL and DIV. -/

theorem mod16_rawMul (a b : Word) : mod16 (rawMul a b) = a * b := by
  rw [rawMul, mod16_mul, mod16_toNat, mod16_toNat]

/-- Settles O35: both forms are the ALU2 shape, and the low word of an exact product is the product of the words. -/
theorem multiplyEffect : Obligations.MultiplyEffect := by
  intro rd rs w imm4 s
  constructor
  · exact aluOutcome_of_raw_eq rfl (mod16_rawMul _ _)
  · rw [exec, execMulImm, alu2, State.operand, ← zext_eq, ← toNat_zext imm4 (by omega)]
    exact aluOutcome_of_raw_eq rfl (mod16_rawMul _ _)

/-- The quotient as the statements write it: truncated, `0xFFFF` for a zero divisor (43_alu.md R234). -/
theorem rawDiv_eq (a b : Word) : rawDiv a b = (if b = 0 then 65535 else a.toNat / b.toNat : Nat) := by
  have hzero : b = 0 ↔ b = 0#16 := Iff.rfl
  by_cases h : b = 0#16
  · rw [rawDiv, quotient, if_pos h, if_pos (hzero.mpr h)]
    rfl
  · rw [rawDiv, quotient, if_neg h, if_neg (mt hzero.mp h), BitVec.toNat_udiv]

theorem zext_eq_zero_iff {n : Nat} {v : BitVec n} (hn : n ≤ 16) : zext v = 0 ↔ v = 0 := by
  rw [← BitVec.toNat_inj, ← BitVec.toNat_inj, toNat_zext v hn]
  simp

theorem rawDiv_zext (a : Word) (imm4 : BitVec 4) :
    rawDiv a (zext imm4) = (if imm4 = 0 then 65535 else a.toNat / imm4.toNat : Nat) := by
  rw [rawDiv_eq, toNat_zext imm4 (by omega)]
  simp only [zext_eq_zero_iff (show 4 ≤ 16 by omega)]

/-- Settles O37: both forms are the ALU2 shape with the quotient as raw result. -/
theorem divideEffect : Obligations.DivideEffect := by
  intro rd rs w imm4 s
  constructor
  · exact aluOutcome_of_raw_eq (rawDiv_eq _ _) (mod16_natCast _)
  · rw [exec, execDivImm, alu2, State.operand, ← zext_eq]
    exact aluOutcome_of_raw_eq (rawDiv_zext _ _) (mod16_natCast _)

/-! The 32-bit forms. -/

theorem aluPair_flagLaw (s : State) (op : AluClass) (rd : Reg) (w : Bool) (first second a b : Word) (raw : Int) :
    FlagLaw op a b raw s (s.aluPair op rd w first second a b raw) where
  n := by simp [negativeOf_iff]
  z := by simp [zeroOf_iff]
  v := by simp [overflowOf]
  c := by simp [carryOf]
  high := by simp

theorem aluPair_sameControl (s : State) (op : AluClass) (rd : Reg) (w : Bool) (first second a b : Word) (raw : Int) :
    SameControl s (s.aluPair op rd w first second a b raw) := by
  constructor <;> simp

theorem aluPair_sameMemory (s : State) (op : AluClass) (rd : Reg) (w : Bool) (first second a b : Word) (raw : Int) :
    SameMemory s (s.aluPair op rd w first second a b raw) := by
  constructor <;> simp

/-- The registers after a 32-bit form: the two words where the result is written, every other register as before. -/
theorem aluPair_regs (s : State) (op : AluClass) (rd : Reg) (w : Bool) (first second a b : Word) (raw : Int) :
    (w = true → (s.aluPair op rd w first second a b raw).reg rd = first ∧
      (s.aluPair op rd w first second a b raw).reg (rd + 1) = second) ∧
    ∀ r, w = false ∨ (r ≠ rd ∧ r ≠ rd + 1) → (s.aluPair op rd w first second a b raw).reg r = s.reg r := by
  have hne : rd ≠ pairReg rd := by revert rd; decide
  refine ⟨fun hw => ⟨?_, ?_⟩, fun r hr => ?_⟩
  · rw [State.reg_aluPair, if_neg (by simp [hne]), if_pos ⟨hw, rfl⟩]
  · rw [State.reg_aluPair, if_pos ⟨hw, rfl⟩]
  · rw [State.reg_aluPair]
    rcases hr with hw | ⟨hrd, hpair⟩
    · simp [hw]
    · rw [if_neg (by simp [pairReg, hpair]), if_neg (by simp [hrd])]

/-- The two words of an exact product of a word and a 4-bit immediate (43_alu.md R233). -/
theorem product_words (a : Word) (imm4 : BitVec 4) :
    (highWord (rawMul a (zext imm4))).toNat = a.toNat * imm4.toNat / 65536 ∧
    (mod16 (rawMul a (zext imm4))).toNat = a.toNat * imm4.toNat % 65536 := by
  have ha : a.toNat < 65536 := a.isLt
  have himm : imm4.toNat < 16 := imm4.isLt
  have hproduct : a.toNat * imm4.toNat < 65536 * 16 := Nat.mul_lt_mul'' ha himm
  have hraw : rawMul a (zext imm4) = (a.toNat * imm4.toNat : Nat) := by
    rw [rawMul, toNat_zext imm4 (by omega), Nat.cast_mul]
  rw [hraw]
  generalize a.toNat * imm4.toNat = product at hproduct
  have hhigh : ((product : Int) / 0x10000) = (product / 65536 : Nat) := by omega
  rw [highWord, hhigh, mod16_natCast, mod16_natCast, BitVec.toNat_ofNat, BitVec.toNat_ofNat]
  omega

/-- Settles O36: `aluPair` with the two words of the product. -/
theorem wideMultiplyEffect : Obligations.WideMultiplyEffect := by
  intro rd w imm4 s _
  obtain ⟨hwritten, hothers⟩ := aluPair_regs s .mul32 rd w (highWord (rawMul (s.reg rd) (zext imm4)))
    (mod16 (rawMul (s.reg rd) (zext imm4))) (s.reg rd) (zext imm4) (rawMul (s.reg rd) (zext imm4))
  obtain ⟨hhigh, hlow⟩ := product_words (s.reg rd) imm4
  refine ⟨_, rfl, fun hw => ?_, hothers, ?_, aluPair_sameControl .., aluPair_sameMemory ..⟩
  · obtain ⟨hfirst, hsecond⟩ := hwritten hw
    rw [hfirst, hsecond]
    exact ⟨hhigh, hlow⟩
  · rw [← zext_eq, ← toNat_zext imm4 (by omega)]
    exact aluPair_flagLaw ..

theorem quotient_remainder_zext {a : Word} {imm4 : BitVec 4} (h : imm4 ≠ 0) :
    (quotient a (zext imm4)).toNat = a.toNat / imm4.toNat ∧ (remainder a (zext imm4)).toNat = a.toNat % imm4.toNat := by
  have hz : zext imm4 ≠ 0#16 := mt (zext_eq_zero_iff (by omega)).mp h
  rw [quotient, remainder, if_neg hz, if_neg hz, BitVec.toNat_udiv, BitVec.toNat_umod, toNat_zext imm4 (by omega)]
  exact ⟨rfl, rfl⟩

/-- Settles O38: `aluPair` with quotient and remainder, and with the machine's own values for a zero divisor. -/
theorem divideWithRemainderEffect : Obligations.DivideWithRemainderEffect := by
  intro rd w imm4 s _
  obtain ⟨hwritten, hothers⟩ := aluPair_regs s .div32 rd w (quotient (s.reg rd) (zext imm4))
    (remainder (s.reg rd) (zext imm4)) (s.reg rd) (zext imm4) (rawDiv (s.reg rd) (zext imm4))
  refine ⟨_, rfl, fun hw hne => ?_, fun hw hzero => ?_, hothers, ?_, aluPair_sameControl .., aluPair_sameMemory ..⟩
  · obtain ⟨hfirst, hsecond⟩ := hwritten hw
    rw [hfirst, hsecond]
    exact quotient_remainder_zext hne
  · obtain ⟨hfirst, hsecond⟩ := hwritten hw
    rw [hfirst, hsecond, hzero]
    exact ⟨rfl, rfl⟩
  · rw [← zext_eq, ← rawDiv_zext]
    exact aluPair_flagLaw ..

/-! SWB, INV and NEG. -/

/-- Two bytes as one word, by value. -/
theorem mod16_two_bytes (x y : Byte) : mod16 ((x.toNat : Int) * 256 + (y.toNat : Int)) = x ++ y := by
  have hx : x.toNat < 256 := x.isLt
  have hy : y.toNat < 256 := y.isLt
  apply BitVec.eq_of_toNat_eq
  have hmod := toNat_mod16 ((x.toNat : Int) * 256 + (y.toNat : Int))
  rw [BitVec.toNat_append, ← Nat.shiftLeft_add_eq_or_of_lt y.isLt, Nat.shiftLeft_eq]
  omega

theorem rawSwapBytes_eq (a : Word) : rawSwapBytes a = a.toNat % 256 * 256 + a.toNat / 256 := by
  have ha : a.toNat < 65536 := a.isLt
  simp only [rawSwapBytes, BitVec.extractLsb'_toNat, Nat.shiftRight_eq_div_pow]
  omega

theorem mod16_rawInvert (a : Word) : mod16 (rawInvert a) = ~~~ a := by
  have ha : a.toNat < 65536 := a.isLt
  apply BitVec.eq_of_toNat_eq
  have hmod := toNat_mod16 (rawInvert a)
  rw [rawInvert] at hmod ⊢
  rw [BitVec.toNat_not]
  omega

theorem mod16_neg (a : Word) : mod16 (-(a.toNat : Int)) = - a := by
  rw [mod16, BitVec.ofInt_neg]
  exact congrArg Neg.neg (mod16_toNat a)

/-- Settles O46: each is the ALU-class shape, and each raw result reduces to the word named. -/
theorem swapInvertNegateEffect : Obligations.SwapInvertNegateEffect := by
  intro rx s
  refine ⟨aluOutcome_of_raw_eq (rawSwapBytes_eq _) ?_, aluOutcome_of_raw_eq rfl (mod16_rawInvert _),
    aluOutcome_of_raw_eq (Int.zero_sub _) (mod16_neg _)⟩
  rw [← rawSwapBytes_eq]
  exact mod16_two_bytes _ _

end Sys2Proof.Proofs
end

section
/-! PROOFS. The shifts and rotates (44_shift.md R260 to R269): the datapath's exact results are the shifts of bit vectors, and the carries are the bits that leave. -/

namespace Sys2Proof.Proofs

open Sys2Proof Sys2Proof.Machine Sys2Proof.Claims

/-! The carry-producing shape. -/

/-- The outcome of a carry-producing shift with the result and the raw result in closed form (44_shift.md R261). -/
theorem carryOutcome_of_raw_eq {s : State} {op : AluClass} {rd : Reg} {a b result : Word} {raw raw' : Int} {c : Bool}
    (hraw : raw = raw') (hresult : mod16 raw' = result) :
    CarryOutcome (.next ((s.setReg rd (mod16 raw)).applyFlagsWithCarry op a b raw c)) op rd true result a b raw' c s := by
  subst hraw hresult
  refine ⟨_, rfl, fun r => ?_, ?_, ?_, ?_⟩
  · simp [State.reg_setReg]
  · constructor <;> simp [negativeOf_iff, zeroOf_iff, overflowOf]
  · constructor <;> simp
  · constructor <;> simp

theorem carryOutLeft_eq (c : Bool) (a : Word) (count : BitVec 3) :
    carryOutLeft c a count.toNat = if count = 0 then c else a.getLsbD (16 - count.toNat) := by
  have hzero : count.toNat = 0 ↔ count = 0 := BitVec.toNat_inj (y := 0)
  simp only [carryOutLeft, hzero]

theorem carryOutRight_eq (c : Bool) (a : Word) (count : BitVec 3) :
    carryOutRight c a count.toNat = if count = 0 then c else a.getLsbD (count.toNat - 1) := by
  have hzero : count.toNat = 0 ↔ count = 0 := BitVec.toNat_inj (y := 0)
  simp only [carryOutRight, hzero]

/-! Shifts. -/

theorem mod16_rawShiftLeft (a : Word) (n : Nat) : mod16 (rawShiftLeft a n) = a <<< n := by
  have hraw : rawShiftLeft a n = (a.toNat * 2 ^ n : Nat) := by simp [rawShiftLeft]
  apply BitVec.eq_of_toNat_eq
  rw [hraw, mod16_natCast, BitVec.toNat_ofNat, BitVec.toNat_shiftLeft, Nat.shiftLeft_eq]

theorem shiftRight_eq (a : Word) (n : Nat) : shiftRight a n = a >>> n := by
  apply BitVec.eq_of_toNat_eq
  have hle : a.toNat / 2 ^ n ≤ a.toNat := Nat.div_le_self ..
  have ha : a.toNat < 65536 := a.isLt
  rw [shiftRight, BitVec.toNat_ofNat, BitVec.toNat_ushiftRight, Nat.shiftRight_eq_div_pow, Nat.mod_eq_of_lt (by omega)]

/-- What an arithmetic shift by `n` fills in: a set sign bit in the `n` highest positions (44_shift.md R266). -/
theorem getLsbD_signFill (sign : Bool) (n : Nat) {k : Nat} (hk : k < 16) :
    (if sign then BitVec.ofNat 16 (0xFFFF * 2 ^ (16 - n)) else 0#16).getLsbD k = (sign && decide (16 - n ≤ k)) := by
  cases sign with
  | false => simp
  | true =>
    rw [if_pos rfl, BitVec.getLsbD_ofNat, show 0xFFFF = 2 ^ 16 - 1 from rfl, Nat.mul_comm, Nat.testBit_two_pow_mul,
      Nat.testBit_two_pow_sub_one]
    simp [hk]
    omega

/-- The shift with the sign bit filled in is the arithmetic shift of bit vectors. -/
theorem shiftRightArith_eq (a : Word) {n : Nat} (hn : n ≤ 16) : shiftRightArith a n = a.sshiftRight n := by
  apply BitVec.eq_of_getLsbD_eq
  intro k hk
  rw [shiftRightArith, shiftRight_eq, BitVec.getLsbD_or, BitVec.getLsbD_ushiftRight, BitVec.getLsbD_sshiftRight,
    getLsbD_signFill _ _ hk, decide_eq_false (show ¬ 16 ≤ k by omega), Bool.not_false, Bool.true_and]
  by_cases hin : n + k < 16
  · rw [if_pos hin, decide_eq_false (by omega), Bool.and_false, Bool.or_false]
  · rw [if_neg hin, decide_eq_true (by omega), BitVec.getLsbD_of_ge _ _ (by omega), Bool.and_true, Bool.false_or]

/-! Rotations. -/

/-- A rotation to the right by exact arithmetic, at any width. -/
theorem ofNat_rotateRight {m : Nat} (v : BitVec m) {n : Nat} (hn : n < m) :
    BitVec.ofNat m (v.toNat / 2 ^ n + v.toNat * 2 ^ (m - n)) = v.rotateRight n := by
  apply BitVec.eq_of_getLsbD_eq
  intro k hk
  have hlow : v.toNat / 2 ^ n < 2 ^ (m - n) := by
    rw [Nat.div_lt_iff_lt_mul (Nat.two_pow_pos n), ← Nat.pow_add, Nat.sub_add_cancel hn.le]
    exact v.isLt
  rw [Nat.add_comm, Nat.mul_comm, BitVec.getLsbD_ofNat, Nat.testBit_two_pow_mul_add _ hlow, BitVec.getLsbD_rotateRight, Nat.mod_eq_of_lt hn]
  by_cases hkn : k < m - n
  · simp [hk, hkn, Nat.testBit_div_two_pow, BitVec.getLsbD, Nat.add_comm]
  · simp [hk, hkn, BitVec.getLsbD]

theorem rotateRight_eq (a : Word) (count : BitVec 3) : rotateRight a count.toNat = a.rotateRight count.toNat :=
  ofNat_rotateRight a (by omega)

theorem rotateThroughCarry_eq (c : Bool) (a : Word) (count : BitVec 3) :
    rotateThroughCarry c a count.toNat = (BitVec.ofBool c ++ a).rotateRight count.toNat :=
  ofNat_rotateRight (m := 17) (BitVec.ofBool c ++ a) (by omega)

/-- Settles O39: the result of both is the left shift, and SLC's carry the bit that leaves. -/
theorem shiftLeftEffect : Obligations.ShiftLeftEffect := by
  intro rd count s
  constructor
  · rw [← zext_eq]
    exact aluOutcome_of_raw_eq rfl (mod16_rawShiftLeft ..)
  · rw [← zext_eq, ← carryOutLeft_eq]
    exact carryOutcome_of_raw_eq rfl (mod16_rawShiftLeft ..)

/-- Settles O40. -/
theorem shiftRightEffect : Obligations.ShiftRightEffect := by
  intro rd count s
  rw [← shiftRight_eq, ← zext_eq, ← carryOutRight_eq]
  exact ⟨aluOutcome_of_raw_eq rfl (mod16_toNat _), carryOutcome_of_raw_eq rfl (mod16_toNat _)⟩

/-- Settles O41. -/
theorem shiftRightArithmeticEffect : Obligations.ShiftRightArithmeticEffect := by
  intro rd count s
  rw [← shiftRightArith_eq _ (by omega), ← zext_eq, ← carryOutRight_eq]
  exact ⟨aluOutcome_of_raw_eq rfl (mod16_toNat _), carryOutcome_of_raw_eq rfl (mod16_toNat _)⟩

/-- Settles O42. -/
theorem rotateEffect : Obligations.RotateEffect := by
  intro rd count s
  rw [← rotateRight_eq, ← rotateThroughCarry_eq, ← BitVec.setWidth_eq_extractLsb' (by omega), ← zext_eq]
  exact ⟨aluOutcome_of_raw_eq rfl (mod16_toNat _), carryOutcome_of_raw_eq rfl (mod16_toNat _)⟩

end Sys2Proof.Proofs
end

section
/-! PROOFS. The operations that write the PSW only: the selectors and the bit masks (46_sop.md R303 to R310). -/

namespace Sys2Proof.Proofs

open Sys2Proof Sys2Proof.Machine Sys2Proof.Claims

/-- An instruction that answers its state with another PSW has the outcome that the bits of the new PSW say. -/
theorem pswOutcome_of_psw {o : Host.Outcome State Fault Refusal} {s : State} {p : Word} {bit : Nat → Bool}
    (ho : o = .next { s with psw := p }) (h : ∀ k, k < 16 → p.getLsbD k = bit k) : PswOutcome o bit s := by
  refine ⟨_, ho, h, fun _ => rfl, ?_, ?_⟩
  · constructor <;> rfl
  · constructor <;> intros <;> rfl

theorem getLsbD_stackSelector (p : Word) (r : Reg) (dual : Bool) (k : Nat) :
    (pswWithStack p r dual).getLsbD k = if 6 ≤ k ∧ k ≤ 9 then r.val.testBit (k - 6) else if k = 10 then dual else p.getLsbD k := by
  rw [getLsbD_pswWithStack]
  by_cases hsel : 6 ≤ k ∧ k ≤ 9
  · rw [if_neg (by omega), if_pos (by omega), if_pos hsel]
  · rw [if_neg hsel]
    by_cases hlow : k < 6
    · rw [if_pos hlow, if_neg (by omega)]
    · rw [if_neg hlow, if_neg (by omega)]

theorem getLsbD_extraSelector (p : Word) (r : Reg) (dual : Bool) {k : Nat} (hk : k < 16) :
    (pswWithExtra p r dual).getLsbD k = if 11 ≤ k ∧ k ≤ 14 then r.val.testBit (k - 11) else if k = 15 then dual else p.getLsbD k := by
  rw [getLsbD_pswWithExtra]
  by_cases hsel : 11 ≤ k ∧ k ≤ 14
  · rw [if_neg (by omega), if_pos (by omega), if_pos hsel]
  · rw [if_neg hsel]
    by_cases hlow : k < 11
    · rw [if_pos hlow, if_neg (by omega)]
    · rw [if_neg hlow, if_neg (by omega), if_pos (by omega), if_pos (by omega)]

/-- Settles O47: SRS and SRD write the stack selector, ERS and ERD the extra selector, each with its dual flag. -/
theorem selectorEffect : Obligations.SelectorEffect := fun r s =>
  ⟨pswOutcome_of_psw rfl fun k _ => getLsbD_stackSelector s.psw r false k,
    pswOutcome_of_psw rfl fun k _ => getLsbD_stackSelector s.psw r true k,
    pswOutcome_of_psw rfl fun _ hk => getLsbD_extraSelector s.psw r false hk,
    pswOutcome_of_psw rfl fun _ hk => getLsbD_extraSelector s.psw r true hk⟩

/-- The mask 1 of SETI and CLRI stands for bit 4 (30_encoding.md R146). -/
theorem mask_one_bit (k : Nat) : (decide (4 ≤ k) && (1#4).getLsbD (k - 4)) = decide (k = 4) := by
  rw [BitVec.getLsbD_one, Bool.eq_iff_iff]
  simp
  omega

/-- Settles O48: each instruction is its mask operation, whose bits its law gives. -/
theorem pswBitEffect : Obligations.PswBitEffect := by
  intro m s
  refine ⟨pswOutcome_of_psw rfl fun k _ => getLsbD_pswSetLow s.psw m k, pswOutcome_of_psw rfl fun k _ => getLsbD_pswClearLow s.psw m k,
    pswOutcome_of_psw rfl fun k _ => getLsbD_pswSetHigh s.psw m k, pswOutcome_of_psw rfl fun k _ => getLsbD_pswClearHigh s.psw m k,
    pswOutcome_of_psw rfl fun k _ => ?_, pswOutcome_of_psw rfl fun k _ => ?_⟩
  · rw [getLsbD_pswSetHigh, mask_one_bit]
  · rw [getLsbD_pswClearHigh, mask_one_bit]

end Sys2Proof.Proofs
end

section
/-! PROOFS. Source lines: which instructions have one, that the placeholder stands for the others (30_encoding.md R136, R147), and that the line is read back. -/

namespace Sys2Proof.Proofs

open Sys2Proof Sys2Proof.Machine Sys2Proof.Claims

/-! The unassigned words are the words of the reserved instructions. -/

/-- The instructions without a spelling: the unassigned codes of 30_encoding.md R132 and R133. -/
def isReserved : Instr → Bool
  | .sopReserved _ _ | .sysReserved _ | .unrecognized _ => true
  | _ => false

theorem isUnassigned_iff {w : Word} : isUnassigned w = true ↔
    (0xFEC0 ≤ w.toNat ∧ w.toNat ≤ 0xFEFF) ∨ (0xFFC0 ≤ w.toNat ∧ w.toNat ≤ 0xFFEF) ∨
      (0xFFF4 ≤ w.toNat ∧ w.toNat ≤ 0xFFFE) := by
  simp [isUnassigned, or_assoc]

/-- Only the special operations, the system operations and the words of no class hold unassigned words. -/
theorem not_isUnassigned_of_hasPrefix {w : Word} {c : WordClass} (h : HasPrefix w c)
    (hc : c ≠ .sop ∧ c ≠ .system ∧ c ≠ .unrecognized) : isUnassigned w = false := by
  have hw := w.isLt
  rw [Bool.eq_false_iff, ne_eq, isUnassigned_iff]
  cases c with
  | halt => rw [show w = 0xFFFF#16 from h]; decide
  | sop => exact absurd rfl hc.1
  | system => exact absurd rfl hc.2.1
  | unrecognized => exact absurd rfl hc.2.2
  | _ =>
    have hbits := bitsAt_eq_iff.mp h
    simp at hbits
    omega

/-- Of the special operations the types 12 to 15 are unassigned (30_encoding.md R120). -/
theorem isUnassigned_sop {w : Word} (h : HasPrefix w .sop) : isUnassigned w = decide (12 ≤ (bitsAt w 4 4).toFin) := by
  have hw := w.isLt
  have hprefix := bitsAt_eq_iff.mp (show bitsAt w 8 8 = 0b11111110#8 from h)
  have htype : w.toNat / 2 ^ 4 % 2 ^ 4 = (bitsAt w 4 4).toFin.val := bitsAt_eq_iff.mp rfl
  have hle : 12 ≤ (bitsAt w 4 4).toFin ↔ 12 ≤ (bitsAt w 4 4).toFin.val := Iff.rfl
  rw [Bool.eq_iff_iff, isUnassigned_iff, decide_eq_true_iff, hle]
  simp at hprefix
  omega

/-- Of the system operations the codes 4 to 7 are unassigned (30_encoding.md R121). -/
theorem isUnassigned_system {w : Word} (h : HasPrefix w .system) :
    isUnassigned w = decide (4 ≤ (bitsAt w 0 3).toFin) := by
  have hw := w.isLt
  have hprefix := bitsAt_eq_iff.mp (show bitsAt w 3 13 = 0b1111111111110#13 from h)
  have hop : w.toNat / 2 ^ 0 % 2 ^ 3 = (bitsAt w 0 3).toFin.val := bitsAt_eq_iff.mp rfl
  have hle : 4 ≤ (bitsAt w 0 3).toFin ↔ 4 ≤ (bitsAt w 0 3).toFin.val := Iff.rfl
  rw [Bool.eq_iff_iff, isUnassigned_iff, decide_eq_true_iff, hle]
  simp at hprefix
  omega

theorem isReserved_decodeSop (w : Word) : isReserved (decodeSop w) = decide (12 ≤ (bitsAt w 4 4).toFin) := by
  unfold decodeSop
  split
  case h_13 =>
    exact (decide_eq_true (by apply twelve_le_of_no_other <;> assumption)).symm
  case h_11 htype | h_12 htype =>
    rw [htype]
    split_ifs <;> rfl
  all_goals
    rename_i htype
    rw [htype]
    rfl

theorem isReserved_decodeSystem (w : Word) : isReserved (decodeSystem w) = decide (4 ≤ (bitsAt w 0 3).toFin) := by
  unfold decodeSystem
  split
  all_goals
    rename_i hop
    rw [hop]
    rfl

theorem isReserved_decodeJump (w : Word) : isReserved (decodeJump w) = false := by
  unfold decodeJump
  split <;> rfl

theorem isReserved_decodeAlu2 (w : Word) : isReserved (decodeAlu2 w) = false := by
  unfold decodeAlu2
  split
  case h_6 => unfold decodeMul; split_ifs <;> rfl
  case h_7 => unfold decodeDiv; split_ifs <;> rfl
  case h_8 => unfold decodeShift; split <;> rfl
  all_goals rfl

/-- The unassigned words are those that decode to a reserved instruction. -/
theorem isUnassigned_eq_isReserved_decode (w : Word) : isUnassigned w = isReserved (decode w) := by
  have h := hasPrefix_classOf w
  unfold decode
  generalize classOf w = c at h
  have other (hc : c ≠ .sop ∧ c ≠ .system ∧ c ≠ .unrecognized) : isUnassigned w = false :=
    not_isUnassigned_of_hasPrefix h hc
  cases c with
  | sop => rw [isUnassigned_sop h, isReserved_decodeSop]
  | system => rw [isUnassigned_system h, isReserved_decodeSystem]
  | unrecognized =>
    rw [show isReserved (.unrecognized w) = true from rfl, isUnassigned_iff]
    have hrange := isUnrecognizedWord_iff.mp h
    omega
  | alu2 => rw [isReserved_decodeAlu2, other (by decide)]
  | ldst => rw [other (by decide)]; unfold decodeLdSt; split_ifs <;> rfl
  | jump => rw [isReserved_decodeJump, other (by decide)]
  | ldsSts => rw [other (by decide)]; unfold decodeLdsSts; split_ifs <;> rfl
  | mvs => rw [other (by decide)]; unfold decodeMvs; split_ifs <;> rfl
  | halt | ldi | mov | lsi | smv => exact other (by decide)

/-- A well-formed instruction with a spelling has an assigned word. -/
theorem isUnassigned_encode {i : Instr} (hi : i.wellFormed = true) : isUnassigned (encode i) = isReserved i := by
  rw [isUnassigned_eq_isReserved_decode, decodeOfEncodeIsTheInstruction i hi]

/-! Lines: the mnemonic, the operands, and the instruction that the line's form makes of them. -/

/-- `m` is the mnemonic of the form `f`. -/
def Names (m : Text) (f : Form) : Prop := m.all (!isBlank ·) = true ∧ lookupName forms (upper m) = some f

/-- The line `m ops` is one of the form `f`, with at most three operands. -/
structure IsLine (m : Text) (f : Form) (ops : List Text) : Prop where
  names : Names m f
  operands : ∀ t ∈ ops, IsOperand t
  length : ops.length ≤ 3

theorem operandTexts_joinOperands {ops : List Text} (h : ∀ t ∈ ops, IsOperand t) (hlen : ops.length ≤ 3) :
    operandTexts (joinOperands ops) = ops := by
  match ops, hlen with
  | [], _ => rfl
  | [t], _ => exact operandTexts_one (h t (by simp))
  | [t, u], _ => exact operandTexts_two (h t (by simp)) (h u (by simp))
  | [t, u, v], _ => exact operandTexts_three (h t (by simp)) (h u (by simp)) (h v (by simp))

/-- A line is split into its mnemonic and its operands again. -/
theorem parseInstr_line {m : Text} {f : Form} {ops : List Text} (h : IsLine m f ops) (symbols : List (Text × Nat))
    (cursor : Nat) : parseInstr symbols cursor (AsmLine.mk m ops).text = f.assemble symbols cursor ops := by
  obtain ⟨⟨hblank, hform⟩, hops, hlen⟩ := h
  have hread := operandTexts_joinOperands hops hlen
  replace hblank : ∀ c ∈ m, isBlank c = false := by simpa using hblank
  cases ops with
  | nil => simp [AsmLine.text, parseInstr, splitFirstToken_alone hblank, hform, show operandTexts [] = [] from rfl]
  | cons t rest =>
    simp only [AsmLine.text, parseInstr, splitFirstToken_append hblank, hform, Option.bind_some, hread]

/-! Operands. -/

/-- The characters of an operand. -/
def isOperandChar (c : Char) : Bool := !isBlank c && c != ','

theorem isOperandChar_iff {c : Char} : isOperandChar c = true ↔ isBlank c = false ∧ c ≠ ',' := by
  simp [isOperandChar]

theorem isOperand_iff {t : Text} : IsOperand t ↔ t ≠ [] ∧ t.all isOperandChar = true := by
  simp [IsOperand, isOperandChar_iff]

theorem isOperand_segText (k : SegReg) : IsOperand (segText k) := by
  rw [isOperand_iff]
  cases k <;> decide

theorem isOperand_smvSrcText (k : SmvSrc) : IsOperand (smvSrcText k) := by
  rw [isOperand_iff]
  cases k <;> decide

theorem isOperand_aluOperandText (b : AluOperand) : IsOperand (aluOperandText b) := by
  cases b with
  | reg rs => exact isOperand_regText rs
  | imm v => exact isOperand_immText v

theorem isOperand_append {t u : Text} (ht : t.all isOperandChar = true) (hu : IsOperand u) : IsOperand (t ++ u) := by
  rw [isOperand_iff] at *
  simp [ht, hu]

theorem isOperand_intText {plus : Text} (hplus : plus.all isOperandChar = true) (i : Int) : IsOperand (intText plus i) := by
  unfold intText
  split
  · exact isOperand_append (t := ['-']) (by decide) (isOperand_natText _)
  · exact isOperand_append hplus (isOperand_natText _)

theorem isOperandChar_digitChar : ∀ d : Fin 16, isOperandChar (digitChar d.val) = true := by decide

theorem isOperand_hexText (w : Word) : IsOperand (hexText w) := by
  have hw := w.isLt
  rw [isOperand_iff]
  simp [hexText, isOperandChar_digitChar ⟨w.toNat / 4096, by omega⟩, isOperandChar_digitChar ⟨w.toNat / 256 % 16, by omega⟩,
    isOperandChar_digitChar ⟨w.toNat / 16 % 16, by omega⟩, isOperandChar_digitChar ⟨w.toNat % 16, by omega⟩]

theorem isOperand_jumpText (address : Option Word) (off9 : BitVec 9) : IsOperand (jumpText address off9) := by
  cases address with
  | none => exact isOperand_intText (by decide) _
  | some a => exact isOperand_append (t := ['0', 'x']) (by decide) (isOperand_hexText _)

/-- A number is no register name. -/
theorem parseReg_immText : ∀ v : BitVec 4, parseReg (immText v) = none := by decide

theorem parseReg_segText (k : SegReg) : parseReg (segText k) = none := by
  cases k <;> decide

@[simp] theorem parseAluOperand_aluOperandText (b : AluOperand) : parseAluOperand (aluOperandText b) = some b := by
  cases b with
  | reg rs => simp [parseAluOperand, aluOperandText, parseReg_regText]
  | imm v => simp [parseAluOperand, aluOperandText, parseReg_immText, parseUnsigned_immText]

theorem parseAluOperand_regText (rs : Reg) : parseAluOperand (regText rs) = some (.reg rs) :=
  parseAluOperand_aluOperandText (.reg rs)

theorem parseAluOperand_immText (v : BitVec 4) : parseAluOperand (immText v) = some (.imm v) :=
  parseAluOperand_aluOperandText (.imm v)

/-- A field of at most 16 bits is read back from its signed text. -/
theorem natAbs_toInt_lt {n : Nat} (v : BitVec n) (hn : n ≤ 16) : v.toInt.natAbs < 100000 := by
  have hlt : v.toNat < 2 ^ n := v.isLt
  have h16 : 2 ^ n ≤ 2 ^ 16 := Nat.pow_le_pow_right (by omega) hn
  have hint : v.toInt = if 2 * v.toNat < 2 ^ n then (v.toNat : Int) else v.toNat - (2 ^ n : Nat) := BitVec.toInt_eq_toNat_cond v
  split at hint <;> omega

theorem parseSigned_intText (v : BitVec 5) : parseSigned 5 (intText [] v.toInt) = some v := by
  rw [parseSigned, parseInt_intText (.inl rfl) (natAbs_toInt_lt v (by omega)), Option.bind_some, signedField_toInt]

/-! The line of each instruction, and what its form makes of the operands. -/

/-- Where the instruction is a jump, the assembler resolves the operand of its line to its offset. -/
def JumpResolves (symbols : List (Text × Nat)) (cursor : Nat) (address : Option Word) (i : Instr) : Prop :=
  ∀ j ∈ jumps, ∀ off9, i = j.1 off9 → parseJump symbols cursor (jumpText address off9) = some off9

/-- `l` is the line of `i`, a line of the form `f`, which makes `i` of its operands again. -/
structure Spelling (address : Option Word) (i : Instr) (l : AsmLine) (f : Form) : Prop where
  line : asmLine address i = some l
  isLine : IsLine l.mnemonic f l.operands
  assemble : ∀ symbols cursor, JumpResolves symbols cursor address i → f.assemble symbols cursor l.operands = some i

/-- The instruction has a line that is read back. -/
def Spelled (address : Option Word) (i : Instr) : Prop := ∃ l f, Spelling address i l f

/-- A line with the mnemonic of a form spells what the form makes of its operands, whatever the symbols and the cursor. -/
theorem spelled_of_line {address : Option Word} {i : Instr} {m : Text} {f : Form} {ops : List Text}
    (hline : asmLine address i = some ⟨m, ops⟩) (hnames : Names m f) (hops : ∀ t ∈ ops, IsOperand t) (hlen : ops.length ≤ 3)
    (hasm : ∀ symbols cursor, f.assemble symbols cursor ops = some i) : Spelled address i :=
  ⟨_, _, hline, ⟨hnames, hops, hlen⟩, fun symbols cursor _ => hasm symbols cursor⟩

section
variable {address : Option Word} {m : Text} {rd rs rx : Reg}

theorem spelled_plain {i : Instr} (hline : asmLine address i = some ⟨m, []⟩) (hnames : Names m (.plain i)) :
    Spelled address i :=
  spelled_of_line hline hnames (by simp) (by simp) (by simp [Form.assemble])

theorem spelled_alu (mk : Reg → AluOperand → Instr) {b : AluOperand}
    (hline : asmLine address (mk rd b) = some ⟨m, [regText rd, aluOperandText b]⟩) (hnames : Names m (.alu mk)) :
    Spelled address (mk rd b) :=
  spelled_of_line hline hnames (by simp [isOperand_regText, isOperand_aluOperandText]) (by simp)
    (by simp [Form.assemble, twoOperands, parseReg_regText])

theorem spelled_aluOdd_reg {mkReg : Reg → Reg → Instr} {mkImm : Reg → BitVec 4 → Instr}
    (hline : asmLine address (mkReg rd rs) = some ⟨m, [regText rd, regText rs]⟩) (hnames : Names m (.aluOdd mkReg mkImm)) :
    Spelled address (mkReg rd rs) :=
  spelled_of_line hline hnames (by simp [isOperand_regText]) (by simp)
    (by simp [Form.assemble, twoOperands, parseReg_regText, parseAluOperand_regText, oddForm])

theorem spelled_aluOdd_imm {mkReg : Reg → Reg → Instr} {mkImm : Reg → BitVec 4 → Instr} {v : BitVec 4}
    (hodd : isOdd rd = true) (hline : asmLine address (mkImm rd v) = some ⟨m, [regText rd, immText v]⟩)
    (hnames : Names m (.aluOdd mkReg mkImm)) : Spelled address (mkImm rd v) :=
  spelled_of_line hline hnames (by simp [isOperand_regText, isOperand_immText]) (by simp)
    (by simp [Form.assemble, twoOperands, parseReg_regText, parseAluOperand_immText, oddForm, hodd])

theorem spelled_aluEven {mk : Reg → BitVec 4 → Instr} {v : BitVec 4} (heven : isOdd rd = false)
    (hline : asmLine address (mk rd v) = some ⟨m, [regText rd, immText v]⟩) (hnames : Names m (.aluEven mk)) :
    Spelled address (mk rd v) :=
  spelled_of_line hline hnames (by simp [isOperand_regText, isOperand_immText]) (by simp)
    (by simp [Form.assemble, twoOperands, parseReg_regText, parseUnsigned_immText, heven])

theorem spelled_shift (mk : Reg → BitVec 3 → Instr) {n : BitVec 3}
    (hline : asmLine address (mk rd n) = some ⟨m, [regText rd, immText n]⟩) (hnames : Names m (.shift mk)) :
    Spelled address (mk rd n) :=
  spelled_of_line hline hnames (by simp [isOperand_regText, isOperand_immText]) (by simp)
    (by simp [Form.assemble, twoOperands, parseReg_regText, parseUnsigned_immText])

theorem spelled_based (mk : Reg → Reg → BitVec 5 → Instr) {off5 : BitVec 5}
    (hline : asmLine address (mk rd rs off5) = some ⟨m, [regText rd, regText rs, immText off5]⟩)
    (hnames : Names m (.based mk)) : Spelled address (mk rd rs off5) :=
  spelled_of_line hline hnames (by simp [isOperand_regText, isOperand_immText]) (by simp)
    (by simp [Form.assemble, threeOperands, parseReg_regText, parseUnsigned_immText])

theorem spelled_oneReg (mk : Reg → Instr) (hline : asmLine address (mk rx) = some ⟨m, [regText rx]⟩)
    (hnames : Names m (.oneReg mk)) : Spelled address (mk rx) :=
  spelled_of_line hline hnames (by simp [isOperand_regText]) (by simp)
    (by simp [Form.assemble, oneOperand, parseReg_regText])

theorem spelled_mask (mk : BitVec 4 → Instr) {v : BitVec 4} (hline : asmLine address (mk v) = some ⟨m, [immText v]⟩)
    (hnames : Names m (.mask mk)) : Spelled address (mk v) :=
  spelled_of_line hline hnames (by simp [isOperand_immText]) (by simp)
    (by simp [Form.assemble, oneOperand, parseUnsigned_immText])

/-- LDS and STS: two operands for seg 0, three for the other codes. -/
theorem spelled_direct (mk : SegReg → Reg → Reg → Instr) {seg : SegReg}
    (hline : asmLine address (mk seg rd rs) = some ⟨m, [regText rd, regText rs] ++ segSuffix seg⟩)
    (hnames : Names m (.direct mk)) : Spelled address (mk seg rd rs) := by
  refine spelled_of_line hline hnames ?_ ?_ ?_ <;> cases seg <;>
    simp [segSuffix, isOperand_regText, isOperand_segText, Form.assemble, assembleDirect, twoOperands, threeOperands,
      parseReg_regText, parseSeg_segText]

/-- MOV: two operands for the immediate 0, three for the others. -/
theorem spelled_mov {imm2 : BitVec 2} : Spelled address (.mov rd rs imm2) := by
  refine spelled_of_line (f := .mov) rfl ⟨rfl, rfl⟩ ?_ ?_ ?_ <;> split_ifs with h <;>
    simp [h, isOperand_regText, isOperand_immText, Form.assemble, assembleMov, twoOperands, threeOperands,
      parseReg_regText, parseUnsigned_immText]

/-- MVS: the first operand says the direction. -/
theorem spelled_mvsRead {seg : SegReg} : Spelled address (.mvsRead rd seg) :=
  spelled_of_line (f := .mvs) rfl ⟨rfl, rfl⟩ (by simp [isOperand_regText, isOperand_segText]) (by simp)
    (by simp [Form.assemble, assembleMvs, twoOperands, parseReg_regText, parseSeg_segText])

theorem spelled_mvsWrite {seg : SegReg} : Spelled address (.mvsWrite rd seg) :=
  spelled_of_line (f := .mvs) rfl ⟨rfl, rfl⟩ (by simp [isOperand_regText, isOperand_segText]) (by simp)
    (by simp [Form.assemble, assembleMvs, twoOperands, parseReg_regText, parseSeg_segText, parseReg_segText])

theorem spelled_smv {src : SmvSrc} : Spelled address (.smv src rd) :=
  spelled_of_line (f := .smv) rfl ⟨rfl, rfl⟩ (by simp [isOperand_regText, isOperand_smvSrcText]) (by simp)
    (by simp [Form.assemble, twoOperands, parseReg_regText, parseSmvSrc_smvSrcText])

theorem spelled_ldi {imm15 : BitVec 15} : Spelled address (.ldi imm15) :=
  spelled_of_line (f := .ldi) rfl ⟨rfl, rfl⟩ (by simp [isOperand_immText]) (by simp)
    (by simp [Form.assemble, oneOperand, parseUnsigned_immText])

theorem spelled_lsi {imm5 : BitVec 5} : Spelled address (.lsi rd imm5) :=
  spelled_of_line (f := .lsi) rfl ⟨rfl, rfl⟩ (by simp [isOperand_regText, isOperand_intText (plus := []) rfl]) (by simp)
    (by simp [Form.assemble, twoOperands, parseReg_regText, parseSigned_intText])

end

/-- The line of a jump: one operand. -/
theorem exists_isLine_jump {j : (BitVec 9 → Instr) × (Word → Bool)} (hj : j ∈ jumps) : ∃ m, Names m (.jump j.1) ∧
    ∀ address off9, asmLine address (j.1 off9) = some ⟨m, [jumpText address off9]⟩ := by
  simp only [jumps, List.mem_cons, List.not_mem_nil, or_false] at hj
  rcases hj with rfl | rfl | rfl | rfl | rfl | rfl | rfl | rfl <;> exact ⟨_, ⟨rfl, rfl⟩, fun _ _ => rfl⟩

theorem spelled_jump {j : (BitVec 9 → Instr) × (Word → Bool)} (hj : j ∈ jumps) (address : Option Word) (off9 : BitVec 9) :
    Spelled address (j.1 off9) := by
  obtain ⟨m, hnames, hline⟩ := exists_isLine_jump hj
  refine ⟨_, _, hline address off9, ⟨hnames, by simp [isOperand_jumpText], by simp⟩, fun symbols cursor hresolves => ?_⟩
  simp [Form.assemble, oneOperand, hresolves j hj off9 rfl]

theorem jumps_get_mem (k : Fin 8) : jumps.get k ∈ jumps := List.get_mem ..

/-- Every well-formed instruction but the reserved ones has a line that is read back. -/
theorem spelled {i : Instr} (hwf : i.wellFormed = true) (hi : isReserved i = false) (address : Option Word) :
    Spelled address i := by
  cases i with
  | sopReserved | sysReserved | unrecognized => cases hi
  | halt | seti | clri | nop | hlt | swi | reti => exact spelled_plain rfl ⟨rfl, rfl⟩
  | ldi => exact spelled_ldi
  | ld => exact spelled_based .ld rfl ⟨rfl, rfl⟩
  | st => exact spelled_based .st rfl ⟨rfl, rfl⟩
  | add _ w => exact spelled_alu (.add · w ·) rfl (by cases w <;> exact ⟨rfl, rfl⟩)
  | sub _ w => exact spelled_alu (.sub · w ·) rfl (by cases w <;> exact ⟨rfl, rfl⟩)
  | and _ w => exact spelled_alu (.and · w ·) rfl (by cases w <;> exact ⟨rfl, rfl⟩)
  | or _ w => exact spelled_alu (.or · w ·) rfl (by cases w <;> exact ⟨rfl, rfl⟩)
  | xor _ w => exact spelled_alu (.xor · w ·) rfl (by cases w <;> exact ⟨rfl, rfl⟩)
  | mul _ w =>
    exact spelled_aluOdd_reg (mkReg := (.mul · w ·)) (mkImm := (.mulImm · w ·)) rfl (by cases w <;> exact ⟨rfl, rfl⟩)
  | mulImm _ w =>
    exact spelled_aluOdd_imm (mkReg := (.mul · w ·)) (mkImm := (.mulImm · w ·)) hwf rfl (by cases w <;> exact ⟨rfl, rfl⟩)
  | mul32 _ w =>
    exact spelled_aluEven (mk := (.mul32 · w ·)) (by simpa [Instr.wellFormed] using hwf) rfl (by cases w <;> exact ⟨rfl, rfl⟩)
  | div _ w =>
    exact spelled_aluOdd_reg (mkReg := (.div · w ·)) (mkImm := (.divImm · w ·)) rfl (by cases w <;> exact ⟨rfl, rfl⟩)
  | divImm _ w =>
    exact spelled_aluOdd_imm (mkReg := (.div · w ·)) (mkImm := (.divImm · w ·)) hwf rfl (by cases w <;> exact ⟨rfl, rfl⟩)
  | div32 _ w =>
    exact spelled_aluEven (mk := (.div32 · w ·)) (by simpa [Instr.wellFormed] using hwf) rfl (by cases w <;> exact ⟨rfl, rfl⟩)
  | sl => exact spelled_shift .sl rfl ⟨rfl, rfl⟩
  | slc => exact spelled_shift .slc rfl ⟨rfl, rfl⟩
  | sr => exact spelled_shift .sr rfl ⟨rfl, rfl⟩
  | src => exact spelled_shift .src rfl ⟨rfl, rfl⟩
  | sra => exact spelled_shift .sra rfl ⟨rfl, rfl⟩
  | sac => exact spelled_shift .sac rfl ⟨rfl, rfl⟩
  | ror => exact spelled_shift .ror rfl ⟨rfl, rfl⟩
  | roc => exact spelled_shift .roc rfl ⟨rfl, rfl⟩
  | jz off9 => exact spelled_jump (jumps_get_mem 0) address off9
  | jnz off9 => exact spelled_jump (jumps_get_mem 1) address off9
  | jc off9 => exact spelled_jump (jumps_get_mem 2) address off9
  | jnc off9 => exact spelled_jump (jumps_get_mem 3) address off9
  | jn off9 => exact spelled_jump (jumps_get_mem 4) address off9
  | jnn off9 => exact spelled_jump (jumps_get_mem 5) address off9
  | jv off9 => exact spelled_jump (jumps_get_mem 6) address off9
  | jnv off9 => exact spelled_jump (jumps_get_mem 7) address off9
  | lds => exact spelled_direct .lds rfl ⟨rfl, rfl⟩
  | sts => exact spelled_direct .sts rfl ⟨rfl, rfl⟩
  | mov => exact spelled_mov
  | lsi => exact spelled_lsi
  | swb => exact spelled_oneReg .swb rfl ⟨rfl, rfl⟩
  | inv => exact spelled_oneReg .inv rfl ⟨rfl, rfl⟩
  | neg => exact spelled_oneReg .neg rfl ⟨rfl, rfl⟩
  | jml => exact spelled_oneReg .jml rfl ⟨rfl, rfl⟩
  | srs => exact spelled_oneReg .srs rfl ⟨rfl, rfl⟩
  | srd => exact spelled_oneReg .srd rfl ⟨rfl, rfl⟩
  | ers => exact spelled_oneReg .ers rfl ⟨rfl, rfl⟩
  | erd => exact spelled_oneReg .erd rfl ⟨rfl, rfl⟩
  | set => exact spelled_mask .set rfl ⟨rfl, rfl⟩
  | clr => exact spelled_mask .clr rfl ⟨rfl, rfl⟩
  | set2 => exact spelled_mask .set2 rfl ⟨rfl, rfl⟩
  | clr2 => exact spelled_mask .clr2 rfl ⟨rfl, rfl⟩
  | mvsRead => exact spelled_mvsRead
  | mvsWrite => exact spelled_mvsWrite
  | smv => exact spelled_smv

end Sys2Proof.Proofs
end

section
/-! PROOFS. The operands of jumps, and the statements about the disassembler and the assembler (30_encoding.md sections 6 and 7). -/

namespace Sys2Proof.Proofs

open Sys2Proof Sys2Proof.Machine Sys2Proof.Claims

/-! The fields of jumps. -/

theorem signedField_eq_some_iff {v : Int} {off9 : BitVec 9} : signedField 9 v = some off9 ↔ off9.toInt = v := by
  refine ⟨fun h => ?_, fun h => h ▸ signedField_toInt off9⟩
  unfold signedField at h
  split_ifs at h with hrange
  cases h
  exact BitVec.toInt_ofInt_eq_self (by omega) hrange.1 hrange.2

theorem signedField_eq_none_iff {v : Int} : signedField 9 v = none ↔ ¬ (-256 ≤ v ∧ v ≤ 255) := by
  unfold signedField
  split_ifs <;> simp <;> omega

/-- Settles O59: hexadecimal and labels both resolve to the field of their address. -/
theorem jumpTargetsResolveExactly : Obligations.JumpTargetsResolveExactly := by
  intro symbols cursor target t ht
  have hfield : parseJump symbols cursor t = signedField 9 ((target : Int) - (cursor + 1)) := by
    rcases ht with hhex | ⟨hhex, hint, hlabel⟩
    · simp [parseJump, hhex, addressField]
    · simp [parseJump, hhex, hint, hlabel, addressField]
  rw [hfield]
  refine ⟨fun hrange => ?_, signedField_eq_none_iff.mpr⟩
  cases hoff : signedField 9 ((target : Int) - (cursor + 1)) with
  | none => exact absurd hrange (signedField_eq_none_iff.mp hoff)
  | some off9 => exact ⟨off9, rfl, signedField_eq_some_iff.mp hoff⟩

/-- A signed offset is read as an offset. -/
theorem parseJump_offset (symbols : List (Text × Nat)) (cursor : Nat) (off9 : BitVec 9) :
    parseJump symbols cursor (jumpText none off9) = some off9 := by
  have hhex : parseHex (intText ['+'] off9.toInt) = none := by
    unfold intText
    split <;> rfl
  simp only [parseJump, jumpText, hhex, parseInt_intText (.inr rfl) (natAbs_toInt_lt off9 (by omega)), signedField_toInt]

/-- A target in hexadecimal is read as an address. -/
theorem parseJump_target (symbols : List (Text × Nat)) (cursor : Nat) (a : Word) (off9 : BitVec 9) :
    parseJump symbols cursor (jumpText (some a) off9) =
      signedField 9 (((a + 1 + off9.signExtend 16).toNat : Int) - (cursor + 1)) := by
  simp only [parseJump, jumpText, parseHex_hexText, addressField]

/-- The target of a jump at `cursor` is the exact sum less a multiple of 2^16. -/
theorem exists_target_eq (cursor : Nat) (off9 : BitVec 9) : ∃ k : Int,
    ((BitVec.ofNat 16 cursor + 1 + off9.signExtend 16).toNat : Int) = cursor + 1 + off9.toInt + 0x10000 * k := by
  have hext : (off9.signExtend 16).toInt = off9.toInt := BitVec.toInt_signExtend_of_le (by omega)
  have hint := BitVec.toInt_eq_toNat_cond (off9.signExtend 16)
  rw [hext] at hint
  have hsum : (BitVec.ofNat 16 cursor + 1 + off9.signExtend 16).toNat =
      (cursor + 1 + (off9.signExtend 16).toNat) % 0x10000 := by
    simp [BitVec.toNat_add]
  rw [hsum]
  split_ifs at hint
  · exact ⟨-((cursor + 1 + (off9.signExtend 16).toNat) / 0x10000 : Nat), by omega⟩
  · exact ⟨1 - ((cursor + 1 + (off9.signExtend 16).toNat) / 0x10000 : Nat), by omega⟩

/-- A target in range is the exact sum. -/
theorem signedField_target_of_inRange {cursor : Nat} {off9 : BitVec 9} (h : targetInRange cursor off9) :
    signedField 9 (((BitVec.ofNat 16 cursor + 1 + off9.signExtend 16).toNat : Int) - (cursor + 1)) = some off9 := by
  obtain ⟨k, hk⟩ := exists_target_eq cursor off9
  have hlt := (BitVec.ofNat 16 cursor + 1 + off9.signExtend 16).isLt
  obtain ⟨h0, h1⟩ := h
  exact signedField_eq_some_iff.mpr (by omega)

/-- A wrapped target is too far away to be a jump's target. -/
theorem signedField_target_of_not_inRange {cursor : Nat} {off9 : BitVec 9} (h : ¬ targetInRange cursor off9) :
    signedField 9 (((BitVec.ofNat 16 cursor + 1 + off9.signExtend 16).toNat : Int) - (cursor + 1)) = none := by
  obtain ⟨k, hk⟩ := exists_target_eq cursor off9
  have hlt := (BitVec.ofNat 16 cursor + 1 + off9.signExtend 16).isLt
  have hlo : -256 ≤ off9.toInt := BitVec.le_toInt off9
  have hhi : off9.toInt < 256 := BitVec.toInt_lt
  unfold targetInRange at h
  exact signedField_eq_none_iff.mpr (by omega)

/-- Settles O7: the transfer a taken jump makes has the target that its line shows. -/
theorem disassembledTargetIsTheEnginesTarget : Obligations.DisassembledTargetIsTheEnginesTarget := by
  intro j hj off9 a s t p hpc hpend hexec hp
  obtain ⟨m, -, hline⟩ := exists_isLine_jump hj
  refine ⟨_, hline (some a) off9, ?_⟩
  have htaken : j.2 s.psw = true := by
    by_contra hnot
    rw [exec_jump_not_taken hj (Bool.eq_false_of_not_eq_true hnot)] at hexec
    cases hexec
    rw [hpend] at hp
    cases hp
  rw [exec_jump_taken hj htaken, delayedTransfer_of_pend_none hpend] at hexec
  cases hexec
  cases hp
  have htarget : (jumpTransfer s off9).targetPc = a + 1 + off9.signExtend 16 := by
    rw [jumpTransfer, ← jumpTarget_eq, ← hpc]
    rfl
  rw [htarget]
  rfl

/-! Reading a line back. -/

theorem asmLine_eq_none_iff {address : Option Word} {i : Instr} : asmLine address i = none ↔ isReserved i = true := by
  cases i <;> simp [asmLine, isReserved]

theorem disassemble_of_spelling {address : Option Word} {w : Word} {l : AsmLine} {f : Form}
    (h : Spelling address (decode w) l f) : disassemble address w = l.text := by
  simp [disassemble, h.line]

/-- Every word that is not unassigned has a line. -/
theorem spelled_decode {w : Word} (h : isUnassigned w = false) (address : Option Word) : Spelled address (decode w) :=
  spelled (encodeOfDecodeIsTheWord w).1 (by rw [← isUnassigned_eq_isReserved_decode, h]) address

/-- A word's line assembles to the word, where the operand of a jump is resolved to its offset. -/
theorem assembleLine_disassemble {w : Word} (h : isUnassigned w = false) {symbols : List (Text × Nat)} {cursor : Nat}
    {address : Option Word} (hresolves : JumpResolves symbols cursor address (decode w)) :
    assembleLine symbols cursor (disassemble address w) = some w := by
  obtain ⟨l, f, hl⟩ := spelled_decode h address
  rw [disassemble_of_spelling hl, assembleLine, parseInstr_line hl.isLine, hl.assemble symbols cursor hresolves,
    Option.map_some, (encodeOfDecodeIsTheWord w).2]

/-- The line of a jump is rejected where its operand is. -/
theorem assembleLine_jump_none {j : (BitVec 9 → Instr) × (Word → Bool)} (hj : j ∈ jumps) {off9 : BitVec 9} {w : Word}
    (hw : decode w = j.1 off9) {symbols : List (Text × Nat)} {cursor : Nat} {address : Option Word}
    (hnone : parseJump symbols cursor (jumpText address off9) = none) :
    assembleLine symbols cursor (disassemble address w) = none := by
  obtain ⟨m, hnames, hline⟩ := exists_isLine_jump hj
  have hisLine : IsLine m (.jump j.1) [jumpText address off9] := ⟨hnames, by simp [isOperand_jumpText], by simp⟩
  have htext : disassemble address w = (AsmLine.mk m [jumpText address off9]).text := by
    simp [disassemble, hw, hline]
  rw [htext, assembleLine, parseInstr_line hisLine]
  simp [Form.assemble, oneOperand, hnone]

theorem mem_of_lookupName {α : Type} {table : List (Text × α)} {t : Text} {v : α} (h : lookupName table t = some v) :
    (t, v) ∈ table := by
  induction table with
  | nil => cases h
  | cons entry rest ih =>
    obtain ⟨name, u⟩ := entry
    unfold lookupName at h
    split_ifs at h with hname
    · cases h
      rw [hname]
      exact List.mem_cons_self
    · exact List.mem_cons_of_mem _ (ih h)

theorem forms_head_ne : forms.all (fun p => p.1.head? != some '?') = true := rfl

/-- No mnemonic begins as the placeholder does. -/
theorem head_ne_of_names {m : Text} {f : Form} (h : Names m f) : m.head? ≠ some '?' := by
  intro hhead
  have hname := List.all_eq_true.mp forms_head_ne _ (mem_of_lookupName h.2)
  have hupper : (upper m).head? = some '?' := by
    rw [upper, List.head?_map, hhead]
    rfl
  simp [hupper] at hname

/-- A line that begins with a `?` has a mnemonic that does. -/
theorem mnemonic_head_of_text_head {l : AsmLine} (h : l.text.head? = some '?') : l.mnemonic.head? = some '?' := by
  obtain ⟨m, ops⟩ := l
  cases m <;> cases ops <;> simp [AsmLine.text] at h ⊢ <;> exact h

/-- Settles O6: the reserved instructions are those without a line, and no line begins as the placeholder does. -/
theorem placeholderStandsForUnassignedWords : Obligations.PlaceholderStandsForUnassignedWords := by
  intro address w
  constructor
  · intro hplaceholder
    by_contra hassigned
    obtain ⟨l, f, hl⟩ := spelled_decode (Bool.eq_false_of_not_eq_true hassigned) address
    rw [disassemble_of_spelling hl] at hplaceholder
    exact head_ne_of_names hl.isLine.names (mnemonic_head_of_text_head (by rw [hplaceholder]; rfl))
  · intro hunassigned
    rw [isUnassigned_eq_isReserved_decode] at hunassigned
    simp [disassemble, asmLine_eq_none_iff.mpr hunassigned]

/-! What a form makes has an assigned word. -/

/-- Every instruction that the form makes has the property `P`. -/
def MakesOnly (P : Instr → Prop) : Form → Prop
  | .plain i => P i
  | .alu mk => ∀ rd b, P (mk rd b)
  | .aluOdd mkReg mkImm => (∀ rd rs, P (mkReg rd rs)) ∧ ∀ rd v, isOdd rd = true → P (mkImm rd v)
  | .aluEven mk => ∀ rd v, isOdd rd = false → P (mk rd v)
  | .shift mk => ∀ rd n, P (mk rd n)
  | .jump mk => ∀ off9, P (mk off9)
  | .based mk => ∀ rd rb off5, P (mk rd rb off5)
  | .direct mk => ∀ seg rd rs, P (mk seg rd rs)
  | .ldi => ∀ imm15, P (.ldi imm15)
  | .mov => ∀ rd rs imm2, P (.mov rd rs imm2)
  | .lsi => ∀ rd imm5, P (.lsi rd imm5)
  | .oneReg mk => ∀ rx, P (mk rx)
  | .mask mk => ∀ v, P (mk v)
  | .mvs => (∀ rd seg, P (.mvsRead rd seg)) ∧ ∀ rd seg, P (.mvsWrite rd seg)
  | .smv => ∀ src rd, P (.smv src rd)

theorem exists_of_oneOperand {α : Type} {f : Text → Option α} {ops : List Text} {a : α} (h : oneOperand f ops = some a) :
    ∃ t, f t = some a := by
  unfold oneOperand at h
  split at h
  · exact ⟨_, h⟩
  · cases h

theorem exists_of_twoOperands {α β γ : Type} {f : Text → Option α} {g : Text → Option β} {k : α → β → Option γ}
    {ops : List Text} {c : γ} (h : twoOperands f g k ops = some c) : ∃ a b, k a b = some c := by
  unfold twoOperands at h
  split at h
  · obtain ⟨a, -, h⟩ := Option.bind_eq_some_iff.mp h
    obtain ⟨b, -, h⟩ := Option.bind_eq_some_iff.mp h
    exact ⟨a, b, h⟩
  · cases h

theorem exists_of_threeOperands {α β γ δ : Type} {f : Text → Option α} {g : Text → Option β} {h : Text → Option γ}
    {k : α → β → γ → δ} {ops : List Text} {d : δ} (hd : threeOperands f g h k ops = some d) : ∃ a b c, k a b c = d := by
  unfold threeOperands at hd
  split at hd
  · obtain ⟨a, -, hd⟩ := Option.bind_eq_some_iff.mp hd
    obtain ⟨b, -, hd⟩ := Option.bind_eq_some_iff.mp hd
    obtain ⟨c, -, hd⟩ := Option.map_eq_some_iff.mp hd
    exact ⟨a, b, c, hd⟩
  · cases hd

theorem oddForm_makes {P : Instr → Prop} {mkReg : Reg → Reg → Instr} {mkImm : Reg → BitVec 4 → Instr}
    (h : MakesOnly P (.aluOdd mkReg mkImm)) {rd : Reg} {b : AluOperand} {i : Instr} (hi : oddForm mkReg mkImm rd b = some i) :
    P i := by
  cases b with
  | reg rs => cases hi; exact h.1 rd rs
  | imm v =>
    simp only [oddForm, Option.ite_none_right_eq_some, Option.some.injEq] at hi
    obtain ⟨hodd, rfl⟩ := hi
    exact h.2 rd v hodd

theorem assembleMvs_makes {P : Instr → Prop} (h : MakesOnly P .mvs) {ops : List Text} {i : Instr}
    (hi : assembleMvs ops = some i) : P i := by
  unfold assembleMvs at hi
  split at hi
  case h_1 hread =>
    cases hi
    obtain ⟨rd, seg, hmade⟩ := exists_of_twoOperands hread
    cases hmade
    exact h.1 rd seg
  case h_2 =>
    obtain ⟨seg, rd, hmade⟩ := exists_of_twoOperands hi
    cases hmade
    exact h.2 rd seg

theorem assembleDirect_makes {P : Instr → Prop} {mk : SegReg → Reg → Reg → Instr} (h : MakesOnly P (.direct mk))
    {ops : List Text} {i : Instr} (hi : assembleDirect mk ops = some i) : P i := by
  unfold assembleDirect at hi
  split at hi
  case h_1 htwo =>
    cases hi
    obtain ⟨rd, rs, hmade⟩ := exists_of_twoOperands htwo
    cases hmade
    exact h .cs rd rs
  case h_2 =>
    obtain ⟨rd, rs, seg, rfl⟩ := exists_of_threeOperands hi
    exact h seg rd rs

theorem assembleMov_makes {P : Instr → Prop} (h : MakesOnly P .mov) {ops : List Text} {i : Instr}
    (hi : assembleMov ops = some i) : P i := by
  unfold assembleMov at hi
  split at hi
  case h_1 htwo =>
    cases hi
    obtain ⟨rd, rs, hmade⟩ := exists_of_twoOperands htwo
    cases hmade
    exact h rd rs 0
  case h_2 =>
    obtain ⟨rd, rs, imm2, rfl⟩ := exists_of_threeOperands hi
    exact h rd rs imm2

/-- What the assembler makes by a form is among what the form makes. -/
theorem assemble_makes {P : Instr → Prop} {f : Form} (h : MakesOnly P f) {symbols : List (Text × Nat)} {cursor : Nat}
    {ops : List Text} {i : Instr} (hi : f.assemble symbols cursor ops = some i) : P i := by
  cases f with
  | plain j =>
    simp only [Form.assemble, Option.ite_none_right_eq_some, Option.some.injEq] at hi
    exact hi.2 ▸ h
  | alu mk | shift mk | lsi | smv =>
    obtain ⟨a, b, hmade⟩ := exists_of_twoOperands hi
    cases hmade
    exact h _ _
  | aluOdd mkReg mkImm =>
    obtain ⟨rd, b, hmade⟩ := exists_of_twoOperands hi
    exact oddForm_makes h hmade
  | aluEven mk =>
    obtain ⟨rd, v, hmade⟩ := exists_of_twoOperands hi
    split_ifs at hmade with hodd
    cases hmade
    exact h rd v (Bool.eq_false_of_not_eq_true hodd)
  | jump mk | ldi | oneReg mk | mask mk =>
    obtain ⟨t, hmade⟩ := exists_of_oneOperand hi
    obtain ⟨v, -, rfl⟩ := Option.map_eq_some_iff.mp hmade
    exact h v
  | based mk =>
    obtain ⟨rd, rb, off5, rfl⟩ := exists_of_threeOperands hi
    exact h rd rb off5
  | direct mk => exact assembleDirect_makes h hi
  | mov => exact assembleMov_makes h hi
  | mvs => exact assembleMvs_makes h hi

/-- The word of the instruction is an assigned one. -/
def HasAssignedWord (i : Instr) : Prop := isUnassigned (encode i) = false

theorem hasAssignedWord_of_wellFormed {i : Instr} (hwf : i.wellFormed = true) (hi : isReserved i = false) :
    HasAssignedWord i := (isUnassigned_encode hwf).trans hi

/-- `SET2 1` and `CLR2 1`, which are not well-formed, have the words of SETI and CLRI (log 12). -/
theorem hasAssignedWord_set2 (m : BitVec 4) : HasAssignedWord (.set2 m) := by
  by_cases hm : m = 1#4
  · subst hm
    exact hasAssignedWord_of_wellFormed (i := .seti) rfl rfl
  · exact hasAssignedWord_of_wellFormed (bne_iff_ne.mpr hm) rfl

theorem hasAssignedWord_clr2 (m : BitVec 4) : HasAssignedWord (.clr2 m) := by
  by_cases hm : m = 1#4
  · subst hm
    exact hasAssignedWord_of_wellFormed (i := .clri) rfl rfl
  · exact hasAssignedWord_of_wellFormed (bne_iff_ne.mpr hm) rfl

theorem withFlagForm_makes {P : Instr → Prop} {mk : Bool → Form} (h : ∀ w, MakesOnly P (mk w)) (name : Text) :
    ∀ p ∈ withFlagForm name mk, MakesOnly P p.2 := by
  simp [withFlagForm, h]

theorem aluForms_makeAssigned : ∀ p ∈ aluForms, MakesOnly HasAssignedWord p.2 := by
  have hwf {rd : Reg} (h : isOdd rd = false) : (!isOdd rd) = true := by rw [h]; rfl
  have made {mk : Bool → Form} (h : ∀ w, MakesOnly HasAssignedWord (mk w)) (name : Text) (p : Text × Form)
      (hp : p ∈ withFlagForm name mk) : MakesOnly HasAssignedWord p.2 := withFlagForm_makes h name p hp
  simp only [aluForms, List.flatten_cons, List.flatten_nil, List.append_nil, List.forall_mem_append]
  refine ⟨made ?add _, made ?sub _, made ?and _, made ?or _, made ?xor _, made ?mul _, made ?mul32 _, made ?div _,
    made ?div32 _⟩
  case mul | div =>
    exact fun _ => ⟨fun _ _ => hasAssignedWord_of_wellFormed rfl rfl, fun _ _ hodd => hasAssignedWord_of_wellFormed hodd rfl⟩
  case mul32 | div32 => exact fun _ _ _ heven => hasAssignedWord_of_wellFormed (hwf heven) rfl
  all_goals exact fun _ _ _ => hasAssignedWord_of_wellFormed rfl rfl

theorem shiftJumpForms_makeAssigned : ∀ p ∈ shiftJumpForms, MakesOnly HasAssignedWord p.2 := by
  simp only [shiftJumpForms, MakesOnly, List.forall_mem_cons, List.not_mem_nil, false_implies, implies_true, and_true]
  and_intros <;> intros <;> exact hasAssignedWord_of_wellFormed rfl rfl

theorem moveForms_makeAssigned : ∀ p ∈ moveForms, MakesOnly HasAssignedWord p.2 := by
  simp only [moveForms, MakesOnly, List.forall_mem_cons, List.not_mem_nil, false_implies, implies_true, and_true]
  and_intros <;> intros <;> exact hasAssignedWord_of_wellFormed rfl rfl

theorem specialForms_makeAssigned : ∀ p ∈ specialForms, MakesOnly HasAssignedWord p.2 := by
  simp only [specialForms, MakesOnly, hasAssignedWord_set2, hasAssignedWord_clr2, List.forall_mem_cons,
    List.not_mem_nil, false_implies, implies_true, and_true, true_and]
  and_intros <;> intros <;> exact hasAssignedWord_of_wellFormed rfl rfl

theorem forms_makeAssigned {p : Text × Form} (h : p ∈ forms) : MakesOnly HasAssignedWord p.2 := by
  simp only [forms, List.mem_flatten, List.mem_cons, List.not_mem_nil, or_false, exists_eq_or_imp, exists_eq_left] at h
  rcases h with h | h | h | h
  · exact aluForms_makeAssigned p h
  · exact shiftJumpForms_makeAssigned p h
  · exact moveForms_makeAssigned p h
  · exact specialForms_makeAssigned p h

/-- No source line assembles to an unassigned word. -/
theorem not_isUnassigned_of_assembleLine {symbols : List (Text × Nat)} {cursor : Nat} {line : Text} {w : Word}
    (h : assembleLine symbols cursor line = some w) : isUnassigned w = false := by
  obtain ⟨i, hi, rfl⟩ := Option.map_eq_some_iff.mp h
  obtain ⟨f, hf, hmade⟩ := Option.bind_eq_some_iff.mp hi
  exact assemble_makes (forms_makeAssigned (mem_of_lookupName hf)) hmade

/-- Settles O5: each form reads back the operands that the line shows, and the operand of a jump where its target is in range. -/
theorem disassemblyReassembles : Obligations.DisassemblyReassembles := by
  refine ⟨fun w symbols cursor h => ⟨?_, fun hrange => ?_, fun j hj off9 hw hrange => ?_⟩,
    fun _ _ _ _ => not_isUnassigned_of_assembleLine⟩
  · exact assembleLine_disassemble h fun j _ off9 _ => parseJump_offset symbols cursor off9
  · refine assembleLine_disassemble h fun j hj off9 hw => ?_
    rw [parseJump_target, signedField_target_of_inRange (hrange j hj off9 hw)]
  · refine assembleLine_jump_none hj hw ?_
    rw [parseJump_target, signedField_target_of_not_inRange hrange]

end Sys2Proof.Proofs
end
